-- ==== Sys2Proof/Word.lean ====
section
/-! DEFINITION. The word types: the 32-bit bus and command word (spec/00_scope.md R6, spec/20_memory.md R61) and the
256-bit operand (spec/10_state.md R20). Both are unsigned (R9). -/

namespace Sys2Proof

/-- One bus word, and one command word: 32 bits (R6, R61, R90). -/
abbrev Word32 := BitVec 32

/-- The content of an operand register, of a user-curve register and of a ROM entry: 256 bits (R6, R20, R40, R170). -/
abbrev Word256 := BitVec 256

end Sys2Proof
end

