-- ==== Sys2Proof/Config.lean ====
section
/-! DEFINITION. The point and curve values of spec/00_scope.md R12 and R13, and the parameters R7 leaves open: BASE,
BUSY_READ and SMUL_UNDEF are opaque constants with no body, so that nothing can be proved of their values. LATENCY is
the place of the engine's turn in the schedule State holds (log 1). -/

namespace Sys2Proof

/-- A point value, the tagged variant of R12: the point at infinity, or affine coordinates. -/
inductive Point where
  | infinity
  | affine (x y : Nat)
deriving DecidableEq, Repr, Inhabited

/-- A curve value `(m, a, b)` of R13: the field modulus and the coefficients of `y² = x³ + a·x + b`. -/
structure Curve where
  m : Nat
  a : Nat
  b : Nat
deriving DecidableEq, Repr, Inhabited

/-- The page number of the aperture's bus address: BASE is a multiple of 4096 left to the platform (R7, R60; log 4). -/
opaque Config.basePage : Nat

/-- BASE, the bus address of aperture offset 0x000; 4096-byte aligned by construction (R7, R60). -/
def Config.base : Nat := 4096 * Config.basePage

/-- BUSY_READ (R7, R68): the value of the n-th read of a busy-locked word. One draw for each read, none constrained (log 2). -/
opaque Config.busyRead : Nat → Word32

/-- SMUL_UNDEF before its bound is applied (R7, R153): a fixed function of the user curve, the scalar and the point (log 3). -/
opaque Config.smulUndefValue : Curve → Nat → Point → Point

end Sys2Proof
end

