-- ==== Sys2Proof/Syntax.lean ====
section
/-! DEFINITION. The commands as syntax: one constructor for each row of spec/opcode_table.json. A constructor holds the fields
of the command word its row leaves free (spec/30_encoding.md R91, R97); MSEL is the row's suffix (R93). -/

namespace Sys2Proof

/-- A 4-bit register number r0–r15 (R20, R94). A pair is named by its even register (R22, R94). -/
abbrev Reg := Fin 16

/-- A point pair's number k: the pair (r(2k), r(2k+1)) (R22). -/
abbrev Pair := Fin 8

/-- The modulus a modular command names by MSEL: `.P`, `.N` or `.U` (R93). -/
inductive ModSel where
  | p
  | n
  | u
deriving DecidableEq, Repr

/-- The curve a point command names by MSEL: `.K` or `.U` (R93). -/
inductive CurveSel where
  | k
  | u
deriving DecidableEq, Repr

/-- The commands, in the order of the opcode table. -/
inductive Instr where
  /-- MODADD.P rd, ra, rb (R123) -/
  | modaddP (rd ra rb : Reg)
  /-- MODADD.N rd, ra, rb (R123) -/
  | modaddN (rd ra rb : Reg)
  /-- MODADD.U rd, ra, rb (R123) -/
  | modaddU (rd ra rb : Reg)
  /-- MODSUB.P rd, ra, rb (R124) -/
  | modsubP (rd ra rb : Reg)
  /-- MODSUB.N rd, ra, rb (R124) -/
  | modsubN (rd ra rb : Reg)
  /-- MODSUB.U rd, ra, rb (R124) -/
  | modsubU (rd ra rb : Reg)
  /-- MONTMUL.P rd, ra, rb (R125) -/
  | montmulP (rd ra rb : Reg)
  /-- MONTMUL.N rd, ra, rb (R125) -/
  | montmulN (rd ra rb : Reg)
  /-- MONTMUL.U rd, ra, rb (R125) -/
  | montmulU (rd ra rb : Reg)
  /-- PCHK.K ra: ra names a pair (R146) -/
  | pchkK (ra : Reg)
  /-- PCHK.U ra: ra names a pair (R146) -/
  | pchkU (ra : Reg)
  /-- PADD.K rd, ra, rb: all three name pairs (R147) -/
  | paddK (rd ra rb : Reg)
  /-- PADD.U rd, ra, rb: all three name pairs (R147) -/
  | paddU (rd ra rb : Reg)
  /-- PDBL.K rd, ra: both name pairs (R148) -/
  | pdblK (rd ra : Reg)
  /-- PDBL.U rd, ra: both name pairs (R148) -/
  | pdblU (rd ra : Reg)
  /-- SMUL.K rd, ra, rb: rd and rb name pairs, ra a single register with the scalar (R149) -/
  | smulK (rd ra rb : Reg)
  /-- SMUL.U rd, ra, rb: rd and rb name pairs, ra a single register with the scalar (R149) -/
  | smulU (rd ra rb : Reg)
  /-- LDROM rd, #idx (R175) -/
  | ldrom (rd : Reg) (idx : Fin 16)
deriving DecidableEq, Repr

end Sys2Proof
end

