-- ==== Sys2Proof/WellFormed.lean ====
section
/-! DEFINITION. The operand constraints of spec/30_encoding.md R94, R95 and R97 on a command as syntax: a field that names a
pair is even, and LDROM's index names a defined ROM entry. Everything else R97 asks is already in the shape of `Instr`. -/

namespace Sys2Proof

/-- `even(f) := f[0] = 0` of R98. -/
def Reg.even (r : Reg) : Bool := r.val % 2 == 0

/-- The operands of the command are ones its opcode row admits (R97). -/
def Instr.wellFormed : Instr → Bool
  | .modaddP _ _ _ => true
  | .modaddN _ _ _ => true
  | .modaddU _ _ _ => true
  | .modsubP _ _ _ => true
  | .modsubN _ _ _ => true
  | .modsubU _ _ _ => true
  | .montmulP _ _ _ => true
  | .montmulN _ _ _ => true
  | .montmulU _ _ _ => true
  | .pchkK ra => Reg.even ra
  | .pchkU ra => Reg.even ra
  | .paddK rd ra rb => Reg.even rd && Reg.even ra && Reg.even rb
  | .paddU rd ra rb => Reg.even rd && Reg.even ra && Reg.even rb
  | .pdblK rd ra => Reg.even rd && Reg.even ra
  | .pdblU rd ra => Reg.even rd && Reg.even ra
  | .smulK rd _ rb => Reg.even rd && Reg.even rb
  | .smulU rd _ rb => Reg.even rd && Reg.even rb
  | .ldrom _ idx => decide (idx.val ≤ 10)

end Sys2Proof
end

