-- ==== Sys2Proof/Decode.lean ====
section
/-! DEFINITION. The decoder of spec/30_encoding.md R98, total on every 32-bit word and rejecting by name, and after it the
encoder, written from R91, R92, R93 and R97. -/

namespace Sys2Proof

/-- Why a command word is Illegal (R100). Every one of them completes with ERR_ILLEGAL (R98); the names are the model's. -/
inductive DecodeError where
  /-- a bit of RSV (31:18) is 1 -/
  | reservedBits
  /-- OP is 0x0 or 0x9–0xF -/
  | operation
  /-- MSEL is 11 on a modular command -/
  | modulusSelect
  /-- MSEL is 01 or 11 on a point command -/
  | curveSelect
  /-- a field that names a pair is odd -/
  | oddPair
  /-- RD of PCHK, or RB of PCHK, PDBL or LDROM, or MSEL of LDROM is not 0 -/
  | unusedField
  /-- LDROM names a ROM entry 11–15 -/
  | romIndex
deriving DecidableEq, Repr

/-- OP, bits 3:0 (R91). -/
def opField (w : Word32) : Nat := (w.extractLsb' 0 4).toNat

/-- The register number in the four bits from `lo` up, zero-extended (R91, R94). -/
def regField (w : Word32) (lo : Nat) : Reg := (w.extractLsb' lo 4).toFin

/-- RD, bits 7:4 (R91). -/
def rdField (w : Word32) : Reg := regField w 4

/-- RA, and IDX of LDROM, bits 11:8 (R91, R95). -/
def raField (w : Word32) : Reg := regField w 8

/-- RB, bits 15:12 (R91). -/
def rbField (w : Word32) : Reg := regField w 12

/-- MSEL, bits 17:16 (R91). -/
def mselField (w : Word32) : Nat := (w.extractLsb' 16 2).toNat

/-- RSV, bits 31:18 (R91). -/
def rsvField (w : Word32) : Nat := (w.extractLsb' 18 14).toNat

/-- MSEL of a modular command chooses P, N or UMOD; 11 is illegal (R93). -/
def decodeModular (p n u : Instr) (msel : Nat) : Except DecodeError Instr :=
  match msel with
  | 0 => .ok p
  | 1 => .ok n
  | 2 => .ok u
  | _ => .error .modulusSelect

/-- MSEL of a point command chooses the curve K or U; 01 and 11 are illegal (R93). -/
def decodePoint (k u : Instr) (msel : Nat) : Except DecodeError Instr :=
  match msel with
  | 0 => .ok k
  | 2 => .ok u
  | _ => .error .curveSelect

/-- PCHK: RD = 0, RB = 0, RA even (R97, R98). -/
def decodePchk (w : Word32) : Except DecodeError Instr :=
  if rdField w ≠ 0 ∨ rbField w ≠ 0 then .error .unusedField
  else if Reg.even (raField w) = false then .error .oddPair
  else decodePoint (.pchkK (raField w)) (.pchkU (raField w)) (mselField w)

/-- PADD: RD, RA, RB even (R97, R98). -/
def decodePadd (w : Word32) : Except DecodeError Instr :=
  if (Reg.even (rdField w) && Reg.even (raField w) && Reg.even (rbField w)) = false then .error .oddPair
  else decodePoint (.paddK (rdField w) (raField w) (rbField w)) (.paddU (rdField w) (raField w) (rbField w)) (mselField w)

/-- PDBL: RD, RA even, RB = 0 (R97, R98). -/
def decodePdbl (w : Word32) : Except DecodeError Instr :=
  if rbField w ≠ 0 then .error .unusedField
  else if (Reg.even (rdField w) && Reg.even (raField w)) = false then .error .oddPair
  else decodePoint (.pdblK (rdField w) (raField w)) (.pdblU (rdField w) (raField w)) (mselField w)

/-- SMUL: RD, RB even, RA any (R97, R98). -/
def decodeSmul (w : Word32) : Except DecodeError Instr :=
  if (Reg.even (rdField w) && Reg.even (rbField w)) = false then .error .oddPair
  else decodePoint (.smulK (rdField w) (raField w) (rbField w)) (.smulU (rdField w) (raField w) (rbField w)) (mselField w)

/-- LDROM: IDX ≤ 10, RB = 0, MSEL = 00 (R97, R98). -/
def decodeLdrom (w : Word32) : Except DecodeError Instr :=
  if rbField w ≠ 0 ∨ mselField w ≠ 0 then .error .unusedField
  else if 10 < (raField w).val then .error .romIndex
  else .ok (.ldrom (rdField w) (raField w))

/-- `Decode` of R98. -/
def decode (w : Word32) : Except DecodeError Instr :=
  if rsvField w ≠ 0 then .error .reservedBits
  else
    match opField w with
    | 1 => decodeModular (.modaddP (rdField w) (raField w) (rbField w)) (.modaddN (rdField w) (raField w) (rbField w)) (.modaddU (rdField w) (raField w) (rbField w)) (mselField w)
    | 2 => decodeModular (.modsubP (rdField w) (raField w) (rbField w)) (.modsubN (rdField w) (raField w) (rbField w)) (.modsubU (rdField w) (raField w) (rbField w)) (mselField w)
    | 3 => decodeModular (.montmulP (rdField w) (raField w) (rbField w)) (.montmulN (rdField w) (raField w) (rbField w)) (.montmulU (rdField w) (raField w) (rbField w)) (mselField w)
    | 4 => decodePchk w
    | 5 => decodePadd w
    | 6 => decodePdbl w
    | 7 => decodeSmul w
    | 8 => decodeLdrom w
    | _ => .error .operation

/-- The command read from a row of spec/opcode_table.json: one word of 32 bits, bit n of the number being bit n of the bus word
(R65, R90; the block has no byte order inside a word). The bits from `nbits` up are 0. -/
def decodeTableWord (nbits w : Nat) : Option Instr :=
  match decode (BitVec.ofNat 32 (w % 2 ^ nbits)) with
  | .ok i => some i
  | .error _ => none

/-- The command word of R91 with RSV = 0. -/
def commandWord (op : BitVec 4) (rd ra rb : Reg) (msel : BitVec 2) : Word32 :=
  (0#14 ++ msel ++ BitVec.ofFin (w := 4) rb ++ BitVec.ofFin (w := 4) ra ++ BitVec.ofFin (w := 4) rd ++ op : BitVec (14 + 2 + 4 + 4 + 4 + 4))

/-- The word of a command: OP of R92, MSEL of R93, unused fields 0 (R96). -/
def encode : Instr → Word32
  | .modaddP rd ra rb => commandWord 0x1 rd ra rb 0b00
  | .modaddN rd ra rb => commandWord 0x1 rd ra rb 0b01
  | .modaddU rd ra rb => commandWord 0x1 rd ra rb 0b10
  | .modsubP rd ra rb => commandWord 0x2 rd ra rb 0b00
  | .modsubN rd ra rb => commandWord 0x2 rd ra rb 0b01
  | .modsubU rd ra rb => commandWord 0x2 rd ra rb 0b10
  | .montmulP rd ra rb => commandWord 0x3 rd ra rb 0b00
  | .montmulN rd ra rb => commandWord 0x3 rd ra rb 0b01
  | .montmulU rd ra rb => commandWord 0x3 rd ra rb 0b10
  | .pchkK ra => commandWord 0x4 0 ra 0 0b00
  | .pchkU ra => commandWord 0x4 0 ra 0 0b10
  | .paddK rd ra rb => commandWord 0x5 rd ra rb 0b00
  | .paddU rd ra rb => commandWord 0x5 rd ra rb 0b10
  | .pdblK rd ra => commandWord 0x6 rd ra 0 0b00
  | .pdblU rd ra => commandWord 0x6 rd ra 0 0b10
  | .smulK rd ra rb => commandWord 0x7 rd ra rb 0b00
  | .smulU rd ra rb => commandWord 0x7 rd ra rb 0b10
  | .ldrom rd idx => commandWord 0x8 rd idx 0 0b00

end Sys2Proof
end

