-- ==== Sys2Proof/Machine/State.lean ====
section
/-! DEFINITION. The machine's state as plain data: the architectural state of spec/10_state.md R45, the level of the hardware
reset input, and the environment's part of a run (the host's accesses to come, the order of the agents' turns, the values
read, the count of BUSY_READ draws). -/

namespace Sys2Proof.Machine

/-- The outcomes of a command (spec/60_exceptions.md R181). Codes 3, 4, 6 and 8 are reserved and no command raises them (R182). -/
inductive ErrorCode where
  /-- 0: success -/
  | none
  /-- 1: `Decode` returns Illegal -/
  | illegal
  /-- 2: an operand is not below the modulus -/
  | range
  /-- 3: reserved, never raised -/
  | domain
  /-- 4: reserved, never raised -/
  | curveMismatch
  /-- 5: an affine point operand fails the curve equation -/
  | notOnCurve
  /-- 6: reserved, never raised -/
  | divZero
  /-- 7: MSEL = 10 with UMOD even or below 3 -/
  | badMod
  /-- 8: reserved, never raised -/
  | internal
deriving DecidableEq, Repr

/-- Where a host access goes: an aperture offset, as every rule of the spec names it, or a bus address, of which BASE is
subtracted (spec/20_memory.md R60). -/
inductive BusAddr where
  | aperture (off : Nat)
  | absolute (addr : Nat)
deriving DecidableEq, Repr

/-- One step of the host's program (spec/30_encoding.md R103). `width` is the access's width in bytes; only 4 is admitted (R66). -/
inductive HostOp where
  /-- WR: a bus write -/
  | write (a : BusAddr) (width : Nat) (v : Word32)
  /-- RD: a bus read -/
  | read (a : BusAddr) (width : Nat)
  /-- WAIT: read STATUS again until bit 0 (BUSY) is 0 -/
  | wait
  /-- WR of the value last read, with the bits of `keep` kept and those of `set` set: the second access of LDG and of LDINF (R104) -/
  | writeBack (a : BusAddr) (keep set : Word32)
deriving DecidableEq, Repr

/-- Whose turn a step is (spec/00_scope.md R16, spec/70_reset_and_hazards.md R210). -/
inductive Turn where
  /-- the host makes its next access -/
  | host
  /-- the engine completes the pending command -/
  | engine
  /-- the platform asserts the hardware reset input -/
  | assertReset
  /-- the platform releases the hardware reset input -/
  | releaseReset
deriving DecidableEq, Repr

/-- The machine's state. -/
structure State where
  /-- r0–r15 (R20) -/
  x : Vector Word256 16
  /-- INF, bit k = INF[k] (R23) -/
  inf : BitVec 8
  /-- UMOD (R40) -/
  umod : Word256
  /-- UA (R40) -/
  ua : Word256
  /-- UB (R40) -/
  ub : Word256
  /-- CTRL.IE (R31) -/
  ie : Bool
  /-- STATUS.BUSY (R32) -/
  busy : Bool
  /-- STATUS.DONE (R32) -/
  done : Bool
  /-- STATUS.ERR (R32) -/
  err : Bool
  /-- STATUS.OVR (R32) -/
  ovr : Bool
  /-- STATUS.ERRCODE (R32, R181) -/
  errcode : BitVec 4
  /-- CMD_LAST, and PEND while BUSY = 1 (R36, R42) -/
  cmdLast : Word32
  /-- the level of the hardware reset input (R210, R213) -/
  rstIn : Bool
  /-- the model's own: the host's accesses to come, oldest first (R103) -/
  program : List HostOp
  /-- the model's own: the turns to come, oldest first (R16, R74) -/
  schedule : List Turn
  /-- the model's own: the values host reads returned, newest first (R61) -/
  reads : List Word32
  /-- the model's own: how many BUSY_READ values have been drawn (R68) -/
  draws : Nat
deriving DecidableEq, Repr

/-- The state after reset: every field of R211 at 0. The input is released and the environment holds nothing
(DESIGN CHOICE, log 7 and log 8). -/
def State.reset : State where
  x := Vector.replicate 16 0
  inf := 0
  umod := 0
  ua := 0
  ub := 0
  ie := false
  busy := false
  done := false
  err := false
  ovr := false
  errcode := 0
  cmdLast := 0
  rstIn := false
  program := []
  schedule := []
  reads := []
  draws := 0

/-- Why the machine stops with a fault. -/
inductive Fault where
  /-- A host access at a bus address outside the aperture (R60), which is no address of the block. Raised by `admitAccess`.
  Safe: the model stops where another device would answer (log 5). -/
  | outsideAperture
deriving DecidableEq, Repr

/-- Why the model admits no step. -/
inductive Refusal where
  /-- An instruction with no meaning yet. Raised by an arm of `exec`; no arm raises it. Safe. -/
  | notModelled (mnemonic : String)
  /-- An access of a width other than 32 bits (R66, I7). Raised by `admitAccess`. Safe: "the model refuses it". -/
  | accessWidth
  /-- An access at an offset that is no multiple of 4 (R66, I7). Raised by `admitAccess`. Safe: "the model refuses it". -/
  | accessMisaligned
  /-- A host access while the hardware reset input is asserted (R213, I8). Raised by `admitAccess`. Safe: "the model refuses it". -/
  | accessDuringReset
deriving DecidableEq, Repr

end Sys2Proof.Machine
end

