-- ==== Sys2Proof/Machine/Flags.lean ====
section
/-! DEFINITION. The error codes as numbers (spec/60_exceptions.md R181), the CTRL, STATUS and INF words as a host reads them
(spec/20_memory.md R67), the write-one-to-clear of STATUS (R32, R69) and the irq output (R44). -/

namespace Sys2Proof.Machine

/-- The number of an error code (R181). -/
def ErrorCode.code : ErrorCode → BitVec 4
  | .none => 0
  | .illegal => 1
  | .range => 2
  | .domain => 3
  | .curveMismatch => 4
  | .notOnCurve => 5
  | .divZero => 6
  | .badMod => 7
  | .internal => 8

/-- STATUS as read: zext_32(ERRCODE ‖ OVR ‖ ERR ‖ DONE ‖ BUSY) (R32, R67). -/
def State.statusWord (s : State) : Word32 :=
  (0#24 ++ s.errcode ++ BitVec.ofBool s.ovr ++ BitVec.ofBool s.err ++ BitVec.ofBool s.done ++ BitVec.ofBool s.busy : BitVec (24 + 4 + 1 + 1 + 1 + 1))

/-- CTRL as read: IE in bit 0, SRST and the reserved bits read 0 (R31, R67). -/
def State.ctrlWord (s : State) : Word32 := (BitVec.ofBool s.ie).zeroExtend 32

/-- INF as read: INF[7:0] in bits 7:0, the reserved bits read 0 (R35, R67). -/
def State.infWord (s : State) : Word32 := s.inf.zeroExtend 32

/-- A write of `v` to STATUS: bit 1 clears DONE, bit 2 clears ERR and ERRCODE, bit 3 clears OVR; the other bits of `v` are
ignored (R32, R69). -/
def State.clearStatus (s : State) (v : Word32) : State :=
  { s with
    done := s.done && !v.getLsbD 1
    err := s.err && !v.getLsbD 2
    errcode := if v.getLsbD 2 then 0 else s.errcode
    ovr := s.ovr && !v.getLsbD 3 }

/-- The completion flags of a command that raised nothing: BUSY ← 0, DONE ← 1, ERR ← 0, ERRCODE ← 0 (R186, R187). -/
def State.succeed (s : State) : State := { s with busy := false, done := true, err := false, errcode := 0 }

/-- `raise E`: BUSY ← 0, DONE ← 1, ERR ← 1, ERRCODE ← E, and nothing else (R183, R186). It is all there is of taking an
exception on this hardware (R192). -/
def State.raise (s : State) (e : ErrorCode) : State := { s with busy := false, done := true, err := true, errcode := e.code }

/-- The irq output, a level: `CTRL.IE ∧ STATUS.DONE` (R44, R190). -/
def State.irq (s : State) : Bool := s.ie && s.done

end Sys2Proof.Machine
end

