-- ==== Sys2Proof/Machine/Rom.lean ====
section
/-! DEFINITION. The secp256k1 parameter ROM of spec/42_rom.md R170: constant, and no state (R17, R41, R174). N, GX and GY are
general knowledge in the spec itself (R172, G1, G2; log 18). -/

namespace Sys2Proof.Machine

/-- `ROM[e]` (R170). Entries 11–15 are reserved and read 0 on the bus (R176). -/
def rom (e : Fin 16) : Word256 :=
  match e.val with
  | 0 => 0xFFFFFFFFFFFFFFFFFFFFFFFFFFFFFFFFFFFFFFFFFFFFFFFFFFFFFFFEFFFFFC2F
  | 1 => 0xFFFFFFFFFFFFFFFFFFFFFFFFFFFFFFFEBAAEDCE6AF48A03BBFD25E8CD0364141
  | 2 => 0
  | 3 => 7
  | 4 => 0x79BE667EF9DCBBAC55A06295CE870B07029BFCDB2DCE28D959F2815B16F81798
  | 5 => 0x483ADA7726A3C4655DA4FBFC0E1108A8FD17B448A68554199C47D08FFB10D4B8
  | 6 => 0x00000000000000000000000000000000000000000000000000000001000003D1
  | 7 => 0x000000000000000000000000000000000000000000000001000007A2000E90A1
  | 8 => 0x000000000000000000000000000000014551231950B75FC4402DA1732FC9BEBF
  | 9 => 0x9D671CD581C69BC5E697F5E45BCD07C6741496C20E7CF878896CF21467D7D140
  | 10 => 1
  | _ => 0

/-- P, the secp256k1 field prime: ROM entry 0 (R120, R171). -/
def primeP : Nat := (rom 0).toNat

/-- N, the secp256k1 group order: ROM entry 1 (R120, R172). -/
def orderN : Nat := (rom 1).toNat

/-- K = (P, 0, 7), the secp256k1 curve: ROM entries 0, 2 and 3 (R13, R140). -/
def curveK : Curve := ⟨(rom 0).toNat, (rom 2).toNat, (rom 3).toNat⟩

end Sys2Proof.Machine
end

