-- ==== Sys2Proof/Machine/Ops.lean ====
section
/-! DEFINITION. The named operations over the registers: operand registers, infinity flags and the words of a 256-bit value
(spec/20_memory.md R63); the command life cycle of spec/60_exceptions.md (acceptance R185, commit R188, completion R186, where
an error is taken by `State.raise`); and the reset of spec/70_reset_and_hazards.md R210–R212. -/

namespace Sys2Proof.Machine

/-- `x[i]` (R11, R20). No register is hardwired. -/
def State.reg (s : State) (i : Reg) : Word256 := s.x[i.val]

/-- `x[i] <- v` (R11). -/
def State.setReg (s : State) (i : Reg) (v : Word256) : State := { s with x := s.x.set i.val v }

/-- `INF[k]` (R11, R23). -/
def State.infFlag (s : State) (k : Pair) : Bool := s.inf.getLsbD k.val

/-- `INF` with bit k set to `b`. -/
def setInfBit (inf : BitVec 8) (k : Pair) (b : Bool) : BitVec 8 :=
  if b then inf ||| (1#8 <<< k.val) else inf &&& ~~~(1#8 <<< k.val)

/-- `INF[k] <- b` (R11). -/
def State.setInf (s : State) (k : Pair) (b : Bool) : State := { s with inf := setInfBit s.inf k b }

/-- The pair a register number names: `field div 2` (R94). -/
def pairOf (r : Reg) : Pair := ⟨r.val / 2, by omega⟩

/-- The register of a pair's x coordinate, r(2k) (R22). -/
def xReg (k : Pair) : Reg := ⟨2 * k.val, by omega⟩

/-- The register of a pair's y coordinate, r(2k+1) (R22). -/
def yReg (k : Pair) : Reg := ⟨2 * k.val + 1, by omega⟩

/-- Word j of a 256-bit value: `V[255 − 32·j : 224 − 32·j]`, word 0 the most significant (R63). -/
def getWord (v : Word256) (j : Fin 8) : Word32 := v.extractLsb' (224 - 32 * j.val) 32

/-- `V` with word j replaced; the other 224 bits stay (R63). -/
def setWord (v : Word256) (j : Fin 8) (w : Word32) : Word256 :=
  (v &&& ~~~((BitVec.allOnes 32).zeroExtend 256 <<< (224 - 32 * j.val))) ||| (w.zeroExtend 256 <<< (224 - 32 * j.val))

/-- What a command commits when it raises nothing: nothing (PCHK), one register, or a point to a pair (R24, R188). -/
inductive Writes where
  | nothing
  | register (rd : Reg) (v : Word256)
  | point (k : Pair) (q : Point)
deriving DecidableEq, Repr

/-- `WritePoint` of spec/41_point.md R145: ∞ writes 0 to both coordinates and sets INF[k]; an affine point writes its
coordinates and clears INF[k]. -/
def State.writePoint (s : State) (k : Pair) : Point → State
  | .infinity => ((s.setReg (xReg k) 0).setReg (yReg k) 0).setInf k true
  | .affine x y => ((s.setReg (xReg k) (BitVec.ofNat 256 x)).setReg (yReg k) (BitVec.ofNat 256 y)).setInf k false

/-- `commit`: all destination writes of a command at once (R11, R188). -/
def State.commit (s : State) : Writes → State
  | .nothing => s
  | .register rd v => s.setReg rd v
  | .point k q => s.writePoint k q

/-- `Complete()` of R186, given what the command's execution on this state answers. -/
def complete (s : State) : Except ErrorCode Writes → State
  | .ok w => (s.commit w).succeed
  | .error e => s.raise e

/-- `Accept(w)` of R185: CMD_LAST ← w, BUSY ← 1, DONE, ERR and ERRCODE ← 0; OVR and all else unchanged. -/
def accept (s : State) (w : Word32) : State :=
  { s with cmdLast := w, busy := true, done := false, err := false, errcode := 0 }

/-- A write dropped because BUSY = 1: OVR ← 1, and nothing else (R68, R189). -/
def overrun (s : State) : State := { s with ovr := true }

/-- `SoftReset()` of R210: every state of R211 at its reset value, a pending command aborted (R212). The hardware reset input
and the environment's part are not the block's state and stay. -/
def softReset (s : State) : State :=
  { State.reset with rstIn := s.rstIn, program := s.program, schedule := s.schedule, reads := s.reads, draws := s.draws }

end Sys2Proof.Machine
end

