-- ==== Sys2Proof/Machine/Bus.lean ====
section
/-! DEFINITION. The host bus of spec/20_memory.md: which accesses are admitted (R60, R66, R213), the address map (R62), reads
(R67) and writes (R69) by region, and the busy lock (R68). -/

namespace Sys2Proof.Machine

/-- The aperture offset of an access: `off = addr − BASE` in `[0x000, 0xFFF]` (R60). -/
def BusAddr.offset : BusAddr → Option Nat
  | .aperture off => if off < 4096 then some off else none
  | .absolute addr => if Config.base ≤ addr ∧ addr < Config.base + 4096 then some (addr - Config.base) else none

/-- The offset of an admitted access, or why there is no such step: only a 32-bit access at a multiple of 4 is admitted (R66,
I7), and none during an asserted hardware reset (R213, I8); an address outside the aperture is no address of the block (log 5). -/
def admitAccess (s : State) (a : BusAddr) (width : Nat) : Host.Outcome Nat Fault Refusal :=
  if s.rstIn then .refused .accessDuringReset
  else
    match a.offset with
    | none => .fault .outsideAperture
    | some off =>
      if width ≠ 4 then .refused .accessWidth
      else if off % 4 ≠ 0 then .refused .accessMisaligned
      else .next off

/-- The regions of the address map (R62). `rom` and `reserved` ignore writes; `inf`, `reg`, `umod`, `ua` and `ub` are busy-locked. -/
inductive Region where
  | id
  | ctrl
  | status
  | cmd
  | inf
  | reg (i : Reg) (j : Fin 8)
  | umod (j : Fin 8)
  | ua (j : Fin 8)
  | ub (j : Fin 8)
  | rom (e : Fin 16) (j : Fin 8)
  | reserved
deriving DecidableEq, Repr

/-- Word j of a 256-bit value: `((off − S) mod 32) div 4` with S a multiple of 32 (R63, R67). -/
def wordIndex (off : Nat) : Fin 8 := ⟨off % 32 / 4, by omega⟩

/-- The address map of R62 at a word offset. -/
def regionOf (off : Nat) : Region :=
  if off = 0x000 then .id
  else if off = 0x004 then .ctrl
  else if off = 0x008 then .status
  else if off = 0x00C then .cmd
  else if off = 0x010 then .inf
  else if 0x100 ≤ off ∧ off ≤ 0x2FC then .reg (Fin.ofNat 16 ((off - 0x100) / 32)) (wordIndex off)
  else if 0x300 ≤ off ∧ off ≤ 0x31C then .umod (wordIndex off)
  else if 0x320 ≤ off ∧ off ≤ 0x33C then .ua (wordIndex off)
  else if 0x340 ≤ off ∧ off ≤ 0x35C then .ub (wordIndex off)
  else if 0x400 ≤ off ∧ off ≤ 0x5FC then .rom (Fin.ofNat 16 ((off - 0x400) / 32)) (wordIndex off)
  else .reserved

/-- The busy-locked column of R62: INF, r0–r15, UMOD, UA, UB. -/
def Region.locked : Region → Bool
  | .id => false
  | .ctrl => false
  | .status => false
  | .cmd => false
  | .inf => true
  | .reg _ _ => true
  | .umod _ => true
  | .ua _ => true
  | .ub _ => true
  | .rom _ _ => false
  | .reserved => false

/-- The ID constant (R33). -/
def idWord : Word32 := 0x4D4D0100

/-- The word a read of a region returns when the region is not locked (R67). -/
def regionWord (s : State) : Region → Word32
  | .id => idWord
  | .ctrl => s.ctrlWord
  | .status => s.statusWord
  | .cmd => s.cmdLast
  | .inf => s.infWord
  | .reg i j => getWord (s.reg i) j
  | .umod j => getWord s.umod j
  | .ua j => getWord s.ua j
  | .ub j => getWord s.ub j
  | .rom e j => getWord (Sys2Proof.Machine.rom e) j
  | .reserved => 0

/-- The effect of a write that is not dropped (R69). A CMD write while BUSY = 1 is dropped as a locked write is (R34). -/
def regionWrite (s : State) (v : Word32) : Region → State
  | .id => s
  | .ctrl => if v.getLsbD 1 then softReset s else { s with ie := v.getLsbD 0 }
  | .status => s.clearStatus v
  | .cmd => if s.busy then overrun s else accept s v
  | .inf => { s with inf := v.extractLsb' 0 8 }
  | .reg i j => s.setReg i (setWord (s.reg i) j v)
  | .umod j => { s with umod := setWord s.umod j v }
  | .ua j => { s with ua := setWord s.ua j v }
  | .ub j => { s with ub := setWord s.ub j v }
  | .rom _ _ => s
  | .reserved => s

/-- `MemRead(off, 4)`: the word and the state after. A read of a locked region while BUSY = 1 draws BUSY_READ and counts the
draw (R67, R68; log 2). -/
def memRead (s : State) (off : Nat) : Word32 × State :=
  if s.busy && (regionOf off).locked then (Config.busyRead s.draws, { s with draws := s.draws + 1 })
  else (regionWord s (regionOf off), s)

/-- `MemWrite(off, 4, v)`: a write to a locked region while BUSY = 1 is dropped and sets OVR (R68, R69). -/
def memWrite (s : State) (off : Nat) (v : Word32) : State :=
  if s.busy && (regionOf off).locked then overrun s
  else regionWrite s v (regionOf off)

end Sys2Proof.Machine
end

