-- ==== Sys2Proof/Machine/Field.lean ====
section
/-! DEFINITION. The exact arithmetic of spec/40_modular.md: the sums, differences and products of R123, R124 and R127, the
Montgomery product of R125, field division of R126, and primality for spec/41_point.md R154. Values are natural numbers; the
commands narrow them to 256 bits at the end. -/

namespace Sys2Proof.Machine

/-- `FAdd(m, u, v) = (u + v) mod m` (R123, R127). -/
def fAdd (m u v : Nat) : Nat := (u + v) % m

/-- `FSub(m, u, v) = (u − v) mod m`, the floor modulus over the integers (R10, R124, R127). -/
def fSub (m u v : Nat) : Nat := (((u : Int) - (v : Int)) % (m : Int)).toNat

/-- `FMul(m, u, v) = (u · v) mod m` (R127). -/
def fMul (m u v : Nat) : Nat := u * v % m

/-- `FMulk(m, u, k) = (u · k) mod m`, k a small constant (R127). -/
def fMulk (m u k : Nat) : Nat := u * k % m

/-- Square and multiply over the lowest `n` bits of `e`: `acc · b^e mod m` for `e < 2^n`. -/
def powLoop (m : Nat) : Nat → Nat → Nat → Nat → Nat
  | 0, _, _, acc => acc
  | n + 1, b, e, acc => powLoop m n (b * b % m) (e / 2) (if e % 2 = 1 then acc * b % m else acc)

/-- `b^e mod m` for an exponent of at most 256 bits, "by any exact method" (R126; log 11). -/
def powMod (m b e : Nat) : Nat := powLoop m 256 (b % m) e (1 % m)

/-- `FieldDiv(m, u, v) = (u · v^(m−2)) mod m`, PBJS's Fermat formula, also for a composite m (R126, I16). -/
def fieldDiv (m u v : Nat) : Nat := u * powMod m v (m - 2) % m

/-- The Montgomery radix R = 2^256 (R6, R125, D8). -/
def montRadix : Nat := 2 ^ 256

/-- `Rinv`, the integer in `[1, m)` with `R · Rinv mod m = 1`, for odd m (R125). It is computed as the 256th power of
(m + 1)/2, which is the inverse of 2 modulo an odd m (DEDUCED, log 10). -/
def rInv (m : Nat) : Nat := powMod m ((m + 1) / 2) 256

/-- The Montgomery product `a · b · R⁻¹ mod m`, fully reduced (R125). -/
def montMul (m a b : Nat) : Nat := a * b * rInv m % m

/-- Trial division from `d` up: no divisor `d` with `d·d ≤ m`. The first argument bounds the trials; `m` of them are enough. -/
def noDivisorFrom (m : Nat) : Nat → Nat → Bool
  | 0, _ => true
  | n + 1, d => if m < d * d then true else if m % d = 0 then false else noDivisorFrom m n (d + 1)

/-- "m is prime" of R154, by trial division (DEDUCED, log 13). -/
abbrev IsPrime (m : Nat) : Prop := 2 ≤ m ∧ noDivisorFrom m m 2 = true

end Sys2Proof.Machine
end

