-- ==== Sys2Proof/Machine/Group.lean ====
section
/-! DEFINITION. The group law and scalar multiplication of spec/41_point.md: curve membership (R13, R143), GroupAdd (R144),
DoubleAndAdd (R150), the well-formed user curve (R154) and SMUL_UNDEF with its bound (R153). -/

namespace Sys2Proof.Machine

/-- `OnCurve(C, x, y) := (y² − (x³ + a·x + b)) mod m = 0` (R13, R143). -/
abbrev onCurve (c : Curve) (x y : Nat) : Prop :=
  ((y : Int) * y - ((x : Int) * x * x + (c.a : Int) * x + c.b)) % (c.m : Int) = 0

/-- Case 4 of R144, the chord through two points with `x1 ≠ x2`. -/
def chord (m x1 y1 x2 y2 : Nat) : Point :=
  let s := fieldDiv m (fSub m y2 y1) (fSub m x2 x1)
  let x3 := fSub m (fSub m (fMul m s s) x1) x2
  .affine x3 (fSub m (fMul m s (fSub m x1 x3)) y1)

/-- Case 6 of R144, the tangent at a point with `y1 ≠ 0`. -/
def tangent (m a x1 y1 : Nat) : Point :=
  let s := fieldDiv m (fAdd m (fMulk m (fMul m x1 x1) 3) a) (fMulk m y1 2)
  let x3 := fSub m (fMul m s s) (fMulk m x1 2)
  .affine x3 (fSub m (fMul m s (fSub m x1 x3)) y1)

/-- `GroupAdd` of R144: its six cases in order of precedence. -/
def groupAdd (c : Curve) : Point → Point → Point
  | .infinity, q => q
  | .affine x1 y1, .infinity => .affine x1 y1
  | .affine x1 y1, .affine x2 y2 =>
    if x1 = x2 ∧ y1 ≠ y2 then .infinity
    else if x1 ≠ x2 then chord c.m x1 y1 x2 y2
    else if y1 = 0 then .infinity
    else tangent c.m c.a x1 y1

/-- The while loop of R150, for a scalar of at most `n` bits: `n` bounds the iterations (log 12). -/
def doubleAndAddLoop (c : Curve) : Nat → Nat → Point → Point → Point
  | 0, _, result, _ => result
  | n + 1, k, result, current =>
    if k = 0 then result
    else doubleAndAddLoop c n (k / 2) (if k % 2 = 1 then groupAdd c result current else result) (groupAdd c current current)

/-- `DoubleAndAdd(C, k, Q)` of R150, for a scalar of at most 256 bits. -/
def doubleAndAdd (c : Curve) (k : Nat) (q : Point) : Point := doubleAndAddLoop c 256 k .infinity q

/-- `WellFormed((m, a, b))` of R154. -/
abbrev wellFormedCurve (c : Curve) : Prop := IsPrime c.m ∧ (4 * c.a ^ 3 + 27 * c.b ^ 2) % c.m ≠ 0

/-- The coordinates of a point reduced into `[0, m)`. -/
def reducePoint (m : Nat) : Point → Point
  | .infinity => .infinity
  | .affine x y => .affine (x % m) (y % m)

/-- `SMUL_UNDEF(U, k', Q)` of R153: some point, ∞ or with coordinates in `[0, UMOD)`; which one is free (log 3). -/
def smulUndef (c : Curve) (k : Nat) (q : Point) : Point := reducePoint c.m (Config.smulUndefValue c k q)

end Sys2Proof.Machine
end

