-- ==== Sys2Proof/Machine/Operands.lean ====
section
/-! DEFINITION. The operand forms of every command, with their checks in the order of spec/60_exceptions.md R184: modulus
selection (spec/40_modular.md R120, R121), modular sources (R122), curve selection (spec/41_point.md R140, R142) and point
operands (R143). -/

namespace Sys2Proof.Machine

/-- "UMOD[0] = 0 ∨ UMOD < 3", the user-modulus check of R121 and R142. -/
abbrev badModulus (m : Word256) : Prop := m.getLsbD 0 = false ∨ m.toNat < 3

/-- `ModOf(MSEL)` with the check of R121 (R120). -/
def modulusOf (sel : ModSel) (s : State) : Except ErrorCode Nat :=
  match sel with
  | .p => .ok primeP
  | .n => .ok orderN
  | .u => if badModulus s.umod then .error .badMod else .ok s.umod.toNat

/-- A modular command (R120–R125): choose the modulus, check both sources in order, compute, and commit one register. -/
def modular (sel : ModSel) (op : Nat → Nat → Nat → Nat) (rd ra rb : Reg) (s : State) : Except ErrorCode Writes :=
  match modulusOf sel s with
  | .error e => .error e
  | .ok m =>
    if m ≤ (s.reg ra).toNat then .error .range
    else if m ≤ (s.reg rb).toNat then .error .range
    else .ok (.register rd (BitVec.ofNat 256 (op m (s.reg ra).toNat (s.reg rb).toNat)))

/-- `CurveOf(MSEL)` with the checks of R142 (R140). -/
def curveOf (sel : CurveSel) (s : State) : Except ErrorCode Curve :=
  match sel with
  | .k => .ok curveK
  | .u =>
    if badModulus s.umod then .error .badMod
    else if s.umod.toNat ≤ s.ua.toNat then .error .range
    else if s.umod.toNat ≤ s.ub.toNat then .error .range
    else .ok ⟨s.umod.toNat, s.ua.toNat, s.ub.toNat⟩

/-- `ReadPoint(C, r)` of R143, for the pair k = r div 2. -/
def readPoint (c : Curve) (k : Pair) (s : State) : Except ErrorCode Point :=
  if s.infFlag k then .ok .infinity
  else if c.m ≤ (s.reg (xReg k)).toNat then .error .range
  else if c.m ≤ (s.reg (yReg k)).toNat then .error .range
  else if onCurve c (s.reg (xReg k)).toNat (s.reg (yReg k)).toNat then
    .ok (.affine (s.reg (xReg k)).toNat (s.reg (yReg k)).toNat)
  else .error .notOnCurve

/-- A point command with one point operand: choose the curve, read the pair, and go on (R146, R148, R149). -/
def withPoint (sel : CurveSel) (r : Reg) (s : State) (next : Curve → Point → Writes) : Except ErrorCode Writes :=
  match curveOf sel s with
  | .error e => .error e
  | .ok c =>
    match readPoint c (pairOf r) s with
    | .error e => .error e
    | .ok q => .ok (next c q)

/-- A point command with two point operands: every check on ra's pair precedes every check on rb's (R147, R184). -/
def withPoints (sel : CurveSel) (ra rb : Reg) (s : State) (next : Curve → Point → Point → Writes) : Except ErrorCode Writes :=
  match curveOf sel s with
  | .error e => .error e
  | .ok c =>
    match readPoint c (pairOf ra) s with
    | .error e => .error e
    | .ok p1 =>
      match readPoint c (pairOf rb) s with
      | .error e => .error e
      | .ok p2 => .ok (next c p1 p2)

end Sys2Proof.Machine
end

