-- ==== Sys2Proof/Machine/Modular.lean ====
section
/-! DEFINITION. The modular commands of spec/40_modular.md: MODADD (R123), MODSUB (R124) and MONTMUL (R125), each for the
moduli P, N and UMOD. Each is the completion step of its command. -/

namespace Sys2Proof.Machine

/-- MODADD.P (R123). -/
def execModaddP (rd ra rb : Reg) (s : State) : Host.Outcome State Fault Refusal :=
  .next (complete s (modular .p fAdd rd ra rb s))

/-- MODADD.N (R123). -/
def execModaddN (rd ra rb : Reg) (s : State) : Host.Outcome State Fault Refusal :=
  .next (complete s (modular .n fAdd rd ra rb s))

/-- MODADD.U (R123). -/
def execModaddU (rd ra rb : Reg) (s : State) : Host.Outcome State Fault Refusal :=
  .next (complete s (modular .u fAdd rd ra rb s))

/-- MODSUB.P (R124). -/
def execModsubP (rd ra rb : Reg) (s : State) : Host.Outcome State Fault Refusal :=
  .next (complete s (modular .p fSub rd ra rb s))

/-- MODSUB.N (R124). -/
def execModsubN (rd ra rb : Reg) (s : State) : Host.Outcome State Fault Refusal :=
  .next (complete s (modular .n fSub rd ra rb s))

/-- MODSUB.U (R124). -/
def execModsubU (rd ra rb : Reg) (s : State) : Host.Outcome State Fault Refusal :=
  .next (complete s (modular .u fSub rd ra rb s))

/-- MONTMUL.P (R125). -/
def execMontmulP (rd ra rb : Reg) (s : State) : Host.Outcome State Fault Refusal :=
  .next (complete s (modular .p montMul rd ra rb s))

/-- MONTMUL.N (R125). -/
def execMontmulN (rd ra rb : Reg) (s : State) : Host.Outcome State Fault Refusal :=
  .next (complete s (modular .n montMul rd ra rb s))

/-- MONTMUL.U (R125). -/
def execMontmulU (rd ra rb : Reg) (s : State) : Host.Outcome State Fault Refusal :=
  .next (complete s (modular .u montMul rd ra rb s))

end Sys2Proof.Machine
end

