-- ==== Sys2Proof/Machine/Points.lean ====
section
/-! DEFINITION. The point commands of spec/41_point.md: PCHK (R146), PADD (R147), PDBL (R148) and SMUL (R149), each for the
curves K and U. Each is the completion step of its command. -/

namespace Sys2Proof.Machine

/-- PCHK: the checks of the pair, and no write (R146). -/
def pointCheck (sel : CurveSel) (ra : Reg) (s : State) : Except ErrorCode Writes :=
  withPoint sel ra s fun _ _ => .nothing

/-- PADD: pair rd ← GroupAdd(C, pair ra, pair rb) (R147). -/
def pointAdd (sel : CurveSel) (rd ra rb : Reg) (s : State) : Except ErrorCode Writes :=
  withPoints sel ra rb s fun c p1 p2 => .point (pairOf rd) (groupAdd c p1 p2)

/-- PDBL: pair rd ← GroupAdd(C, Q, Q) (R148). -/
def pointDouble (sel : CurveSel) (rd ra : Reg) (s : State) : Except ErrorCode Writes :=
  withPoint sel ra s fun c q => .point (pairOf rd) (groupAdd c q q)

/-- The value of SMUL (R149): on K the scalar is first reduced modulo N (R151); on U it is DoubleAndAdd where the curve is
well-formed, else the open SMUL_UNDEF (R152, R153). -/
def smulValue (sel : CurveSel) (c : Curve) (k : Nat) (q : Point) : Point :=
  match sel with
  | .k => doubleAndAdd c (k % orderN) q
  | .u => if wellFormedCurve c then doubleAndAdd c k q else smulUndef c k q

/-- SMUL: pair rd ← x[ra] · pair rb; only the point is checked, never the scalar (R149, R184). -/
def scalarMul (sel : CurveSel) (rd ra rb : Reg) (s : State) : Except ErrorCode Writes :=
  withPoint sel rb s fun c q => .point (pairOf rd) (smulValue sel c (s.reg ra).toNat q)

/-- PCHK.K (R146). -/
def execPchkK (ra : Reg) (s : State) : Host.Outcome State Fault Refusal := .next (complete s (pointCheck .k ra s))

/-- PCHK.U (R146). -/
def execPchkU (ra : Reg) (s : State) : Host.Outcome State Fault Refusal := .next (complete s (pointCheck .u ra s))

/-- PADD.K (R147). -/
def execPaddK (rd ra rb : Reg) (s : State) : Host.Outcome State Fault Refusal := .next (complete s (pointAdd .k rd ra rb s))

/-- PADD.U (R147). -/
def execPaddU (rd ra rb : Reg) (s : State) : Host.Outcome State Fault Refusal := .next (complete s (pointAdd .u rd ra rb s))

/-- PDBL.K (R148). -/
def execPdblK (rd ra : Reg) (s : State) : Host.Outcome State Fault Refusal := .next (complete s (pointDouble .k rd ra s))

/-- PDBL.U (R148). -/
def execPdblU (rd ra : Reg) (s : State) : Host.Outcome State Fault Refusal := .next (complete s (pointDouble .u rd ra s))

/-- SMUL.K (R149). -/
def execSmulK (rd ra rb : Reg) (s : State) : Host.Outcome State Fault Refusal := .next (complete s (scalarMul .k rd ra rb s))

/-- SMUL.U (R149). -/
def execSmulU (rd ra rb : Reg) (s : State) : Host.Outcome State Fault Refusal := .next (complete s (scalarMul .u rd ra rb s))

end Sys2Proof.Machine
end

