-- ==== Sys2Proof/Machine/RomLoad.lean ====
section
/-! DEFINITION. LDROM of spec/42_rom.md R175. -/

namespace Sys2Proof.Machine

/-- LDROM: x[rd] ← ROM[IDX]; no operand is read, no INF bit written (R175, D33). -/
def execLdrom (rd : Reg) (idx : Fin 16) (s : State) : Host.Outcome State Fault Refusal :=
  .next (complete s (.ok (.register rd (rom idx))))

end Sys2Proof.Machine
end

