-- ==== Sys2Proof/Machine/Dispatch.lean ====
section
/-! DEFINITION. `Execute` and its commit for each command (spec/60_exceptions.md R186): one arm per constructor. -/

namespace Sys2Proof.Machine

def exec (i : Instr) (s : State) : Host.Outcome State Fault Refusal :=
  match i with
  | .modaddP rd ra rb => Sys2Proof.Machine.execModaddP rd ra rb s
  | .modaddN rd ra rb => Sys2Proof.Machine.execModaddN rd ra rb s
  | .modaddU rd ra rb => Sys2Proof.Machine.execModaddU rd ra rb s
  | .modsubP rd ra rb => Sys2Proof.Machine.execModsubP rd ra rb s
  | .modsubN rd ra rb => Sys2Proof.Machine.execModsubN rd ra rb s
  | .modsubU rd ra rb => Sys2Proof.Machine.execModsubU rd ra rb s
  | .montmulP rd ra rb => Sys2Proof.Machine.execMontmulP rd ra rb s
  | .montmulN rd ra rb => Sys2Proof.Machine.execMontmulN rd ra rb s
  | .montmulU rd ra rb => Sys2Proof.Machine.execMontmulU rd ra rb s
  | .pchkK ra => Sys2Proof.Machine.execPchkK ra s
  | .pchkU ra => Sys2Proof.Machine.execPchkU ra s
  | .paddK rd ra rb => Sys2Proof.Machine.execPaddK rd ra rb s
  | .paddU rd ra rb => Sys2Proof.Machine.execPaddU rd ra rb s
  | .pdblK rd ra => Sys2Proof.Machine.execPdblK rd ra s
  | .pdblU rd ra => Sys2Proof.Machine.execPdblU rd ra s
  | .smulK rd ra rb => Sys2Proof.Machine.execSmulK rd ra rb s
  | .smulU rd ra rb => Sys2Proof.Machine.execSmulU rd ra rb s
  | .ldrom rd idx => Sys2Proof.Machine.execLdrom rd idx s

end Sys2Proof.Machine
end

