-- ==== Sys2Proof/Machine/Turns.lean ====
section
/-! DEFINITION. What each agent does in its turn (spec/00_scope.md R16): the host makes one access, the engine completes the
pending command, the platform moves the hardware reset input. -/

namespace Sys2Proof.Machine

/-- One host read: the value goes to the host, which keeps it in `reads` (R61, R67). -/
def hostRead (s : State) (a : BusAddr) (width : Nat) : Host.Outcome State Fault Refusal :=
  match admitAccess s a width with
  | .fault r => .fault r
  | .refused r => .refused r
  | .next off => .next { (memRead s off).2 with reads := (memRead s off).1 :: s.reads }

/-- One host write (R61, R69). -/
def hostWrite (s : State) (a : BusAddr) (width : Nat) (v : Word32) : Host.Outcome State Fault Refusal :=
  match admitAccess s a width with
  | .fault r => .fault r
  | .refused r => .refused r
  | .next off => .next (memWrite s off v)

/-- The value the host read last; 0 before its first read (log 9). -/
def State.lastRead (s : State) : Word32 := s.reads.headD 0

/-- One step of the host's program (R103), `rest` being what is left of it. WAIT reads STATUS and stays in the program while
the BUSY bit it read is 1. -/
def hostOp (s : State) (rest : List HostOp) : HostOp → Host.Outcome State Fault Refusal
  | .write a width v => hostWrite { s with program := rest } a width v
  | .read a width => hostRead { s with program := rest } a width
  | .wait => hostRead { s with program := if s.statusWord.getLsbD 0 then s.program else rest } (.aperture 0x008) 4
  | .writeBack a keep set => hostWrite { s with program := rest } a 4 ((s.lastRead &&& keep) ||| set)

/-- The host's turn: its next access; nothing when its program has ended (R227). -/
def hostTurn (s : State) : Host.Outcome State Fault Refusal :=
  match s.program with
  | [] => .next s
  | op :: rest => hostOp s rest op

/-- `Complete()` of R186 on the pending command: an Illegal word completes with ERR_ILLEGAL and no other effect (R98). -/
def completePending (s : State) : Host.Outcome State Fault Refusal :=
  match decode s.cmdLast with
  | .ok i => exec i s
  | .error _ => .next (complete s (.error .illegal))

/-- The engine's turn: it completes the pending command while BUSY = 1, and has nothing to do else (R186). -/
def engineTurn (s : State) : Host.Outcome State Fault Refusal :=
  if s.busy then completePending s else .next s

/-- The platform asserts the hardware reset input: the reset, in one step (R210, R213). -/
def assertTurn (s : State) : Host.Outcome State Fault Refusal := .next { softReset s with rstIn := true }

/-- The platform releases the hardware reset input (R213). -/
def releaseTurn (s : State) : Host.Outcome State Fault Refusal := .next { s with rstIn := false }

/-- The step of the agent whose turn it is. -/
def takeTurn (s : State) : Turn → Host.Outcome State Fault Refusal
  | .host => hostTurn s
  | .engine => engineTurn s
  | .assertReset => assertTurn s
  | .releaseReset => releaseTurn s

/-- The turn to take when the schedule is used up: a busy engine completes, so that every accepted command completes after a
finite time (R226, log 1); else the host goes on. -/
def State.defaultTurn (s : State) : Turn := if s.busy then .engine else .host

end Sys2Proof.Machine
end

