-- ==== Sys2Proof/Machine/Step.lean ====
section
/-! DEFINITION. One step of the machine: the next turn of the schedule, in one total order (spec/20_memory.md R74). -/

namespace Sys2Proof.Machine

/-- One step: the turn the schedule names next, or the default turn when the schedule is used up. -/
def step (s : State) : Host.Outcome State Fault Refusal :=
  match s.schedule with
  | [] => takeTurn s s.defaultTurn
  | t :: ts => takeTurn { s with schedule := ts } t

/-- The state right after the acceptance of the command word `w` (R185), with the engine's turn next and the reset input
released: the next step is the completion of that command (log 8). -/
def State.withFetchWord (s : State) (nbits w : Nat) : State :=
  { accept s (BitVec.ofNat 32 (w % 2 ^ nbits)) with rstIn := false, schedule := .engine :: s.schedule }

end Sys2Proof.Machine
end

