-- ==== Sys2Proof/Machine/Asm.lean ====
section
/-! DEFINITION. The assembler's side of spec/30_encoding.md: mnemonics and operands as text (R102), the host-program steps
(R103) and the expansions of the pseudo-instructions (R104). The block sees only what these expand to. -/

namespace Sys2Proof

open Machine

/-- The word of a command, refused where an operand is one its row does not allow (R102: "refuses an odd pair register"). -/
def assemble (i : Instr) : Option Word32 := if i.wellFormed then some (encode i) else none

/-- The mnemonic with its suffix (R93, R102). -/
def Instr.mnemonic : Instr → String
  | .modaddP _ _ _ => "MODADD.P"
  | .modaddN _ _ _ => "MODADD.N"
  | .modaddU _ _ _ => "MODADD.U"
  | .modsubP _ _ _ => "MODSUB.P"
  | .modsubN _ _ _ => "MODSUB.N"
  | .modsubU _ _ _ => "MODSUB.U"
  | .montmulP _ _ _ => "MONTMUL.P"
  | .montmulN _ _ _ => "MONTMUL.N"
  | .montmulU _ _ _ => "MONTMUL.U"
  | .pchkK _ => "PCHK.K"
  | .pchkU _ => "PCHK.U"
  | .paddK _ _ _ => "PADD.K"
  | .paddU _ _ _ => "PADD.U"
  | .pdblK _ _ => "PDBL.K"
  | .pdblU _ _ => "PDBL.U"
  | .smulK _ _ _ => "SMUL.K"
  | .smulU _ _ _ => "SMUL.U"
  | .ldrom _ _ => "LDROM"

/-- A register's name, r0–r15 (R102). -/
def regName (r : Reg) : String := "r" ++ toString r.val

/-- The assembler names of the ROM entries (R102, R170); a reserved entry has none. -/
def romName (e : Fin 16) : Option String := ["#P", "#N", "#A", "#B", "#GX", "#GY", "#RP", "#R2P", "#RN", "#R2N", "#ONE"][e.val]?

/-- The operands as text, destination first (R102). -/
def Instr.operands : Instr → String
  | .modaddP rd ra rb => regName rd ++ ", " ++ regName ra ++ ", " ++ regName rb
  | .modaddN rd ra rb => regName rd ++ ", " ++ regName ra ++ ", " ++ regName rb
  | .modaddU rd ra rb => regName rd ++ ", " ++ regName ra ++ ", " ++ regName rb
  | .modsubP rd ra rb => regName rd ++ ", " ++ regName ra ++ ", " ++ regName rb
  | .modsubN rd ra rb => regName rd ++ ", " ++ regName ra ++ ", " ++ regName rb
  | .modsubU rd ra rb => regName rd ++ ", " ++ regName ra ++ ", " ++ regName rb
  | .montmulP rd ra rb => regName rd ++ ", " ++ regName ra ++ ", " ++ regName rb
  | .montmulN rd ra rb => regName rd ++ ", " ++ regName ra ++ ", " ++ regName rb
  | .montmulU rd ra rb => regName rd ++ ", " ++ regName ra ++ ", " ++ regName rb
  | .pchkK ra => regName ra
  | .pchkU ra => regName ra
  | .paddK rd ra rb => regName rd ++ ", " ++ regName ra ++ ", " ++ regName rb
  | .paddU rd ra rb => regName rd ++ ", " ++ regName ra ++ ", " ++ regName rb
  | .pdblK rd ra => regName rd ++ ", " ++ regName ra
  | .pdblU rd ra => regName rd ++ ", " ++ regName ra
  | .smulK rd ra rb => regName rd ++ ", " ++ regName ra ++ ", " ++ regName rb
  | .smulU rd ra rb => regName rd ++ ", " ++ regName ra ++ ", " ++ regName rb
  | .ldrom rd idx => regName rd ++ ", " ++ (romName idx).getD ("#" ++ toString idx.val)

/-- A command as one line of R102. -/
def Instr.text (i : Instr) : String := i.mnemonic ++ " " ++ i.operands

/-- WR off, v (R103). -/
def wrWord (off : Nat) (v : Word32) : HostOp := .write (.aperture off) 4 v

/-- RD off (R103). -/
def rdWord (off : Nat) : HostOp := .read (.aperture off) 4

/-- The first offset of an operand register's region: `S = 0x100 + 32·i` (R63). -/
def regOffset (i : Reg) : Nat := 0x100 + 32 * i.val

/-- The first offset of a ROM entry's region: `S = 0x400 + 32·e` (R63). -/
def romOffset (e : Fin 16) : Nat := 0x400 + 32 * e.val

/-- WR256: the eight words of V, most significant first, at S, S+4, …, S+28 (R103). -/
def wr256 (base : Nat) (v : Word256) : List HostOp :=
  (List.range 8).map fun j => wrWord (base + 4 * j) (v.extractLsb' (224 - 32 * j) 32)

/-- RD256: the eight words at S, S+4, …, S+28 (R103). -/
def rd256 (base : Nat) : List HostOp := (List.range 8).map fun j => rdWord (base + 4 * j)

/-- The value the last eight reads spell, most significant word first (R103 RD256); `reads` is newest first. -/
def assembled (reads : List Word32) : Nat := ((reads.take 8).reverse).foldl (fun acc w => acc * 2 ^ 32 + w.toNat) 0

/-- CMD of a word, followed by WAIT as every CMD of a program in the spec is (R103). -/
def cmdWord (w : Word32) : List HostOp := [wrWord 0x00C w, .wait]

/-- CMD of a command, followed by WAIT (R103). -/
def cmd (i : Instr) : List HostOp := cmdWord (encode i)

/-- MONTMUL with suffix s. -/
def montmulOf : ModSel → Reg → Reg → Reg → Instr
  | .p => .montmulP
  | .n => .montmulN
  | .u => .montmulU

/-- MODADD with suffix s. -/
def modaddOf : ModSel → Reg → Reg → Reg → Instr
  | .p => .modaddP
  | .n => .modaddN
  | .u => .modaddU

/-- MODSUB with suffix s. -/
def modsubOf : ModSel → Reg → Reg → Reg → Instr
  | .p => .modsubP
  | .n => .modsubN
  | .u => .modsubU

/-- PCHK with suffix c. -/
def pchkOf : CurveSel → Reg → Instr
  | .k => .pchkK
  | .u => .pchkU

/-- PADD with suffix c. -/
def paddOf : CurveSel → Reg → Reg → Reg → Instr
  | .k => .paddK
  | .u => .paddU

/-- PDBL with suffix c. -/
def pdblOf : CurveSel → Reg → Reg → Instr
  | .k => .pdblK
  | .u => .pdblU

/-- SMUL with suffix c. -/
def smulOf : CurveSel → Reg → Reg → Reg → Instr
  | .k => .smulK
  | .u => .smulU

/-- MODMUL.s rd, ra, rb, rt (R104). -/
def pseudoModmul (s : ModSel) (rd ra rb rt : Reg) : List Instr := [montmulOf s rd ra rb, montmulOf s rd rd rt]

/-- TOMONT.s rd, ra, rt (R104). -/
def pseudoTomont (s : ModSel) (rd ra rt : Reg) : List Instr := [montmulOf s rd ra rt]

/-- FROMMONT.s rd, ra, r1 (R104). -/
def pseudoFrommont (s : ModSel) (rd ra r1 : Reg) : List Instr := [montmulOf s rd ra r1]

/-- MODDBL.s rd, ra (R104). -/
def pseudoModdbl (s : ModSel) (rd ra : Reg) : List Instr := [modaddOf s rd ra ra]

/-- MODNEG.s rd, ra, rz (R104). -/
def pseudoModneg (s : ModSel) (rd ra rz : Reg) : List Instr := [modsubOf s rd rz ra]

/-- LDG rd, rd even (R104): both coordinates of G, then INF[rd/2] cleared by a read and a write of INF. -/
def pseudoLdg (rd : Reg) : List HostOp :=
  cmd (.ldrom rd 4) ++ cmd (.ldrom (rd + 1) 5) ++ [.read (.aperture 0x010) 4, .writeBack (.aperture 0x010) (~~~(1#32 <<< (rd.val / 2))) 0]

/-- LDINF rd, rd even (R104): INF[rd/2] set by a read and a write of INF. -/
def pseudoLdinf (rd : Reg) : List HostOp :=
  [.read (.aperture 0x010) 4, .writeBack (.aperture 0x010) (BitVec.allOnes 32) (1#32 <<< (rd.val / 2))]

/-- LDZERO rd (R104). -/
def pseudoLdzero (rd : Reg) : List Instr := [.ldrom rd 2]

/-- LDONE rd (R104). -/
def pseudoLdone (rd : Reg) : List Instr := [.ldrom rd 10]

end Sys2Proof
end

