-- ==== Sys2Proof/Safety.lean ====
section
/-! DEFINITION. What the claims call a good state: the invariants of STATUS (spec/10_state.md R32), the codes
ERRCODE can hold (spec/93_implementation_defined.md I13), and the block at rest while the reset input is asserted (R213). -/

namespace Sys2Proof.Machine

/-- `ERR = 0 ⇔ ERRCODE = 0` (R32). -/
abbrev State.errMatchesCode (s : State) : Prop := s.err = false ↔ s.errcode = 0

/-- `BUSY = 1 ⇒ DONE = 0 ∧ ERR = 0` (R32). -/
abbrev State.busyClearsStatus (s : State) : Prop := s.busy = true → s.done = false ∧ s.err = false

/-- ERRCODE is one of the codes a command can end with: never 3, 4, 6, 8 or 9–15 (R181, R182, I13). -/
abbrev State.codeIsRaised (s : State) : Prop :=
  s.errcode = 0 ∨ s.errcode = 1 ∨ s.errcode = 2 ∨ s.errcode = 5 ∨ s.errcode = 7

/-- Every field of R211 is at its reset value. -/
abbrev State.blockIsReset (s : State) : Prop :=
  s.x = Vector.replicate 16 0 ∧ s.inf = 0 ∧ s.umod = 0 ∧ s.ua = 0 ∧ s.ub = 0 ∧ s.ie = false ∧ s.busy = false ∧
    s.done = false ∧ s.err = false ∧ s.ovr = false ∧ s.errcode = 0 ∧ s.cmdLast = 0

/-- While the hardware reset input is asserted the block is in its reset state (R210, R213). -/
abbrev State.resetHolds (s : State) : Prop := s.rstIn = true → s.blockIsReset

/-- The invariant of the machine. -/
structure State.Inv (s : State) : Prop where
  errMatchesCode : s.errMatchesCode
  busyClearsStatus : s.busyClearsStatus
  codeIsRaised : s.codeIsRaised
  resetHolds : s.resetHolds

end Sys2Proof.Machine
end

