-- ==== Sys2Proof/Certificates/Slice0/Obligations.lean ====
section
/-! DEFINITION. The statements for the provers, from the numbered rules of spec/. The helper definitions of namespace Claims
write the spec's own formulas a second time, in plain numbers, so that a statement does not repeat the model's definition. -/

namespace Sys2Proof.Claims

open Machine

/-- `P = 2²⁵⁶ − 2³² − 977` (R171). -/
def fieldPrime : Nat := 2 ^ 256 - 2 ^ 32 - 977

/-- N as R170 writes it. -/
def groupOrder : Nat := 0xFFFFFFFFFFFFFFFFFFFFFFFFFFFFFFFEBAAEDCE6AF48A03BBFD25E8CD0364141

/-- The modulus a modular command names (R120). -/
def modulus : ModSel → State → Nat
  | .p, _ => fieldPrime
  | .n, _ => groupOrder
  | .u, s => s.umod.toNat

/-- UMOD is odd and at least 3, asked of `.U` commands only (R121). -/
def userModulusOk (s : State) : Prop := s.umod.toNat % 2 = 1 ∧ 3 ≤ s.umod.toNat

/-- The modulus check of R121 passes. -/
def modulusOk (sel : ModSel) (s : State) : Prop := sel = .u → userModulusOk s

/-- The curve a point command names (R140). -/
def curve : CurveSel → State → Curve
  | .k, _ => ⟨fieldPrime, 0, 7⟩
  | .u, s => ⟨s.umod.toNat, s.ua.toNat, s.ub.toNat⟩

/-- The checks of R142 pass. -/
def curveOk (sel : CurveSel) (s : State) : Prop :=
  sel = .u → userModulusOk s ∧ s.ua.toNat < s.umod.toNat ∧ s.ub.toNat < s.umod.toNat

/-- `q` is ∞, or has coordinates in `[0, m)` that satisfy the curve equation (R13, R143). -/
def validPoint (c : Curve) : Point → Prop
  | .infinity => True
  | .affine x y => x < c.m ∧ y < c.m ∧ ((y : Int) ^ 2 - ((x : Int) ^ 3 + c.a * x + c.b)) % c.m = 0

/-- The pair that register r names holds the point `q` (R12, R23). -/
def holdsPoint (s : State) (r : Reg) : Point → Prop
  | .infinity => s.infFlag (pairOf r) = true
  | .affine x y => s.infFlag (pairOf r) = false ∧ x = (s.reg (xReg (pairOf r))).toNat ∧ y = (s.reg (yReg (pairOf r))).toNat

/-- Word j of a 256-bit value, as a number: `V[255 − 32·j : 224 − 32·j]` (R63). -/
def wordOf (v : Word256) (j : Nat) : Word32 := BitVec.ofNat 32 (v.toNat / 2 ^ (224 - 32 * j))

/-- `v'` is `v` with exactly the 32 bits of word j replaced by `w` (R63). -/
def wordReplaced (v v' : Word256) (j : Nat) (w : Word32) : Prop :=
  ∀ n, n < 256 → v'.getLsbD n = if 224 - 32 * j ≤ n ∧ n < 256 - 32 * j then w.getLsbD (n - (224 - 32 * j)) else v.getLsbD n

/-- The legal words of R98, on the fields as numbers: op, rd, ra, rb, ms. -/
def legalWord (w : Word32) : Prop :=
  let op := w.toNat % 16
  let rd := w.toNat / 16 % 16
  let ra := w.toNat / 256 % 16
  let rb := w.toNat / 4096 % 16
  let ms := w.toNat / 65536 % 4
  w.toNat / 2 ^ 18 = 0 ∧
    (((op = 1 ∨ op = 2 ∨ op = 3) ∧ ms ≠ 3) ∨
     (op = 4 ∧ rd = 0 ∧ rb = 0 ∧ ra % 2 = 0 ∧ (ms = 0 ∨ ms = 2)) ∨
     (op = 5 ∧ rd % 2 = 0 ∧ ra % 2 = 0 ∧ rb % 2 = 0 ∧ (ms = 0 ∨ ms = 2)) ∨
     (op = 6 ∧ rd % 2 = 0 ∧ ra % 2 = 0 ∧ rb = 0 ∧ (ms = 0 ∨ ms = 2)) ∨
     (op = 7 ∧ rd % 2 = 0 ∧ rb % 2 = 0 ∧ (ms = 0 ∨ ms = 2)) ∨
     (op = 8 ∧ ra ≤ 10 ∧ rb = 0 ∧ ms = 0))

/-- The first failing check of a list, in order; `.none` when all pass (R184). -/
def firstFailing : List (Bool × ErrorCode) → ErrorCode
  | [] => .none
  | (failed, e) :: rest => if failed then e else firstFailing rest

/-- Step 2 of R184. -/
def userModulusChecks (s : State) : List (Bool × ErrorCode) :=
  [(s.umod.toNat % 2 == 0 || decide (s.umod.toNat < 3), .badMod)]

/-- Steps 2 and 4 of R184 for a modular command. -/
def modularChecks (sel : ModSel) (ra rb : Reg) (s : State) : List (Bool × ErrorCode) :=
  (if sel = .u then userModulusChecks s else []) ++
    [(decide (modulus sel s ≤ (s.reg ra).toNat), .range), (decide (modulus sel s ≤ (s.reg rb).toNat), .range)]

/-- Steps 2 and 3 of R184 for a point command. -/
def curveChecks (sel : CurveSel) (s : State) : List (Bool × ErrorCode) :=
  if sel = .u then
    userModulusChecks s ++ [(decide (s.umod.toNat ≤ s.ua.toNat), .range), (decide (s.umod.toNat ≤ s.ub.toNat), .range)]
  else []

/-- Step 4 of R184 for one pair: none with INF = 1; else x, then y, then the curve equation. -/
def pairChecks (c : Curve) (r : Reg) (s : State) : List (Bool × ErrorCode) :=
  let x := (s.reg (xReg (pairOf r))).toNat
  let y := (s.reg (yReg (pairOf r))).toNat
  if s.infFlag (pairOf r) then []
  else
    [(decide (c.m ≤ x), .range), (decide (c.m ≤ y), .range),
      (decide (((y : Int) ^ 2 - ((x : Int) ^ 3 + c.a * x + c.b)) % c.m ≠ 0), .notOnCurve)]

/-- The checks of a command in the order of R184. -/
def checks (i : Instr) (s : State) : List (Bool × ErrorCode) :=
  match i with
  | .modaddP _ ra rb => modularChecks .p ra rb s
  | .modaddN _ ra rb => modularChecks .n ra rb s
  | .modaddU _ ra rb => modularChecks .u ra rb s
  | .modsubP _ ra rb => modularChecks .p ra rb s
  | .modsubN _ ra rb => modularChecks .n ra rb s
  | .modsubU _ ra rb => modularChecks .u ra rb s
  | .montmulP _ ra rb => modularChecks .p ra rb s
  | .montmulN _ ra rb => modularChecks .n ra rb s
  | .montmulU _ ra rb => modularChecks .u ra rb s
  | .pchkK ra => curveChecks .k s ++ pairChecks (curve .k s) ra s
  | .pchkU ra => curveChecks .u s ++ pairChecks (curve .u s) ra s
  | .paddK _ ra rb => curveChecks .k s ++ pairChecks (curve .k s) ra s ++ pairChecks (curve .k s) rb s
  | .paddU _ ra rb => curveChecks .u s ++ pairChecks (curve .u s) ra s ++ pairChecks (curve .u s) rb s
  | .pdblK _ ra => curveChecks .k s ++ pairChecks (curve .k s) ra s
  | .pdblU _ ra => curveChecks .u s ++ pairChecks (curve .u s) ra s
  | .smulK _ _ rb => curveChecks .k s ++ pairChecks (curve .k s) rb s
  | .smulU _ _ rb => curveChecks .u s ++ pairChecks (curve .u s) rb s
  | .ldrom _ _ => []

/-- The checks of a pending word, decode first (R184). -/
def wordChecks (w : Word32) (s : State) : List (Bool × ErrorCode) :=
  match decode w with
  | .ok i => checks i s
  | .error _ => [(true, .illegal)]

/-- The while loop of R150 as the spec writes it, with no bound. -/
def whileLoop (c : Curve) (k : Nat) (result current : Point) : Point :=
  if _h : k = 0 then result
  else whileLoop c (k / 2) (if k % 2 = 1 then groupAdd c result current else result) (groupAdd c current current)
termination_by k
decreasing_by omega

/-- `n` steps from `s` to `t`, with BUSY = 1 after each of them. -/
def busyRun : Nat → State → State → Prop
  | 0, s, t => t = s
  | n + 1, s, t => ∃ u, step s = .next u ∧ u.busy = true ∧ busyRun n u t

/-- The commands of a list, run one after the other from `s`, end in `t`. -/
def runs : List Instr → State → State → Prop
  | [], s, t => t = s
  | i :: rest, s, t => ∃ u, exec i s = .next u ∧ runs rest u t

/-- Every field outside the operand registers, INF and STATUS's BUSY, DONE, ERR and ERRCODE is the same. -/
def restUnchanged (s t : State) : Prop :=
  t.umod = s.umod ∧ t.ua = s.ua ∧ t.ub = s.ub ∧ t.ie = s.ie ∧ t.ovr = s.ovr ∧ t.cmdLast = s.cmdLast ∧ t.rstIn = s.rstIn ∧
    t.program = s.program ∧ t.schedule = s.schedule ∧ t.reads = s.reads ∧ t.draws = s.draws

/-- The bus address `a` names the aperture offset `off` (R60; the two forms of an address, log 4). -/
def names (a : BusAddr) (off : Nat) : Prop := off < 4096 ∧ (a = .aperture off ∨ a = .absolute (Config.base + off))

/-! The events of a step from `s` to `t`, each tied to the turn that is taken and, for a write, to the host's next access. -/

/-- The step from `s` takes `turn` and leaves the schedule `ts`; a schedule that is used up gives the default turn (log 1). -/
def takesTurn (s : State) (turn : Turn) (ts : List Turn) : Prop :=
  s.schedule = turn :: ts ∨ (s.schedule = [] ∧ ts = [] ∧ turn = s.defaultTurn)

/-- The step from `s` is the host's, and its next access is the admitted write of `v` at `off`; `p` is left of its program and `ts`
of the schedule. The second form is the write back of the value read last (R104; log 9). -/
def hostWrites (s : State) (off : Nat) (v : Word32) (p : List HostOp) (ts : List Turn) : Prop :=
  takesTurn s .host ts ∧ s.rstIn = false ∧ off % 4 = 0 ∧ ∃ a, names a off ∧
    (s.program = .write a 4 v :: p ∨ ∃ keep set, s.program = .writeBack a keep set :: p ∧ v = (s.lastRead &&& keep) ||| set)

/-- The step from `s` to `t` is the write that the host makes next. -/
def byHostWrite (s t : State) : Prop :=
  ∃ off v p ts, hostWrites s off v p ts ∧ t = memWrite { s with program := p, schedule := ts } off v

/-- The step from `s` to `t` is the acceptance of the word the host writes to CMD (R185). -/
def byAcceptance (s t : State) : Prop :=
  s.busy = false ∧ ∃ w p ts, hostWrites s 0x00C w p ts ∧ t = accept { s with program := p, schedule := ts } w

/-- The step from `s` to `t` is the engine's completion of the pending command (R186). -/
def byCompletion (s t : State) : Prop :=
  s.busy = true ∧ ∃ ts, takesTurn s .engine ts ∧ engineTurn { s with schedule := ts } = .next t

/-- The step from `s` to `t` is a host write to CMD or a locked word, dropped because BUSY = 1 (R68, R189). -/
def byDroppedWrite (s t : State) : Prop :=
  s.busy = true ∧ ∃ off v p ts, hostWrites s off v p ts ∧
    (off = 0x00C ∨ off = 0x010 ∨ (0x100 ≤ off ∧ off ≤ 0x35C)) ∧ t = overrun { s with program := p, schedule := ts }

/-- The step from `s` to `t` is a host write to STATUS with bit `n` = 1 (R32). -/
def byStatusWrite (n : Nat) (s t : State) : Prop :=
  ∃ v p ts, hostWrites s 0x008 v p ts ∧ v.getLsbD n = true ∧ t = memWrite { s with program := p, schedule := ts } 0x008 v

/-- The step from `s` to `t` is a reset: the host writes CTRL with bit 1 = 1, or the platform asserts the hardware reset input
(R210; the input's level, log 7). -/
def byReset (s t : State) : Prop :=
  t.blockIsReset ∧
    ((∃ v p ts, hostWrites s 0x004 v p ts ∧ v.getLsbD 1 = true ∧ t = memWrite { s with program := p, schedule := ts } 0x004 v) ∨
      ∃ ts, takesTurn s .assertReset ts ∧ takeTurn { s with schedule := ts } .assertReset = .next t)

/-- The bus address `a` lies outside the aperture (R60). -/
def outside (a : BusAddr) : Prop :=
  (∃ off, 4096 ≤ off ∧ a = .aperture off) ∨
    ∃ addr, (addr < Config.base ∨ Config.base + 4096 ≤ addr) ∧ a = .absolute addr

/-- The aperture word at an offset holds the same value. -/
def wordUnchanged (s t : State) (off : Nat) : Prop := regionWord t (regionOf off) = regionWord s (regionOf off)

end Sys2Proof.Claims

open Sys2Proof Sys2Proof.Machine Sys2Proof.Claims

/-! Encoding -/

/-- The sample commands of R105 (an inference from R91–R93 and R97, as the spec marks it): every one encodes to its word and
decodes from it, and the illegal examples decode to nothing. -/
def Obligations.SampleWordsEncodeAndDecode : Prop :=
  (∀ p ∈ ([(.modaddP 2 0 1, 0x00001021), (.modaddN 3 1 2, 0x00012131), (.modsubU 15 14 13, 0x0002DEF2),
      (.montmulP 2 0 1, 0x00001023), (.montmulN 5 5 5, 0x00015553), (.pchkK 4, 0x00000404), (.pchkU 2, 0x00020204),
      (.paddK 4 0 2, 0x00002045), (.paddU 4 0 2, 0x00022045), (.pdblK 2 0, 0x00000026), (.pdblU 6 6, 0x00020666),
      (.smulK 4 8 0, 0x00000847), (.smulU 2 8 0, 0x00020827), (.ldrom 0 4, 0x00000408), (.ldrom 1 5, 0x00000518),
      (.ldrom 2 7, 0x00000728), (.ldrom 3 10, 0x00000A38)] : List (Instr × Word32)),
    encode p.1 = p.2 ∧ decode p.2 = .ok p.1) ∧
  (([0x00000000, 0x00031021, 0x00012045, 0x00002145, 0x00000B08, 0x00041021, 0x00001026] : List Word32).map
    (fun w => (decode w).isOk)) = [false, false, false, false, false, false, false]

/-- Decoding the encoding of a well-formed command gives it back. -/
def Obligations.DecodeOfEncodeIsTheCommand : Prop :=
  ∀ i : Instr, i.wellFormed = true → decode (encode i) = .ok i

/-- A word that decodes is the encoding of the command it decodes to, which is well-formed: no two words mean one command. -/
def Obligations.EncodeOfDecodeIsTheWord : Prop :=
  ∀ (w : Word32) (i : Instr), decode w = .ok i → i.wellFormed = true ∧ encode i = w

/-- R98, whole: which words are Legal, and that the command read from one has exactly the word's fields; an Illegal word is still
accepted, and completes with ERR_ILLEGAL and no other effect. -/
def Obligations.LegalWordsAndIllegalCompletion : Prop :=
  (∀ w : Word32, (∃ i, decode w = .ok i) ↔ legalWord w) ∧
  (∀ (w : Word32) (i : Instr), decode w = .ok i → i.wellFormed = true ∧ encode i = w) ∧
  (∀ (s : State) (w : Word32), s.busy = false → ¬ legalWord w →
    memWrite s 0x00C w = { s with cmdLast := w, busy := true, done := false, err := false, errcode := 0 }) ∧
  (∀ s : State, s.busy = true → ¬ legalWord s.cmdLast →
    engineTurn s = .next { s with busy := false, done := true, err := true, errcode := 1 })

/-! The step -/

/-- R16, R186: when the pending word decodes and it is the engine's turn, the step is `exec` of the decoded command on the state
less that turn. That the turns come from a schedule, and that a busy engine moves when it is used up, is the model's choice (log
1). -/
def Obligations.StepRunsThePendingCommand : Prop :=
  ∀ (s : State) (i : Instr), s.busy = true → decode s.cmdLast = .ok i →
    (∀ ts, s.schedule = .engine :: ts → step s = exec i { s with schedule := ts }) ∧
    (s.schedule = [] → step s = exec i s)

/-- The step after withFetchWord runs the command whose word was placed, as just accepted (R185). withFetchWord is the model's own
(log 8). -/
def Obligations.FetchedWordRunsInTheNextStep : Prop :=
  ∀ (s : State) (w : Word32) (i : Instr), decode w = .ok i →
    step (s.withFetchWord 32 w.toNat) =
      exec i { s with cmdLast := w, busy := true, done := false, err := false, errcode := 0, rstIn := false }

/-! Modular commands -/

/-- R123: MODADD.P, MODADD.N and MODADD.U write `(a + b) mod m` to rd and change nothing else but the completion status. -/
def Obligations.ModaddWritesTheReducedSum : Prop :=
  ∀ (sel : ModSel) (rd ra rb : Reg) (s : State), modulusOk sel s →
    (s.reg ra).toNat < modulus sel s → (s.reg rb).toNat < modulus sel s →
    exec (modaddOf sel rd ra rb) s = .next { s with
      x := s.x.set rd.val (BitVec.ofNat 256 (((s.reg ra).toNat + (s.reg rb).toNat) % modulus sel s))
      busy := false, done := true, err := false, errcode := 0 }

/-- R124: MODSUB.P, MODSUB.N and MODSUB.U write `a − b` when `a ≥ b` and `a − b + m` when `a < b`, and change nothing else but the
completion status. -/
def Obligations.ModsubWritesTheFloorDifference : Prop :=
  ∀ (sel : ModSel) (rd ra rb : Reg) (s : State), modulusOk sel s →
    (s.reg ra).toNat < modulus sel s → (s.reg rb).toNat < modulus sel s →
    exec (modsubOf sel rd ra rb) s = .next { s with
      x := s.x.set rd.val (BitVec.ofNat 256 (if (s.reg rb).toNat ≤ (s.reg ra).toNat then (s.reg ra).toNat - (s.reg rb).toNat
        else (s.reg ra).toNat + modulus sel s - (s.reg rb).toNat))
      busy := false, done := true, err := false, errcode := 0 }

/-- R125: MONTMUL.P, MONTMUL.N and MONTMUL.U write `a·b·Rinv mod m`, for the Rinv in `[1, m)` with `R·Rinv mod m = 1`, and change
nothing else but the completion status. -/
def Obligations.MontmulWritesTheMontgomeryProduct : Prop :=
  ∀ (sel : ModSel) (rd ra rb : Reg) (s : State), modulusOk sel s →
    (s.reg ra).toNat < modulus sel s → (s.reg rb).toNat < modulus sel s →
    ∃ rinv, 1 ≤ rinv ∧ rinv < modulus sel s ∧ 2 ^ 256 * rinv % modulus sel s = 1 ∧
      exec (montmulOf sel rd ra rb) s = .next { s with
        x := s.x.set rd.val (BitVec.ofNat 256 ((s.reg ra).toNat * (s.reg rb).toNat * rinv % modulus sel s))
        busy := false, done := true, err := false, errcode := 0 }

/-- R125: for every odd m ≥ 3 the model's `rInv m` is the unique integer in `[1, m)` with `R·Rinv mod m = 1`. -/
def Obligations.InverseOfRadixIsUnique : Prop :=
  ∀ m : Nat, m % 2 = 1 → 3 ≤ m →
    (1 ≤ rInv m ∧ rInv m < m ∧ 2 ^ 256 * rInv m % m = 1) ∧
    (∀ r, 1 ≤ r → r < m → 2 ^ 256 * r % m = 1 → r = rInv m)

/-- R121, R122: a bad UMOD raises ERR_BADMOD before any other check; P and N never fail that check; every odd UMOD ≥ 3 passes it,
prime or not; an operand ≥ m raises ERR_RANGE, a before b. -/
def Obligations.ModularChecksInOrder : Prop :=
  ∀ (sel : ModSel) (rd ra rb : Reg) (s : State) (i : Instr),
    i = modaddOf sel rd ra rb ∨ i = modsubOf sel rd ra rb ∨ i = montmulOf sel rd ra rb →
    (¬ modulusOk sel s → exec i s = .next { s with busy := false, done := true, err := true, errcode := 7 }) ∧
    (modulusOk sel s → modulus sel s ≤ (s.reg ra).toNat →
      exec i s = .next { s with busy := false, done := true, err := true, errcode := 2 }) ∧
    (modulusOk sel s → (s.reg ra).toNat < modulus sel s → modulus sel s ≤ (s.reg rb).toNat →
      exec i s = .next { s with busy := false, done := true, err := true, errcode := 2 }) ∧
    (modulusOk sel s → (s.reg ra).toNat < modulus sel s → (s.reg rb).toNat < modulus sel s →
      ∃ v : Word256, exec i s = .next { s with
        x := s.x.set rd.val v, busy := false, done := true, err := false, errcode := 0 })

/-- The Montgomery identities of R129, which the spec marks as its inference from R125, for the model's product, sum and
difference. -/
def Obligations.MontgomeryIdentities : Prop :=
  ∀ m a b : Nat, m % 2 = 1 → 3 ≤ m → m < 2 ^ 256 → a < m → b < m →
    montMul m a ((2 ^ 256) ^ 2 % m) = a * 2 ^ 256 % m ∧
    montMul m (a * 2 ^ 256 % m) 1 = a ∧
    montMul m (a * 2 ^ 256 % m) (b * 2 ^ 256 % m) = a * b * 2 ^ 256 % m ∧
    montMul m (montMul m a b) ((2 ^ 256) ^ 2 % m) = a * b % m ∧
    montMul m (montMul m a b) ((2 ^ 256) ^ 2 % m) = fMul m a b ∧
    fAdd m (a * 2 ^ 256 % m) (b * 2 ^ 256 % m) = fAdd m a b * 2 ^ 256 % m ∧
    fSub m (a * 2 ^ 256 % m) (b * 2 ^ 256 % m) = fSub m a b * 2 ^ 256 % m

/-- R104's MODMUL: its two MONTMULs, run one after the other with R² mod m in rt, leave the ordinary product in rd. -/
def Obligations.ModmulComputesTheProduct : Prop :=
  ∀ (sel : ModSel) (rd ra rb rt : Reg) (s : State), modulusOk sel s → rd ≠ rt →
    (s.reg ra).toNat < modulus sel s → (s.reg rb).toNat < modulus sel s →
    (s.reg rt).toNat = (2 ^ 256) ^ 2 % modulus sel s →
    ∃ i j s1 s2, pseudoModmul sel rd ra rb rt = [i, j] ∧ exec i s = .next s1 ∧ exec j s1 = .next s2 ∧ s2.err = false ∧
      (s2.reg rd).toNat = (s.reg ra).toNat * (s.reg rb).toNat % modulus sel s

/-- R104's TOMONT, FROMMONT, MODDBL, MODNEG, LDZERO and LDONE: under the requirement the table gives, the expansion runs without error
and leaves the result the table gives. -/
def Obligations.PseudoCommandsComputeTheirResults : Prop :=
  ∀ (sel : ModSel) (rd ra rt : Reg) (s : State), modulusOk sel s → (s.reg ra).toNat < modulus sel s →
    ((s.reg rt).toNat = (2 ^ 256) ^ 2 % modulus sel s → ∃ t, runs (pseudoTomont sel rd ra rt) s t ∧ t.err = false ∧
      (t.reg rd).toNat = (s.reg ra).toNat * 2 ^ 256 % modulus sel s) ∧
    ((s.reg rt).toNat = 1 → ∃ t, runs (pseudoFrommont sel rd ra rt) s t ∧ t.err = false ∧
      (t.reg rd).toNat < modulus sel s ∧ (t.reg rd).toNat * 2 ^ 256 % modulus sel s = (s.reg ra).toNat) ∧
    (∃ t, runs (pseudoModdbl sel rd ra) s t ∧ t.err = false ∧ (t.reg rd).toNat = 2 * (s.reg ra).toNat % modulus sel s) ∧
    ((s.reg rt).toNat = 0 → ∃ t, runs (pseudoModneg sel rd ra rt) s t ∧ t.err = false ∧
      (t.reg rd).toNat = (modulus sel s - (s.reg ra).toNat) % modulus sel s) ∧
    (∃ t, runs (pseudoLdzero rd) s t ∧ t.err = false ∧ (t.reg rd).toNat = 0) ∧
    (∃ t, runs (pseudoLdone rd) s t ∧ t.err = false ∧ (t.reg rd).toNat = 1)

/-! Point commands -/

/-- R146: PCHK.K and PCHK.U of a pair that holds a point of the curve write nothing but the completion status. -/
def Obligations.PchkAcceptsPointsOfTheCurve : Prop :=
  ∀ (sel : CurveSel) (ra : Reg) (q : Point) (s : State), curveOk sel s → holdsPoint s ra q → validPoint (curve sel s) q →
    exec (pchkOf sel ra) s = .next { s with busy := false, done := true, err := false, errcode := 0 }

/-- R147: PADD.K and PADD.U of two points of the curve write GroupAdd of them to pair rd. -/
def Obligations.PaddWritesTheGroupSum : Prop :=
  ∀ (sel : CurveSel) (rd ra rb : Reg) (p q : Point) (s : State), curveOk sel s → holdsPoint s ra p → holdsPoint s rb q →
    validPoint (curve sel s) p → validPoint (curve sel s) q →
    exec (paddOf sel rd ra rb) s = .next { s.writePoint (pairOf rd) (groupAdd (curve sel s) p q) with
      busy := false, done := true, err := false, errcode := 0 }

/-- R148: PDBL.K and PDBL.U of a point Q of the curve write GroupAdd(C, Q, Q) to pair rd: ∞ when Q = ∞ or y = 0. -/
def Obligations.PdblWritesTheDouble : Prop :=
  ∀ (sel : CurveSel) (rd ra : Reg) (q : Point) (s : State), curveOk sel s → holdsPoint s ra q → validPoint (curve sel s) q →
    exec (pdblOf sel rd ra) s = .next { s.writePoint (pairOf rd) (groupAdd (curve sel s) q q) with
      busy := false, done := true, err := false, errcode := 0 } ∧
    (q = .infinity → groupAdd (curve sel s) q q = .infinity) ∧ (∀ x, q = .affine x 0 → groupAdd (curve sel s) q q = .infinity)

/-- R150 and R151, whole: SMUL.K writes DoubleAndAdd of the scalar reduced modulo N, which is k or k − N; SMUL.U on a well-formed
user curve writes DoubleAndAdd of the scalar unreduced; the scalar is not checked. -/
def Obligations.SmulWritesTheMultiple : Prop :=
  (∀ (rd ra rb : Reg) (q : Point) (s : State), holdsPoint s rb q → validPoint (curve .k s) q →
    exec (.smulK rd ra rb) s = .next {
      s.writePoint (pairOf rd) (whileLoop (curve .k s)
        (if (s.reg ra).toNat < groupOrder then (s.reg ra).toNat else (s.reg ra).toNat - groupOrder) .infinity q) with
      busy := false, done := true, err := false, errcode := 0 }) ∧
  (∀ (rd ra rb : Reg) (q : Point) (s : State), curveOk .u s → holdsPoint s rb q → validPoint (curve .u s) q →
    Nat.Prime s.umod.toNat → (4 * s.ua.toNat ^ 3 + 27 * s.ub.toNat ^ 2) % s.umod.toNat ≠ 0 →
    exec (.smulU rd ra rb) s = .next {
      s.writePoint (pairOf rd) (whileLoop (curve .u s) (s.reg ra).toNat .infinity q) with
      busy := false, done := true, err := false, errcode := 0 })

/-- R153: SMUL.U on a user curve that is not well-formed completes without error and writes some point, ∞ or with coordinates in
`[0, UMOD)`, that is a fixed function of the curve, the scalar and the point. Which point is open. -/
def Obligations.SmulOnIllFormedCurveCompletes : Prop :=
  ∃ f : Curve → Nat → Point → Point, ∀ (rd ra rb : Reg) (q : Point) (s : State), curveOk .u s → holdsPoint s rb q →
    validPoint (curve .u s) q →
    ¬ (Nat.Prime s.umod.toNat ∧ (4 * s.ua.toNat ^ 3 + 27 * s.ub.toNat ^ 2) % s.umod.toNat ≠ 0) →
    (∀ x y, f (curve .u s) (s.reg ra).toNat q = .affine x y → x < s.umod.toNat ∧ y < s.umod.toNat) ∧
    exec (.smulU rd ra rb) s = .next { s.writePoint (pairOf rd) (f (curve .u s) (s.reg ra).toNat q) with
      busy := false, done := true, err := false, errcode := 0 }

/-- R145: WritePoint writes 0, 0 and INF = 1 for ∞, the coordinates and INF = 0 for an affine point, and no other register or INF
bit. -/
def Obligations.WritePointWritesOnePair : Prop :=
  ∀ (s : State) (k : Pair) (q : Point),
    (q = .infinity → ((s.writePoint k q).reg (xReg k)).toNat = 0 ∧ ((s.writePoint k q).reg (yReg k)).toNat = 0 ∧
      (s.writePoint k q).infFlag k = true) ∧
    (∀ x y, q = .affine x y → x < 2 ^ 256 → y < 2 ^ 256 → ((s.writePoint k q).reg (xReg k)).toNat = x ∧
      ((s.writePoint k q).reg (yReg k)).toNat = y ∧ (s.writePoint k q).infFlag k = false) ∧
    (∀ r : Reg, r.val / 2 ≠ k.val → (s.writePoint k q).reg r = s.reg r) ∧
    (∀ j : Pair, j ≠ k → (s.writePoint k q).infFlag j = s.infFlag j)

/-- R143: ReadPoint answers ∞ with no check when INF[k] = 1, else checks x, then y, then the curve equation, and answers the
affine point. -/
def Obligations.ReadPointChecksInOrder : Prop :=
  ∀ (c : Curve) (r : Reg) (s : State), Reg.even r = true →
    let x := (s.reg r).toNat
    let y := (s.reg (r + 1)).toNat
    let k : Pair := pairOf r
    (s.infFlag k = true → readPoint c k s = .ok .infinity) ∧
    (s.infFlag k = false →
      (c.m ≤ x → readPoint c k s = .error .range) ∧
      (x < c.m → c.m ≤ y → readPoint c k s = .error .range) ∧
      (x < c.m → y < c.m → ((y : Int) * y - (x * x * x + c.a * x + c.b)) % c.m ≠ 0 →
        readPoint c k s = .error .notOnCurve) ∧
      (x < c.m → y < c.m → ((y : Int) * y - (x * x * x + c.a * x + c.b)) % c.m = 0 →
        readPoint c k s = .ok (.affine x y)))

/-- R144: GroupAdd's six cases, with the chord and the tangent as the source's formulas over the integers; the two denominators
are never 0 for an odd modulus. -/
def Obligations.GroupAddSixCases : Prop :=
  ∀ c : Curve, c.m % 2 = 1 → 3 ≤ c.m → c.m < 2 ^ 256 →
    (∀ q, groupAdd c .infinity q = q) ∧
    (∀ p, groupAdd c p .infinity = p) ∧
    (∀ x1 y1 x2 y2 : Nat, x1 < c.m → y1 < c.m → x2 < c.m → y2 < c.m →
      (x1 = x2 → y1 ≠ y2 → groupAdd c (.affine x1 y1) (.affine x2 y2) = .infinity) ∧
      (x1 ≠ x2 → fSub c.m x2 x1 ≠ 0 ∧ ∃ l x3 y3 : Nat,
        (l : Int) = ((y2 : Int) - y1) * ((x2 : Int) - x1) ^ (c.m - 2) % c.m ∧
        (x3 : Int) = ((l : Int) ^ 2 - x1 - x2) % c.m ∧ (y3 : Int) = ((l : Int) * ((x1 : Int) - x3) - y1) % c.m ∧
        groupAdd c (.affine x1 y1) (.affine x2 y2) = .affine x3 y3) ∧
      (x1 = x2 → y1 = y2 → y1 = 0 → groupAdd c (.affine x1 y1) (.affine x2 y2) = .infinity) ∧
      (x1 = x2 → y1 = y2 → y1 ≠ 0 → fMulk c.m y1 2 ≠ 0 ∧ ∃ l x3 y3 : Nat,
        (l : Int) = (3 * (x1 : Int) ^ 2 + c.a) * (2 * (y1 : Int)) ^ (c.m - 2) % c.m ∧
        (x3 : Int) = ((l : Int) ^ 2 - 2 * x1) % c.m ∧ (y3 : Int) = ((l : Int) * ((x1 : Int) - x3) - y1) % c.m ∧
        groupAdd c (.affine x1 y1) (.affine x2 y2) = .affine x3 y3))

/-- R150: DoubleAndAdd is the while loop of the spec, for every 256-bit scalar. -/
def Obligations.DoubleAndAddIsTheWhileLoop : Prop :=
  ∀ (c : Curve) (k : Nat) (q : Point), k < 2 ^ 256 → doubleAndAdd c k q = whileLoop c k .infinity q

/-- R149's corner cases on K: k mod N = 0 gives ∞, 1 gives Q, 2 gives the PDBL value, and Q = ∞ gives ∞ for every k. -/
def Obligations.SmulCornerCases : Prop :=
  ∀ (rd ra rb : Reg) (q : Point) (s : State), holdsPoint s rb q → validPoint (curve .k s) q →
    ∃ r, exec (.smulK rd ra rb) s = .next { s.writePoint (pairOf rd) r with
        busy := false, done := true, err := false, errcode := 0 } ∧
      ((s.reg ra).toNat % groupOrder = 0 → r = .infinity) ∧
      ((s.reg ra).toNat % groupOrder = 1 → r = q) ∧
      ((s.reg ra).toNat % groupOrder = 2 → r = groupAdd (curve .k s) q q) ∧
      (q = .infinity → r = .infinity)

/-- PDBL of a pair is PADD of the pair with itself, on every state: same value, same error. -/
def Obligations.PdblEqualsPaddOfThePairWithItself : Prop :=
  ∀ (sel : CurveSel) (rd ra : Reg) (s : State), exec (pdblOf sel rd ra) s = exec (paddOf sel rd ra ra) s

/-- R126: FieldDiv is `u · v^(m−2) mod m` for every modulus; for a prime modulus and v ≠ 0 it is the quotient. -/
def Obligations.FieldDivIsFermatDivision : Prop :=
  ∀ m u v : Nat, 2 ≤ m → m < 2 ^ 256 →
    fieldDiv m u v = u * v ^ (m - 2) % m ∧
    (Nat.Prime m → u < m → v < m → v ≠ 0 → fieldDiv m u v * v % m = u)

/-- R156, which the spec takes from general knowledge: on K, and on a well-formed user curve, the result of PADD, PDBL and SMUL is
itself a point that PCHK accepts. -/
def Obligations.PointResultsStayOnTheCurve : Prop :=
  ∀ (sel : CurveSel) (rd ra rb : Reg) (i : Instr) (s t : State),
    i = paddOf sel rd ra rb ∨ i = pdblOf sel rd ra ∨ i = smulOf sel rd ra rb →
    (sel = .u → Nat.Prime s.umod.toNat ∧ (4 * s.ua.toNat ^ 3 + 27 * s.ub.toNat ^ 2) % s.umod.toNat ≠ 0) →
    exec i s = .next t → t.err = false →
    ∃ u, exec (pchkOf sel rd) t = .next u ∧ u.err = false

/-- I14, R143: the coordinates of a pair whose INF bit is 1 have no influence on PCHK, PADD and PDBL. -/
def Obligations.CoordinatesOfInfinityAreIgnored : Prop :=
  ∀ (sel : CurveSel) (rd ra rb : Reg) (k : Pair) (vx vy : Word256) (i : Instr) (s t t' : State), s.infFlag k = true →
    i = pchkOf sel ra ∨ i = paddOf sel rd ra rb ∨ i = pdblOf sel rd ra →
    exec i s = .next t → exec i ((s.setReg (xReg k) vx).setReg (yReg k) vy) = .next t' →
    t'.err = t.err ∧ t'.errcode = t.errcode ∧ t'.inf = t.inf ∧ ∀ r, r ≠ xReg k → r ≠ yReg k → t'.reg r = t.reg r

/-! The ROM -/

/-- R175: LDROM writes ROM[IDX] to rd and changes nothing else but the completion status. -/
def Obligations.LdromLoadsTheEntry : Prop :=
  ∀ (rd : Reg) (idx : Fin 16) (s : State), idx.val ≤ 10 →
    exec (.ldrom rd idx) s = .next { s with
      x := s.x.set rd.val (rom idx), busy := false, done := true, err := false, errcode := 0 }

/-- R170, whole: the ROM's values and names; a reserved entry reads 0 on the bus and is no LDROM operand. -/
def Obligations.RomHoldsTheParameters : Prop :=
  (List.finRange 16).map (fun e => (romName e, (rom e).toNat)) =
    [(some "#P", 0xFFFFFFFFFFFFFFFFFFFFFFFFFFFFFFFFFFFFFFFFFFFFFFFFFFFFFFFEFFFFFC2F),
     (some "#N", 0xFFFFFFFFFFFFFFFFFFFFFFFFFFFFFFFEBAAEDCE6AF48A03BBFD25E8CD0364141),
     (some "#A", 0), (some "#B", 7),
     (some "#GX", 0x79BE667EF9DCBBAC55A06295CE870B07029BFCDB2DCE28D959F2815B16F81798),
     (some "#GY", 0x483ADA7726A3C4655DA4FBFC0E1108A8FD17B448A68554199C47D08FFB10D4B8),
     (some "#RP", 0x1000003D1), (some "#R2P", 0x1000007A2000E90A1),
     (some "#RN", 0x14551231950B75FC4402DA1732FC9BEBF),
     (some "#R2N", 0x9D671CD581C69BC5E697F5E45BCD07C6741496C20E7CF878896CF21467D7D140),
     (some "#ONE", 1), (none, 0), (none, 0), (none, 0), (none, 0), (none, 0)] ∧
  (∀ (s : State) (e : Fin 16) (j : Fin 8), 11 ≤ e.val → (memRead s (0x400 + 32 * e.val + 4 * j.val)).1 = 0) ∧
  (∀ (rd : Reg) (e : Fin 16), 11 ≤ e.val → ∀ i, decode (commandWord 8 rd e 0 0) ≠ .ok i)

/-- The values of R171 and R173, which the spec marks as its inferences: P is the formula's value; the Montgomery constants are R
mod P, R² mod P, R mod N, R² mod N, and RP = 2^32 + 977. -/
def Obligations.RomMontgomeryConstants : Prop :=
  (rom 0).toNat = 2 ^ 256 - 2 ^ 32 - 977 ∧ (rom 6).toNat = 2 ^ 256 % (rom 0).toNat ∧
  (rom 7).toNat = (2 ^ 256) ^ 2 % (rom 0).toNat ∧ (rom 8).toNat = 2 ^ 256 % (rom 1).toNat ∧
  (rom 9).toNat = (2 ^ 256) ^ 2 % (rom 1).toNat ∧ (rom 6).toNat = 2 ^ 32 + 977

/-- R176, whole: the ROM window reads word j of entry e, busy or not; a write to it changes nothing, OVR included. -/
def Obligations.RomWindowIsReadOnlyAndUnlocked : Prop :=
  ∀ (s : State) (e : Fin 16) (j : Fin 8) (v : Word32),
    memRead s (0x400 + 32 * e.val + 4 * j.val) = (wordOf (rom e) j.val, s) ∧
    memWrite s (0x400 + 32 * e.val + 4 * j.val) v = s ∧ (11 ≤ e.val → rom e = 0)

/-! Errors and frames -/

/-- R180, R183, R187, and R182, which the spec marks as its inference: every command on every state completes in one next state,
with success or with one of the codes 2, 5 and 7; with an error nothing but STATUS changes. -/
def Obligations.EveryCommandEndsInOneOutcome : Prop :=
  ∀ (i : Instr) (s : State), ∃ t, exec i s = .next t ∧ t.busy = false ∧ t.done = true ∧
    ((t.err = false ∧ t.errcode = 0) ∨
     ((t.errcode = 2 ∨ t.errcode = 5 ∨ t.errcode = 7) ∧
       t = { s with busy := false, done := true, err := true, errcode := t.errcode }))

/-- R184, whole: the code a completion reports is that of the first failing check, decode first. -/
def Obligations.FirstFailingCheckIsReported : Prop :=
  ∀ s : State, s.busy = true → ∃ t, engineTurn s = .next t ∧ t.done = true ∧
    t.errcode = (firstFailing (wordChecks s.cmdLast s)).code ∧
    (t.err = true ↔ firstFailing (wordChecks s.cmdLast s) ≠ .none)

/-- The frame of MODADD, MODSUB, MONTMUL and LDROM: at most rd and STATUS's BUSY, DONE, ERR and ERRCODE change; every aperture
word outside rd's eight and STATUS holds the same value. -/
def Obligations.RegisterCommandsFrame : Prop :=
  ∀ (sel : ModSel) (rd ra rb : Reg) (idx : Fin 16) (i : Instr) (s t : State),
    i = modaddOf sel rd ra rb ∨ i = modsubOf sel rd ra rb ∨ i = montmulOf sel rd ra rb ∨ i = .ldrom rd idx →
    exec i s = .next t →
    (∀ r, r ≠ rd → t.reg r = s.reg r) ∧ t.inf = s.inf ∧ restUnchanged s t ∧
    (∀ off, off < 4096 → off % 4 = 0 → off ≠ 0x008 → ¬ (0x100 + 32 * rd.val ≤ off ∧ off < 0x100 + 32 * rd.val + 32) →
      wordUnchanged s t off)

/-- The frame of PADD, PDBL and SMUL: at most the two registers and the INF bit of pair rd and STATUS's BUSY, DONE, ERR and
ERRCODE change; every aperture word outside the pair's sixteen, INF and STATUS holds the same value. -/
def Obligations.PointCommandsFrame : Prop :=
  ∀ (sel : CurveSel) (rd ra rb : Reg) (i : Instr) (s t : State),
    i = paddOf sel rd ra rb ∨ i = pdblOf sel rd ra ∨ i = smulOf sel rd ra rb →
    exec i s = .next t →
    (∀ r, r.val / 2 ≠ rd.val / 2 → t.reg r = s.reg r) ∧ (∀ k, k ≠ pairOf rd → t.infFlag k = s.infFlag k) ∧ restUnchanged s t ∧
    (∀ off, off < 4096 → off % 4 = 0 → off ≠ 0x008 → off ≠ 0x010 →
      ¬ (0x100 + 64 * (rd.val / 2) ≤ off ∧ off < 0x100 + 64 * (rd.val / 2) + 64) → wordUnchanged s t off)

/-- The frame of PCHK: nothing but STATUS's BUSY, DONE, ERR and ERRCODE changes; every aperture word but STATUS holds the same
value. -/
def Obligations.PchkFrame : Prop :=
  ∀ (sel : CurveSel) (ra : Reg) (s t : State), exec (pchkOf sel ra) s = .next t →
    t.x = s.x ∧ t.inf = s.inf ∧ restUnchanged s t ∧
    (∀ off, off < 4096 → off % 4 = 0 → off ≠ 0x008 → wordUnchanged s t off)

/-! The bus -/

/-- R67, whole: what a read returns at every word offset while BUSY = 0, and that it changes no state. -/
def Obligations.ReadMapWhileIdle : Prop :=
  ∀ (s : State) (off : Nat), s.busy = false → off < 4096 → off % 4 = 0 →
    memRead s off =
      (if off = 0x000 then 0x4D4D0100
       else if off = 0x004 then BitVec.ofNat 32 s.ie.toNat
       else if off = 0x008 then
         BitVec.ofNat 32 (s.errcode.toNat * 16 + s.ovr.toNat * 8 + s.err.toNat * 4 + s.done.toNat * 2 + s.busy.toNat)
       else if off = 0x00C then s.cmdLast
       else if off = 0x010 then BitVec.ofNat 32 s.inf.toNat
       else if 0x100 ≤ off ∧ off ≤ 0x2FC then wordOf (s.reg (Fin.ofNat 16 ((off - 0x100) / 32))) ((off - 0x100) % 32 / 4)
       else if 0x300 ≤ off ∧ off ≤ 0x31C then wordOf s.umod ((off - 0x300) / 4)
       else if 0x320 ≤ off ∧ off ≤ 0x33C then wordOf s.ua ((off - 0x320) / 4)
       else if 0x340 ≤ off ∧ off ≤ 0x35C then wordOf s.ub ((off - 0x340) / 4)
       else if 0x400 ≤ off ∧ off ≤ 0x5FC then wordOf (rom (Fin.ofNat 16 ((off - 0x400) / 32))) ((off - 0x400) % 32 / 4)
       else 0, s)

/-- R69, whole: what a write does at every word offset, and that an admitted write always answers a next state. -/
def Obligations.WriteMap : Prop :=
  ∀ (s : State) (off : Nat) (v : Word32), off < 4096 → off % 4 = 0 →
    (s.rstIn = false → hostWrite s (.aperture off) 4 v = .next (memWrite s off v)) ∧
    (off = 0x000 → memWrite s off v = s) ∧
    (off = 0x004 → v.getLsbD 1 = true → (memWrite s off v).blockIsReset) ∧
    (off = 0x004 → v.getLsbD 1 = false → memWrite s off v = { s with ie := v.getLsbD 0 }) ∧
    (off = 0x008 → memWrite s off v = { s with
      done := if v.getLsbD 1 then false else s.done
      err := if v.getLsbD 2 then false else s.err
      errcode := if v.getLsbD 2 then 0 else s.errcode
      ovr := if v.getLsbD 3 then false else s.ovr }) ∧
    (off = 0x00C → s.busy = true → memWrite s off v = { s with ovr := true }) ∧
    (off = 0x00C → s.busy = false → memWrite s off v =
      { s with cmdLast := v, busy := true, done := false, err := false, errcode := 0 }) ∧
    (off = 0x010 → s.busy = false → memWrite s off v = { s with inf := BitVec.ofNat 8 v.toNat }) ∧
    (0x100 ≤ off → off ≤ 0x2FC → s.busy = false → ∃ v', memWrite s off v = s.setReg (Fin.ofNat 16 ((off - 0x100) / 32)) v' ∧
      wordReplaced (s.reg (Fin.ofNat 16 ((off - 0x100) / 32))) v' ((off - 0x100) % 32 / 4) v) ∧
    (0x300 ≤ off → off ≤ 0x31C → s.busy = false → ∃ v', memWrite s off v = { s with umod := v' } ∧
      wordReplaced s.umod v' ((off - 0x300) / 4) v) ∧
    (0x320 ≤ off → off ≤ 0x33C → s.busy = false → ∃ v', memWrite s off v = { s with ua := v' } ∧
      wordReplaced s.ua v' ((off - 0x320) / 4) v) ∧
    (0x340 ≤ off → off ≤ 0x35C → s.busy = false → ∃ v', memWrite s off v = { s with ub := v' } ∧
      wordReplaced s.ub v' ((off - 0x340) / 4) v) ∧
    ((0x014 ≤ off ∧ off ≤ 0x0FC) ∨ (0x360 ≤ off ∧ off ≤ 0xFFC) → memWrite s off v = s)

/-- R63, whole: word j of a value at `S + 4·j` is its bits `255 − 32·j : 224 − 32·j`, for every region, and a write of word j
replaces exactly those bits. -/
def Obligations.WordLayoutOfTheAperture : Prop :=
  ∀ (s : State) (j : Fin 8) (w : Word32), s.busy = false →
    (∀ (i : Reg) (n : Nat), n < 32 →
      ((memRead s (0x100 + 32 * i.val + 4 * j.val)).1).getLsbD n = (s.reg i).getLsbD (224 - 32 * j.val + n)) ∧
    (∀ n, n < 32 → ((memRead s (0x300 + 4 * j.val)).1).getLsbD n = s.umod.getLsbD (224 - 32 * j.val + n)) ∧
    (∀ n, n < 32 → ((memRead s (0x320 + 4 * j.val)).1).getLsbD n = s.ua.getLsbD (224 - 32 * j.val + n)) ∧
    (∀ n, n < 32 → ((memRead s (0x340 + 4 * j.val)).1).getLsbD n = s.ub.getLsbD (224 - 32 * j.val + n)) ∧
    (∀ (e : Fin 16) (n : Nat), n < 32 →
      ((memRead s (0x400 + 32 * e.val + 4 * j.val)).1).getLsbD n = (rom e).getLsbD (224 - 32 * j.val + n)) ∧
    (∀ i : Reg, wordReplaced (s.reg i) ((memWrite s (0x100 + 32 * i.val + 4 * j.val) w).reg i) j.val w) ∧
    wordReplaced s.umod (memWrite s (0x300 + 4 * j.val) w).umod j.val w ∧
    wordReplaced s.ua (memWrite s (0x320 + 4 * j.val) w).ua j.val w ∧
    wordReplaced s.ub (memWrite s (0x340 + 4 * j.val) w).ub j.val w

/-- R68: while BUSY = 1 a read of a locked word returns a BUSY_READ value, a write to one or to CMD is dropped and sets OVR, and
the other regions behave as when not busy, STATUS with its BUSY bit 1. That the n-th such read returns the opaque
`Config.busyRead n`, and that `draws` counts them, is the model's choice (log 2). -/
def Obligations.BusyLock : Prop :=
  ∀ (s : State) (off : Nat) (v : Word32), s.busy = true → off < 4096 → off % 4 = 0 →
    (off = 0x010 ∨ (0x100 ≤ off ∧ off ≤ 0x35C) →
      memRead s off = (Config.busyRead s.draws, { s with draws := s.draws + 1 }) ∧ memWrite s off v = { s with ovr := true }) ∧
    (off = 0x00C → memWrite s off v = { s with ovr := true }) ∧
    (¬ (off = 0x010 ∨ (0x100 ≤ off ∧ off ≤ 0x35C)) →
      (memRead s off).2 = s ∧ (off ≠ 0x008 → (memRead s off).1 = (memRead { s with busy := false } off).1)) ∧
    (off = 0x008 → (memRead s off).1 = (memRead { s with busy := false } off).1 ||| 1) ∧
    (off = 0x004 ∧ v.getLsbD 1 = true → memWrite s off v = memWrite { s with busy := false } off v) ∧
    (¬ (off = 0x010 ∨ (0x100 ≤ off ∧ off ≤ 0x35C)) → off ≠ 0x00C → ¬ (off = 0x004 ∧ v.getLsbD 1 = true) →
      memWrite s off v = { memWrite { s with busy := false } off v with busy := true })

/-- R74, R224: a read right after a write of an operand or user-curve word, or of INF, returns the written value. -/
def Obligations.ReadAfterWriteReturnsTheValue : Prop :=
  ∀ (s : State) (off : Nat) (v : Word32), s.busy = false → off % 4 = 0 →
    (0x100 ≤ off → off ≤ 0x35C → memRead (memWrite s off v) off = (v, memWrite s off v)) ∧
    (off = 0x010 → (memRead (memWrite s off v) off).1 = v &&& 0xFF)

/-- R63, R72: a write to an operand or user-curve word, to INF, to the ROM window, to ID or to a reserved offset leaves every
other word of the aperture, and everything outside the registers it writes, as it was. -/
def Obligations.WriteLeavesTheOtherWords : Prop :=
  ∀ (s : State) (off off' : Nat) (v : Word32), s.busy = false → off < 4096 → off % 4 = 0 → off' < 4096 → off' % 4 = 0 →
    off ≠ off' → off ≠ 0x004 → off ≠ 0x008 → off ≠ 0x00C →
    wordUnchanged s (memWrite s off v) off' ∧ (memWrite s off v).busy = s.busy ∧
      (memWrite s off v).program = s.program ∧ (memWrite s off v).schedule = s.schedule

/-- R60, R66, R213: which host reads and writes are admitted, and where BASE comes in. The two forms of an address (log 4), the
fault of an access outside the aperture (log 5), and that a wrong width is the reason given when the offset is misaligned too
(log 6) are the model's choices, and so is the reset input as a level (log 7). -/
def Obligations.AdmittedAccesses : Prop :=
  Config.base % 4096 = 0 ∧
  ∀ (s : State) (a : BusAddr) (off width : Nat) (v : Word32) (rest : List HostOp),
    (s.rstIn = true →
      (s.program = .read a width :: rest → hostTurn s = .refused .accessDuringReset) ∧
      (s.program = .write a width v :: rest → hostTurn s = .refused .accessDuringReset)) ∧
    (s.rstIn = false → outside a →
      (s.program = .read a width :: rest → hostTurn s = .fault .outsideAperture) ∧
      (s.program = .write a width v :: rest → hostTurn s = .fault .outsideAperture)) ∧
    (s.rstIn = false → names a off → width ≠ 4 →
      (s.program = .read a width :: rest → hostTurn s = .refused .accessWidth) ∧
      (s.program = .write a width v :: rest → hostTurn s = .refused .accessWidth)) ∧
    (s.rstIn = false → names a off → off % 4 ≠ 0 →
      (s.program = .read a 4 :: rest → hostTurn s = .refused .accessMisaligned) ∧
      (s.program = .write a 4 v :: rest → hostTurn s = .refused .accessMisaligned)) ∧
    (s.rstIn = false → names a off → off % 4 = 0 →
      (s.program = .read a 4 :: rest → hostTurn s = .next { (memRead { s with program := rest } off).2 with
        reads := (memRead { s with program := rest } off).1 :: s.reads }) ∧
      (s.program = .write a 4 v :: rest → hostTurn s = .next (memWrite { s with program := rest } off v)))

/-- R103's WR256 and RD256, on an idle block whose host moves alone (schedule used up, log 1): eight steps store all 256 bits of a
register or user-curve register, eight steps read all 256 bits of one or of a ROM entry, and nothing else changes. -/
def Obligations.WideTransfersMoveAllBits : Prop :=
  ∀ (s : State) (rest : List HostOp) (i : Reg) (e : Fin 16) (v : Word256), s.busy = false → s.rstIn = false → s.schedule = [] →
    Sys2Proof.core.run 8 { s with program := wr256 (regOffset i) v ++ rest } =
      .next { s with x := s.x.set i.val v, program := rest } ∧
    Sys2Proof.core.run 8 { s with program := wr256 0x300 v ++ rest } = .next { s with umod := v, program := rest } ∧
    Sys2Proof.core.run 8 { s with program := wr256 0x320 v ++ rest } = .next { s with ua := v, program := rest } ∧
    Sys2Proof.core.run 8 { s with program := wr256 0x340 v ++ rest } = .next { s with ub := v, program := rest } ∧
    (∃ l, Sys2Proof.core.run 8 { s with program := rd256 (regOffset i) ++ rest } = .next { s with program := rest, reads := l } ∧
      assembled l = (s.reg i).toNat) ∧
    (∃ l, Sys2Proof.core.run 8 { s with program := rd256 0x300 ++ rest } = .next { s with program := rest, reads := l } ∧
      assembled l = s.umod.toNat) ∧
    (∃ l, Sys2Proof.core.run 8 { s with program := rd256 0x320 ++ rest } = .next { s with program := rest, reads := l } ∧
      assembled l = s.ua.toNat) ∧
    (∃ l, Sys2Proof.core.run 8 { s with program := rd256 0x340 ++ rest } = .next { s with program := rest, reads := l } ∧
      assembled l = s.ub.toNat) ∧
    (∃ l, Sys2Proof.core.run 8 { s with program := rd256 (romOffset e) ++ rest } = .next { s with program := rest, reads := l } ∧
      assembled l = (rom e).toNat)

/-- R104's LDG and LDINF, on an idle block whose host moves alone (schedule used up, log 1; the write back of the value read, log 9):
LDG leaves G in the pair, LDINF leaves ∞ in it, and no other register, flag or user-curve register changes. -/
def Obligations.LdgAndLdinfLoadThePair : Prop :=
  ∀ (s : State) (rest : List HostOp) (rd : Reg), Reg.even rd = true → s.busy = false → s.rstIn = false → s.schedule = [] →
    (∃ t, Sys2Proof.core.run 8 { s with program := pseudoLdg rd ++ rest } = .next t ∧ t.program = rest ∧ t.busy = false ∧
      t.reg rd = rom 4 ∧ t.reg (rd + 1) = rom 5 ∧ t.infFlag (pairOf rd) = false ∧
      (∀ r, r ≠ rd → r ≠ rd + 1 → t.reg r = s.reg r) ∧ (∀ k, k ≠ pairOf rd → t.infFlag k = s.infFlag k) ∧
      t.umod = s.umod ∧ t.ua = s.ua ∧ t.ub = s.ub) ∧
    (∃ t, Sys2Proof.core.run 2 { s with program := pseudoLdinf rd ++ rest } = .next t ∧ t.program = rest ∧ t.busy = false ∧
      t.infFlag (pairOf rd) = true ∧ t.x = s.x ∧ (∀ k, k ≠ pairOf rd → t.infFlag k = s.infFlag k) ∧
      t.umod = s.umod ∧ t.ua = s.ua ∧ t.ub = s.ub)

/-! Status, control, reset, interrupt -/

/-- R32: the bits of STATUS as read, and the write-one-to-clear; bits 0 and 7:4 of the written value are ignored. -/
def Obligations.StatusBitsAndClearing : Prop :=
  ∀ (s : State) (v v' : Word32),
    (memRead s 0x008).2 = s ∧
    ((memRead s 0x008).1.getLsbD 0 = s.busy ∧ (memRead s 0x008).1.getLsbD 1 = s.done ∧ (memRead s 0x008).1.getLsbD 2 = s.err ∧
      (memRead s 0x008).1.getLsbD 3 = s.ovr ∧ (memRead s 0x008).1.extractLsb' 4 4 = s.errcode ∧
      (memRead s 0x008).1.extractLsb' 8 24 = 0) ∧
    (v.getLsbD 1 = v'.getLsbD 1 → v.getLsbD 2 = v'.getLsbD 2 → v.getLsbD 3 = v'.getLsbD 3 →
      memWrite s 0x008 v = memWrite s 0x008 v') ∧
    (memWrite s 0x008 v).busy = s.busy ∧ (memWrite s 0x008 v).done = (s.done && !v.getLsbD 1) ∧
    (memWrite s 0x008 v).err = (s.err && !v.getLsbD 2) ∧ (memWrite s 0x008 v).ovr = (s.ovr && !v.getLsbD 3) ∧
    (memWrite s 0x008 v).errcode = (if v.getLsbD 2 then 0 else s.errcode)

/-- R31, whole: CTRL reads IE in bit 0 and 0 elsewhere; a write with bit 1 resets whatever bit 0 is, one without sets IE to bit 0;
busy or not. -/
def Obligations.CtrlReadAndWrite : Prop :=
  ∀ (s : State) (v : Word32),
    memRead s 0x004 = (if s.ie then 1 else 0, s) ∧
    (v.getLsbD 1 = true → (memWrite s 0x004 v).blockIsReset ∧ (memWrite s 0x004 v).ie = false) ∧
    (v.getLsbD 1 = false → memWrite s 0x004 v = { s with ie := v.getLsbD 0 })

/-- R185, whole: the effect of a CMD write while BUSY = 0, on every word, legal or not, and that one while BUSY = 1 is dropped. -/
def Obligations.AcceptanceOfACommand : Prop :=
  ∀ (s : State) (w : Word32),
    (s.busy = false → memWrite s 0x00C w = { s with cmdLast := w, busy := true, done := false, err := false, errcode := 0 }) ∧
    (s.busy = true → memWrite s 0x00C w = { s with ovr := true })

/-- R186, R187: the engine's turn completes the pending command in that one step. That an engine turn while BUSY = 0 is used up and
changes nothing is the model's choice (log 20). -/
def Obligations.EngineCompletesInOneStep : Prop :=
  ∀ s : State,
    (s.busy = true → ∃ t, engineTurn s = .next t ∧ t.busy = false ∧ t.done = true ∧ (t.err = false ↔ t.errcode = 0) ∧
      t.ie = s.ie ∧ t.ovr = s.ovr ∧ t.cmdLast = s.cmdLast) ∧
    (s.busy = false → engineTurn s = .next s)

/-- R211: the state after reset, for the initial state and for the reset of any state; and an idle block executes nothing until
the host writes CMD: a step (log 1) that is no acceptance leaves it idle, completes nothing, and changes the block's state only where
it is the write the host makes next (log 9 for the write back), or a reset (log 7 for the reset input). That an engine turn in the
reset state changes nothing is the model's choice (log 20). -/
def Obligations.ResetClearsTheBlock : Prop :=
  State.reset.blockIsReset ∧ State.reset.irq = false ∧
  (∀ s : State, (softReset s).blockIsReset ∧ (softReset s).irq = false ∧ engineTurn (softReset s) = .next (softReset s) ∧
    memRead (softReset s) 0x000 = (0x4D4D0100, softReset s) ∧
    ∀ (e : Fin 16) (j : Fin 8), (memRead (softReset s) (0x400 + 32 * e.val + 4 * j.val)).1 =
      (memRead s (0x400 + 32 * e.val + 4 * j.val)).1) ∧
  (∀ s t : State, s.busy = false → step s = .next t → ¬ byAcceptance s t →
    t.busy = false ∧ (t.done = true → s.done = true) ∧ (t.err = true → s.err = true) ∧
    (t.x ≠ s.x ∨ t.inf ≠ s.inf ∨ t.umod ≠ s.umod ∨ t.ua ≠ s.ua ∨ t.ub ≠ s.ub ∨ t.ie ≠ s.ie ∨ t.done ≠ s.done ∨ t.err ≠ s.err ∨
        t.ovr ≠ s.ovr ∨ t.errcode ≠ s.errcode ∨ t.cmdLast ≠ s.cmdLast →
      byHostWrite s t ∨ byReset s t))

/-- R210, R212, R213: the hardware reset input and CTRL.SRST both reset in one step and abort a pending command: it never
completes, DONE is not set and irq does not rise; while the input is asserted no host access is admitted. The input as a level,
the releasing turn and what it leaves (log 7), and that an idle engine's turn changes nothing (log 20), are the model's choices. -/
def Obligations.ResetAbortsThePendingCommand : Prop :=
  ∀ (s : State) (v : Word32) (op : HostOp) (rest : List HostOp), s.busy = true →
    (∃ t, takeTurn s .assertReset = .next t ∧ t.blockIsReset ∧ t.rstIn = true ∧ engineTurn t = .next t ∧ t.irq = false ∧
      (t.program = op :: rest → hostTurn t = .refused .accessDuringReset) ∧
      ∃ u, takeTurn t .releaseReset = .next u ∧ u.blockIsReset ∧ u.rstIn = false) ∧
    (v.getLsbD 1 = true → (memWrite s 0x004 v).blockIsReset ∧ engineTurn (memWrite s 0x004 v) = .next (memWrite s 0x004 v) ∧
      (memWrite s 0x004 v).irq = false)

/-- R44, R190: irq is IE ∧ DONE; a completion makes it IE; a write of 1 to STATUS bit 1, an accepted CMD write and a reset clear
it. -/
def Obligations.IrqIsEnableAndDone : Prop :=
  ∀ (s : State) (v : Word32),
    (s.irq = true ↔ s.ie = true ∧ s.done = true) ∧
    (v.getLsbD 1 = true → (memWrite s 0x008 v).irq = false) ∧
    (s.busy = false → (memWrite s 0x00C v).irq = false) ∧
    (softReset s).irq = false ∧
    (s.busy = true → ∃ t, engineTurn s = .next t ∧ t.irq = s.ie)

/-- R191, over the model's step (log 1): irq rises only by a completion with IE = 1, or by IE being set while DONE = 1. -/
def Obligations.IrqRisesOnlyByCompletionOrEnable : Prop :=
  ∀ s t : State, step s = .next t → s.irq = false → t.irq = true →
    (s.busy = true ∧ t.busy = false ∧ s.ie = true ∧ t.ie = true) ∨ (s.ie = false ∧ t.ie = true ∧ s.done = true ∧ t.done = true)

/-! Rules of the whole machine -/

/-- R32, R36, R189, over the model's step (log 1): each bit of STATUS, ERRCODE and CMD_LAST changes only by the events the spec
names for it, a write being the host's next access (log 9 for the write back; log 7 for the reset input). The falls of ERR and the changes
of ERRCODE are asked of states that meet the invariant. -/
def Obligations.StatusChangesOnlyAsSpecified : Prop :=
  ∀ s t : State, step s = .next t →
    (s.busy = false → t.busy = true → byAcceptance s t) ∧
    (s.busy = true → t.busy = false → byCompletion s t ∨ byReset s t) ∧
    (t.cmdLast ≠ s.cmdLast → byAcceptance s t ∨ byReset s t) ∧
    (s.done = false → t.done = true → byCompletion s t) ∧
    (s.done = true → t.done = false → byStatusWrite 1 s t ∨ byAcceptance s t ∨ byReset s t) ∧
    (s.err = false → t.err = true → byCompletion s t) ∧
    (s.Inv → s.err = true → t.err = false → t.errcode = 0 ∧ (byStatusWrite 2 s t ∨ byAcceptance s t ∨ byReset s t)) ∧
    (s.Inv → t.errcode ≠ s.errcode →
      (t.err = true ∧ byCompletion s t) ∨ (s.err = true ∧ t.err = false ∧ t.errcode = 0)) ∧
    (s.ovr = false → t.ovr = true → byDroppedWrite s t) ∧
    (s.ovr = true → t.ovr = false → byStatusWrite 3 s t ∨ byReset s t)

/-- R24, and R73, which the spec marks as its inference, over the model's step (log 1): while BUSY = 1 the operands of the pending
command, and the command, keep their values in every step that does not end the command. -/
def Obligations.OperandsAreStableWhileBusy : Prop :=
  ∀ s t : State, s.busy = true → step s = .next t → t.busy = true →
    t.x = s.x ∧ t.inf = s.inf ∧ t.umod = s.umod ∧ t.ua = s.ua ∧ t.ub = s.ub ∧ t.cmdLast = s.cmdLast

/-- R188, and R73 and R75, which the spec marks as its inferences, over the model's steps (log 1): however the host's accesses
interleave with a pending command, its completion commits what the command gives on the state right after its acceptance. -/
def Obligations.CompletionIsIndependentOfInterleaving : Prop :=
  ∀ (n : Nat) (s t : State) (i : Instr), s.busy = true → busyRun n s t → decode s.cmdLast = .ok i →
    ∃ u v, exec i s = .next u ∧ engineTurn t = .next v ∧ v.x = u.x ∧ v.inf = u.inf ∧ v.err = u.err ∧ v.errcode = u.errcode ∧
      v.done = u.done ∧ v.busy = u.busy ∧ v.umod = u.umod ∧ v.ua = u.ua ∧ v.ub = u.ub

/-- R226, as the model's schedule shows it (log 1): a host that polls STATUS sees BUSY = 0 after finitely many steps, when the
platform does not reset the block. -/
def Obligations.PollingHostSeesCompletion : Prop :=
  ∀ (s : State) (rest : List HostOp), s.busy = true → s.rstIn = false → s.program = .wait :: rest →
    (∀ t ∈ s.schedule, t = .host ∨ t = .engine) →
    ∃ (n : Nat) (t : State), n ≤ s.schedule.length + 2 ∧ Sys2Proof.core.run n s = .next t ∧ t.busy = false ∧ t.done = true ∧
      t.program = rest

/-- R32, R182, R213: every step (log 1, log 7) keeps the machine's invariant. -/
def Obligations.EveryStepKeepsTheInvariant : Prop :=
  ∀ s t : State, s.Inv → step s = .next t → t.Inv

/-- The reset state meets the machine's invariant. -/
def Obligations.ResetMeetsTheInvariant : Prop := State.reset.Inv
end

