-- ==== Sys2Proof/Laws/State.lean ====
section
/-! SUPPORT. What each named update of the state does to each field: one lemma per field per update, true by rfl, tagged simp. -/

namespace Sys2Proof.Machine

/-! Writing an operand register -/

@[simp] theorem setReg_x (s : State) (i : Reg) (v : Word256) : (s.setReg i v).x = s.x.set i.val v := rfl
@[simp] theorem setReg_inf (s : State) (i : Reg) (v : Word256) : (s.setReg i v).inf = s.inf := rfl
@[simp] theorem setReg_umod (s : State) (i : Reg) (v : Word256) : (s.setReg i v).umod = s.umod := rfl
@[simp] theorem setReg_ua (s : State) (i : Reg) (v : Word256) : (s.setReg i v).ua = s.ua := rfl
@[simp] theorem setReg_ub (s : State) (i : Reg) (v : Word256) : (s.setReg i v).ub = s.ub := rfl
@[simp] theorem setReg_ie (s : State) (i : Reg) (v : Word256) : (s.setReg i v).ie = s.ie := rfl
@[simp] theorem setReg_busy (s : State) (i : Reg) (v : Word256) : (s.setReg i v).busy = s.busy := rfl
@[simp] theorem setReg_done (s : State) (i : Reg) (v : Word256) : (s.setReg i v).done = s.done := rfl
@[simp] theorem setReg_err (s : State) (i : Reg) (v : Word256) : (s.setReg i v).err = s.err := rfl
@[simp] theorem setReg_ovr (s : State) (i : Reg) (v : Word256) : (s.setReg i v).ovr = s.ovr := rfl
@[simp] theorem setReg_errcode (s : State) (i : Reg) (v : Word256) : (s.setReg i v).errcode = s.errcode := rfl
@[simp] theorem setReg_cmdLast (s : State) (i : Reg) (v : Word256) : (s.setReg i v).cmdLast = s.cmdLast := rfl
@[simp] theorem setReg_rstIn (s : State) (i : Reg) (v : Word256) : (s.setReg i v).rstIn = s.rstIn := rfl
@[simp] theorem setReg_program (s : State) (i : Reg) (v : Word256) : (s.setReg i v).program = s.program := rfl
@[simp] theorem setReg_schedule (s : State) (i : Reg) (v : Word256) : (s.setReg i v).schedule = s.schedule := rfl
@[simp] theorem setReg_reads (s : State) (i : Reg) (v : Word256) : (s.setReg i v).reads = s.reads := rfl
@[simp] theorem setReg_draws (s : State) (i : Reg) (v : Word256) : (s.setReg i v).draws = s.draws := rfl

/-! Writing an infinity flag -/

@[simp] theorem setInf_x (s : State) (k : Pair) (b : Bool) : (s.setInf k b).x = s.x := rfl
@[simp] theorem setInf_inf (s : State) (k : Pair) (b : Bool) : (s.setInf k b).inf = setInfBit s.inf k b := rfl
@[simp] theorem setInf_umod (s : State) (k : Pair) (b : Bool) : (s.setInf k b).umod = s.umod := rfl
@[simp] theorem setInf_ua (s : State) (k : Pair) (b : Bool) : (s.setInf k b).ua = s.ua := rfl
@[simp] theorem setInf_ub (s : State) (k : Pair) (b : Bool) : (s.setInf k b).ub = s.ub := rfl
@[simp] theorem setInf_ie (s : State) (k : Pair) (b : Bool) : (s.setInf k b).ie = s.ie := rfl
@[simp] theorem setInf_busy (s : State) (k : Pair) (b : Bool) : (s.setInf k b).busy = s.busy := rfl
@[simp] theorem setInf_done (s : State) (k : Pair) (b : Bool) : (s.setInf k b).done = s.done := rfl
@[simp] theorem setInf_err (s : State) (k : Pair) (b : Bool) : (s.setInf k b).err = s.err := rfl
@[simp] theorem setInf_ovr (s : State) (k : Pair) (b : Bool) : (s.setInf k b).ovr = s.ovr := rfl
@[simp] theorem setInf_errcode (s : State) (k : Pair) (b : Bool) : (s.setInf k b).errcode = s.errcode := rfl
@[simp] theorem setInf_cmdLast (s : State) (k : Pair) (b : Bool) : (s.setInf k b).cmdLast = s.cmdLast := rfl
@[simp] theorem setInf_rstIn (s : State) (k : Pair) (b : Bool) : (s.setInf k b).rstIn = s.rstIn := rfl
@[simp] theorem setInf_program (s : State) (k : Pair) (b : Bool) : (s.setInf k b).program = s.program := rfl
@[simp] theorem setInf_schedule (s : State) (k : Pair) (b : Bool) : (s.setInf k b).schedule = s.schedule := rfl
@[simp] theorem setInf_reads (s : State) (k : Pair) (b : Bool) : (s.setInf k b).reads = s.reads := rfl
@[simp] theorem setInf_draws (s : State) (k : Pair) (b : Bool) : (s.setInf k b).draws = s.draws := rfl

/-! Write-one-to-clear of STATUS -/

@[simp] theorem clearStatus_x (s : State) (v : Word32) : (s.clearStatus v).x = s.x := rfl
@[simp] theorem clearStatus_inf (s : State) (v : Word32) : (s.clearStatus v).inf = s.inf := rfl
@[simp] theorem clearStatus_umod (s : State) (v : Word32) : (s.clearStatus v).umod = s.umod := rfl
@[simp] theorem clearStatus_ua (s : State) (v : Word32) : (s.clearStatus v).ua = s.ua := rfl
@[simp] theorem clearStatus_ub (s : State) (v : Word32) : (s.clearStatus v).ub = s.ub := rfl
@[simp] theorem clearStatus_ie (s : State) (v : Word32) : (s.clearStatus v).ie = s.ie := rfl
@[simp] theorem clearStatus_busy (s : State) (v : Word32) : (s.clearStatus v).busy = s.busy := rfl
@[simp] theorem clearStatus_done (s : State) (v : Word32) : (s.clearStatus v).done = (s.done && !v.getLsbD 1) := rfl
@[simp] theorem clearStatus_err (s : State) (v : Word32) : (s.clearStatus v).err = (s.err && !v.getLsbD 2) := rfl
@[simp] theorem clearStatus_ovr (s : State) (v : Word32) : (s.clearStatus v).ovr = (s.ovr && !v.getLsbD 3) := rfl
@[simp] theorem clearStatus_errcode (s : State) (v : Word32) : (s.clearStatus v).errcode = (if v.getLsbD 2 then 0 else s.errcode) := rfl
@[simp] theorem clearStatus_cmdLast (s : State) (v : Word32) : (s.clearStatus v).cmdLast = s.cmdLast := rfl
@[simp] theorem clearStatus_rstIn (s : State) (v : Word32) : (s.clearStatus v).rstIn = s.rstIn := rfl
@[simp] theorem clearStatus_program (s : State) (v : Word32) : (s.clearStatus v).program = s.program := rfl
@[simp] theorem clearStatus_schedule (s : State) (v : Word32) : (s.clearStatus v).schedule = s.schedule := rfl
@[simp] theorem clearStatus_reads (s : State) (v : Word32) : (s.clearStatus v).reads = s.reads := rfl
@[simp] theorem clearStatus_draws (s : State) (v : Word32) : (s.clearStatus v).draws = s.draws := rfl

/-! Completion without an error -/

@[simp] theorem succeed_x (s : State) : (s.succeed).x = s.x := rfl
@[simp] theorem succeed_inf (s : State) : (s.succeed).inf = s.inf := rfl
@[simp] theorem succeed_umod (s : State) : (s.succeed).umod = s.umod := rfl
@[simp] theorem succeed_ua (s : State) : (s.succeed).ua = s.ua := rfl
@[simp] theorem succeed_ub (s : State) : (s.succeed).ub = s.ub := rfl
@[simp] theorem succeed_ie (s : State) : (s.succeed).ie = s.ie := rfl
@[simp] theorem succeed_busy (s : State) : (s.succeed).busy = false := rfl
@[simp] theorem succeed_done (s : State) : (s.succeed).done = true := rfl
@[simp] theorem succeed_err (s : State) : (s.succeed).err = false := rfl
@[simp] theorem succeed_ovr (s : State) : (s.succeed).ovr = s.ovr := rfl
@[simp] theorem succeed_errcode (s : State) : (s.succeed).errcode = 0 := rfl
@[simp] theorem succeed_cmdLast (s : State) : (s.succeed).cmdLast = s.cmdLast := rfl
@[simp] theorem succeed_rstIn (s : State) : (s.succeed).rstIn = s.rstIn := rfl
@[simp] theorem succeed_program (s : State) : (s.succeed).program = s.program := rfl
@[simp] theorem succeed_schedule (s : State) : (s.succeed).schedule = s.schedule := rfl
@[simp] theorem succeed_reads (s : State) : (s.succeed).reads = s.reads := rfl
@[simp] theorem succeed_draws (s : State) : (s.succeed).draws = s.draws := rfl

/-! Completion with an error -/

@[simp] theorem raise_x (s : State) (e : ErrorCode) : (s.raise e).x = s.x := rfl
@[simp] theorem raise_inf (s : State) (e : ErrorCode) : (s.raise e).inf = s.inf := rfl
@[simp] theorem raise_umod (s : State) (e : ErrorCode) : (s.raise e).umod = s.umod := rfl
@[simp] theorem raise_ua (s : State) (e : ErrorCode) : (s.raise e).ua = s.ua := rfl
@[simp] theorem raise_ub (s : State) (e : ErrorCode) : (s.raise e).ub = s.ub := rfl
@[simp] theorem raise_ie (s : State) (e : ErrorCode) : (s.raise e).ie = s.ie := rfl
@[simp] theorem raise_busy (s : State) (e : ErrorCode) : (s.raise e).busy = false := rfl
@[simp] theorem raise_done (s : State) (e : ErrorCode) : (s.raise e).done = true := rfl
@[simp] theorem raise_err (s : State) (e : ErrorCode) : (s.raise e).err = true := rfl
@[simp] theorem raise_ovr (s : State) (e : ErrorCode) : (s.raise e).ovr = s.ovr := rfl
@[simp] theorem raise_errcode (s : State) (e : ErrorCode) : (s.raise e).errcode = e.code := rfl
@[simp] theorem raise_cmdLast (s : State) (e : ErrorCode) : (s.raise e).cmdLast = s.cmdLast := rfl
@[simp] theorem raise_rstIn (s : State) (e : ErrorCode) : (s.raise e).rstIn = s.rstIn := rfl
@[simp] theorem raise_program (s : State) (e : ErrorCode) : (s.raise e).program = s.program := rfl
@[simp] theorem raise_schedule (s : State) (e : ErrorCode) : (s.raise e).schedule = s.schedule := rfl
@[simp] theorem raise_reads (s : State) (e : ErrorCode) : (s.raise e).reads = s.reads := rfl
@[simp] theorem raise_draws (s : State) (e : ErrorCode) : (s.raise e).draws = s.draws := rfl

/-! Acceptance of a command -/

@[simp] theorem accept_x (s : State) (w : Word32) : (accept s w).x = s.x := rfl
@[simp] theorem accept_inf (s : State) (w : Word32) : (accept s w).inf = s.inf := rfl
@[simp] theorem accept_umod (s : State) (w : Word32) : (accept s w).umod = s.umod := rfl
@[simp] theorem accept_ua (s : State) (w : Word32) : (accept s w).ua = s.ua := rfl
@[simp] theorem accept_ub (s : State) (w : Word32) : (accept s w).ub = s.ub := rfl
@[simp] theorem accept_ie (s : State) (w : Word32) : (accept s w).ie = s.ie := rfl
@[simp] theorem accept_busy (s : State) (w : Word32) : (accept s w).busy = true := rfl
@[simp] theorem accept_done (s : State) (w : Word32) : (accept s w).done = false := rfl
@[simp] theorem accept_err (s : State) (w : Word32) : (accept s w).err = false := rfl
@[simp] theorem accept_ovr (s : State) (w : Word32) : (accept s w).ovr = s.ovr := rfl
@[simp] theorem accept_errcode (s : State) (w : Word32) : (accept s w).errcode = 0 := rfl
@[simp] theorem accept_cmdLast (s : State) (w : Word32) : (accept s w).cmdLast = w := rfl
@[simp] theorem accept_rstIn (s : State) (w : Word32) : (accept s w).rstIn = s.rstIn := rfl
@[simp] theorem accept_program (s : State) (w : Word32) : (accept s w).program = s.program := rfl
@[simp] theorem accept_schedule (s : State) (w : Word32) : (accept s w).schedule = s.schedule := rfl
@[simp] theorem accept_reads (s : State) (w : Word32) : (accept s w).reads = s.reads := rfl
@[simp] theorem accept_draws (s : State) (w : Word32) : (accept s w).draws = s.draws := rfl

/-! A dropped write -/

@[simp] theorem overrun_x (s : State) : (overrun s).x = s.x := rfl
@[simp] theorem overrun_inf (s : State) : (overrun s).inf = s.inf := rfl
@[simp] theorem overrun_umod (s : State) : (overrun s).umod = s.umod := rfl
@[simp] theorem overrun_ua (s : State) : (overrun s).ua = s.ua := rfl
@[simp] theorem overrun_ub (s : State) : (overrun s).ub = s.ub := rfl
@[simp] theorem overrun_ie (s : State) : (overrun s).ie = s.ie := rfl
@[simp] theorem overrun_busy (s : State) : (overrun s).busy = s.busy := rfl
@[simp] theorem overrun_done (s : State) : (overrun s).done = s.done := rfl
@[simp] theorem overrun_err (s : State) : (overrun s).err = s.err := rfl
@[simp] theorem overrun_ovr (s : State) : (overrun s).ovr = true := rfl
@[simp] theorem overrun_errcode (s : State) : (overrun s).errcode = s.errcode := rfl
@[simp] theorem overrun_cmdLast (s : State) : (overrun s).cmdLast = s.cmdLast := rfl
@[simp] theorem overrun_rstIn (s : State) : (overrun s).rstIn = s.rstIn := rfl
@[simp] theorem overrun_program (s : State) : (overrun s).program = s.program := rfl
@[simp] theorem overrun_schedule (s : State) : (overrun s).schedule = s.schedule := rfl
@[simp] theorem overrun_reads (s : State) : (overrun s).reads = s.reads := rfl
@[simp] theorem overrun_draws (s : State) : (overrun s).draws = s.draws := rfl

/-! The reset of the block -/

@[simp] theorem softReset_x (s : State) : (softReset s).x = Vector.replicate 16 0 := rfl
@[simp] theorem softReset_inf (s : State) : (softReset s).inf = 0 := rfl
@[simp] theorem softReset_umod (s : State) : (softReset s).umod = 0 := rfl
@[simp] theorem softReset_ua (s : State) : (softReset s).ua = 0 := rfl
@[simp] theorem softReset_ub (s : State) : (softReset s).ub = 0 := rfl
@[simp] theorem softReset_ie (s : State) : (softReset s).ie = false := rfl
@[simp] theorem softReset_busy (s : State) : (softReset s).busy = false := rfl
@[simp] theorem softReset_done (s : State) : (softReset s).done = false := rfl
@[simp] theorem softReset_err (s : State) : (softReset s).err = false := rfl
@[simp] theorem softReset_ovr (s : State) : (softReset s).ovr = false := rfl
@[simp] theorem softReset_errcode (s : State) : (softReset s).errcode = 0 := rfl
@[simp] theorem softReset_cmdLast (s : State) : (softReset s).cmdLast = 0 := rfl
@[simp] theorem softReset_rstIn (s : State) : (softReset s).rstIn = s.rstIn := rfl
@[simp] theorem softReset_program (s : State) : (softReset s).program = s.program := rfl
@[simp] theorem softReset_schedule (s : State) : (softReset s).schedule = s.schedule := rfl
@[simp] theorem softReset_reads (s : State) : (softReset s).reads = s.reads := rfl
@[simp] theorem softReset_draws (s : State) : (softReset s).draws = s.draws := rfl

/-! Writing a point: every field but the operand registers and INF stays -/

@[simp] theorem writePoint_umod (s : State) (k : Pair) (q : Point) : (s.writePoint k q).umod = s.umod := by cases q <;> rfl
@[simp] theorem writePoint_ua (s : State) (k : Pair) (q : Point) : (s.writePoint k q).ua = s.ua := by cases q <;> rfl
@[simp] theorem writePoint_ub (s : State) (k : Pair) (q : Point) : (s.writePoint k q).ub = s.ub := by cases q <;> rfl
@[simp] theorem writePoint_ie (s : State) (k : Pair) (q : Point) : (s.writePoint k q).ie = s.ie := by cases q <;> rfl
@[simp] theorem writePoint_busy (s : State) (k : Pair) (q : Point) : (s.writePoint k q).busy = s.busy := by cases q <;> rfl
@[simp] theorem writePoint_done (s : State) (k : Pair) (q : Point) : (s.writePoint k q).done = s.done := by cases q <;> rfl
@[simp] theorem writePoint_err (s : State) (k : Pair) (q : Point) : (s.writePoint k q).err = s.err := by cases q <;> rfl
@[simp] theorem writePoint_ovr (s : State) (k : Pair) (q : Point) : (s.writePoint k q).ovr = s.ovr := by cases q <;> rfl
@[simp] theorem writePoint_errcode (s : State) (k : Pair) (q : Point) : (s.writePoint k q).errcode = s.errcode := by cases q <;> rfl
@[simp] theorem writePoint_cmdLast (s : State) (k : Pair) (q : Point) : (s.writePoint k q).cmdLast = s.cmdLast := by cases q <;> rfl
@[simp] theorem writePoint_rstIn (s : State) (k : Pair) (q : Point) : (s.writePoint k q).rstIn = s.rstIn := by cases q <;> rfl
@[simp] theorem writePoint_program (s : State) (k : Pair) (q : Point) : (s.writePoint k q).program = s.program := by cases q <;> rfl
@[simp] theorem writePoint_schedule (s : State) (k : Pair) (q : Point) : (s.writePoint k q).schedule = s.schedule := by cases q <;> rfl
@[simp] theorem writePoint_reads (s : State) (k : Pair) (q : Point) : (s.writePoint k q).reads = s.reads := by cases q <;> rfl
@[simp] theorem writePoint_draws (s : State) (k : Pair) (q : Point) : (s.writePoint k q).draws = s.draws := by cases q <;> rfl

/-! Committing a command's writes: every field but the operand registers and INF stays -/

@[simp] theorem commit_umod (s : State) (w : Writes) : (s.commit w).umod = s.umod := by cases w <;> simp [State.commit]
@[simp] theorem commit_ua (s : State) (w : Writes) : (s.commit w).ua = s.ua := by cases w <;> simp [State.commit]
@[simp] theorem commit_ub (s : State) (w : Writes) : (s.commit w).ub = s.ub := by cases w <;> simp [State.commit]
@[simp] theorem commit_ie (s : State) (w : Writes) : (s.commit w).ie = s.ie := by cases w <;> simp [State.commit]
@[simp] theorem commit_busy (s : State) (w : Writes) : (s.commit w).busy = s.busy := by cases w <;> simp [State.commit]
@[simp] theorem commit_done (s : State) (w : Writes) : (s.commit w).done = s.done := by cases w <;> simp [State.commit]
@[simp] theorem commit_err (s : State) (w : Writes) : (s.commit w).err = s.err := by cases w <;> simp [State.commit]
@[simp] theorem commit_ovr (s : State) (w : Writes) : (s.commit w).ovr = s.ovr := by cases w <;> simp [State.commit]
@[simp] theorem commit_errcode (s : State) (w : Writes) : (s.commit w).errcode = s.errcode := by cases w <;> simp [State.commit]
@[simp] theorem commit_cmdLast (s : State) (w : Writes) : (s.commit w).cmdLast = s.cmdLast := by cases w <;> simp [State.commit]
@[simp] theorem commit_rstIn (s : State) (w : Writes) : (s.commit w).rstIn = s.rstIn := by cases w <;> simp [State.commit]
@[simp] theorem commit_program (s : State) (w : Writes) : (s.commit w).program = s.program := by cases w <;> simp [State.commit]
@[simp] theorem commit_schedule (s : State) (w : Writes) : (s.commit w).schedule = s.schedule := by cases w <;> simp [State.commit]
@[simp] theorem commit_reads (s : State) (w : Writes) : (s.commit w).reads = s.reads := by cases w <;> simp [State.commit]
@[simp] theorem commit_draws (s : State) (w : Writes) : (s.commit w).draws = s.draws := by cases w <;> simp [State.commit]

/-! Completing a command: the fields outside the operand registers, INF and STATUS stay -/

@[simp] theorem complete_umod (s : State) (r : Except ErrorCode Writes) : (complete s r).umod = s.umod := by cases r <;> simp [complete]
@[simp] theorem complete_ua (s : State) (r : Except ErrorCode Writes) : (complete s r).ua = s.ua := by cases r <;> simp [complete]
@[simp] theorem complete_ub (s : State) (r : Except ErrorCode Writes) : (complete s r).ub = s.ub := by cases r <;> simp [complete]
@[simp] theorem complete_ie (s : State) (r : Except ErrorCode Writes) : (complete s r).ie = s.ie := by cases r <;> simp [complete]
@[simp] theorem complete_busy (s : State) (r : Except ErrorCode Writes) : (complete s r).busy = false := by cases r <;> simp [complete]
@[simp] theorem complete_done (s : State) (r : Except ErrorCode Writes) : (complete s r).done = true := by cases r <;> simp [complete]
@[simp] theorem complete_ovr (s : State) (r : Except ErrorCode Writes) : (complete s r).ovr = s.ovr := by cases r <;> simp [complete]
@[simp] theorem complete_cmdLast (s : State) (r : Except ErrorCode Writes) : (complete s r).cmdLast = s.cmdLast := by cases r <;> simp [complete]
@[simp] theorem complete_rstIn (s : State) (r : Except ErrorCode Writes) : (complete s r).rstIn = s.rstIn := by cases r <;> simp [complete]
@[simp] theorem complete_program (s : State) (r : Except ErrorCode Writes) : (complete s r).program = s.program := by cases r <;> simp [complete]
@[simp] theorem complete_schedule (s : State) (r : Except ErrorCode Writes) : (complete s r).schedule = s.schedule := by cases r <;> simp [complete]
@[simp] theorem complete_reads (s : State) (r : Except ErrorCode Writes) : (complete s r).reads = s.reads := by cases r <;> simp [complete]
@[simp] theorem complete_draws (s : State) (r : Except ErrorCode Writes) : (complete s r).draws = s.draws := by cases r <;> simp [complete]

end Sys2Proof.Machine
end

