-- ==== Sys2Proof/Laws/Words.lean ====
section
/-! SUPPORT. The registers, the infinity flags and the words of a 256-bit value: what a write changes and what it leaves. -/

namespace Sys2Proof.Machine

theorem reg_setReg (s : State) (i j : Reg) (v : Word256) : (s.setReg i v).reg j = if i = j then v else s.reg j := by
  simp only [State.reg, setReg_x, Vector.getElem_set, Fin.ext_iff]

@[simp] theorem reg_setReg_self (s : State) (i : Reg) (v : Word256) : (s.setReg i v).reg i = v := by
  simp [reg_setReg]

theorem reg_setReg_ne (s : State) {i j : Reg} (v : Word256) (h : i ≠ j) : (s.setReg i v).reg j = s.reg j := by
  simp [reg_setReg, h]

@[simp] theorem reg_setInf (s : State) (k : Pair) (b : Bool) (i : Reg) : (s.setInf k b).reg i = s.reg i := rfl

theorem setInfBit_getLsbD (inf : BitVec 8) (k j : Pair) (b : Bool) :
    (setInfBit inf k b).getLsbD j.val = if k = j then b else inf.getLsbD j.val := by
  have hj := j.isLt
  have bit : (1#8 <<< k.val).getLsbD j.val = decide (k = j) := by
    simp only [BitVec.getLsbD_shiftLeft, BitVec.getLsbD_one, Fin.ext_iff]
    by_cases h : k.val = j.val
    · simp [h, hj]
    · by_cases hlt : j.val < k.val
      · simp [hlt, h]
      · have : j.val - k.val ≠ 0 := by omega
        simp [this, h]
  cases b
  · simp only [setInfBit, Bool.false_eq_true, if_false, BitVec.getLsbD_and, BitVec.getLsbD_not, bit, hj]
    by_cases h : k = j <;> simp [h]
  · simp only [setInfBit, if_true, BitVec.getLsbD_or, bit]
    by_cases h : k = j <;> simp [h]

@[simp] theorem infFlag_setInf (s : State) (k j : Pair) (b : Bool) :
    (s.setInf k b).infFlag j = if k = j then b else s.infFlag j := by
  simp only [State.infFlag, setInf_inf, setInfBit_getLsbD]

@[simp] theorem infFlag_setReg (s : State) (i : Reg) (v : Word256) (k : Pair) : (s.setReg i v).infFlag k = s.infFlag k := rfl

theorem xReg_ne_yReg (j k : Pair) : xReg j ≠ yReg k := by
  intro h
  have := congrArg Fin.val h
  simp only [xReg, yReg] at this
  omega

/-- Writing a point leaves every register outside its pair (R145). -/
theorem reg_writePoint_ne (s : State) (k : Pair) (q : Point) {r : Reg} (h : r.val / 2 ≠ k.val) :
    (s.writePoint k q).reg r = s.reg r := by
  have hx : xReg k ≠ r := by
    rintro rfl
    exact h (by simp only [xReg]; omega)
  have hy : yReg k ≠ r := by
    rintro rfl
    exact h (by simp only [yReg]; omega)
  cases q <;> simp [State.writePoint, reg_setReg, hx, hy]

/-- Writing a point leaves every other pair's flag (R145). -/
theorem infFlag_writePoint_ne (s : State) {j k : Pair} (q : Point) (h : j ≠ k) :
    (s.writePoint k q).infFlag j = s.infFlag j := by
  cases q <;> simp [State.writePoint, h.symm]

theorem getWord_getLsbD (v : Word256) (j : Fin 8) (n : Nat) :
    (getWord v j).getLsbD n = (decide (n < 32) && v.getLsbD (224 - 32 * j.val + n)) := by
  simp [getWord, BitVec.getLsbD_extractLsb']

/-- A written word replaces exactly its 32 bits (R63). -/
theorem setWord_getLsbD (v : Word256) (j : Fin 8) (w : Word32) (n : Nat) :
    (setWord v j w).getLsbD n =
      if 224 - 32 * j.val ≤ n ∧ n < 256 - 32 * j.val then w.getLsbD (n - (224 - 32 * j.val)) else v.getLsbD n := by
  have hj := j.isLt
  simp only [setWord, BitVec.getLsbD_or, BitVec.getLsbD_and, BitVec.getLsbD_not, BitVec.getLsbD_shiftLeft,
    BitVec.zeroExtend_eq_setWidth, BitVec.getLsbD_setWidth, BitVec.getLsbD_allOnes]
  by_cases inside : 224 - 32 * j.val ≤ n ∧ n < 256 - 32 * j.val
  · rw [if_pos inside]
    have h1 : n < 256 := by omega
    have h2 : ¬ n < 224 - 32 * j.val := by omega
    have h3 : n - (224 - 32 * j.val) < 256 := by omega
    have h4 : n - (224 - 32 * j.val) < 32 := by omega
    simp [h1, h2, h3, h4]
  · rw [if_neg inside]
    by_cases h1 : n < 256
    · by_cases h2 : n < 224 - 32 * j.val
      · simp [h1, h2]
      · have h4 : ¬ n - (224 - 32 * j.val) < 32 := by omega
        have h5 : w.getLsbD (n - (224 - 32 * j.val)) = false := BitVec.getLsbD_of_ge _ _ (by omega)
        simp [h1, h2, h4, h5]
    · simp [h1, BitVec.getLsbD_of_ge v n (by omega)]

theorem getWord_setWord_self (v : Word256) (j : Fin 8) (w : Word32) : getWord (setWord v j w) j = w := by
  have hj := j.isLt
  apply BitVec.eq_of_getLsbD_eq
  intro n hn
  rw [getWord_getLsbD, setWord_getLsbD, if_pos (by omega)]
  simp [hn]

theorem getWord_setWord_ne (v : Word256) {i j : Fin 8} (w : Word32) (h : i ≠ j) :
    getWord (setWord v i w) j = getWord v j := by
  have hi := i.isLt
  have hj := j.isLt
  have h' : i.val ≠ j.val := fun e => h (Fin.ext e)
  apply BitVec.eq_of_getLsbD_eq
  intro n hn
  rw [getWord_getLsbD, setWord_getLsbD, if_neg (by omega), getWord_getLsbD]

end Sys2Proof.Machine
end

