-- ==== Sys2Proof/Laws/Bus.lean ====
section
/-! SUPPORT. What the bus operations can do: which accesses are admitted, what a read and a write answer in each case. -/

namespace Sys2Proof.Machine

/-- An admitted access is an aligned 32-bit access inside the aperture, with the reset input released (R60, R66, R213). -/
theorem admitAccess_next {s : State} {a : BusAddr} {width off : Nat} (h : admitAccess s a width = .next off) :
    s.rstIn = false ∧ a.offset = some off ∧ width = 4 ∧ off % 4 = 0 := by
  unfold admitAccess at h
  split at h
  · simp at h
  · cases ha : a.offset with
    | none => simp [ha] at h
    | some o =>
      simp only [ha] at h
      split at h
      · simp at h
      · split at h
        · simp at h
        · injection h with h
          subst h
          simp_all

theorem admitAccess_aperture {s : State} {off : Nat} (hr : s.rstIn = false) (hlt : off < 4096) (hal : off % 4 = 0) :
    admitAccess s (.aperture off) 4 = .next off := by
  simp [admitAccess, BusAddr.offset, hr, hlt, hal]

/-- An offset named by its bus address is the offset named directly (R60). -/
theorem offset_absolute {off : Nat} (h : off < 4096) : (BusAddr.absolute (Config.base + off)).offset = some off := by
  simp [BusAddr.offset, h]

/-- The two forms of an address that name an aperture offset (R60). -/
theorem offset_eq_some_iff {a : BusAddr} {off : Nat} :
    a.offset = some off ↔ off < 4096 ∧ (a = .aperture off ∨ a = .absolute (Config.base + off)) := by
  constructor
  · intro h
    cases a with
    | aperture o =>
      simp only [BusAddr.offset, Option.ite_none_right_eq_some, Option.some.injEq] at h
      obtain ⟨hlt, rfl⟩ := h
      exact ⟨hlt, .inl rfl⟩
    | absolute addr =>
      simp only [BusAddr.offset, Option.ite_none_right_eq_some, Option.some.injEq] at h
      obtain ⟨⟨hle, hlt⟩, rfl⟩ := h
      exact ⟨by omega, .inr (by rw [Nat.add_sub_cancel' hle])⟩
  · rintro ⟨hlt, rfl | rfl⟩
    · simp [BusAddr.offset, hlt]
    · exact offset_absolute hlt

/-! The address map (R62), region by region. -/

@[simp] theorem regionOf_id : regionOf 0x000 = .id := rfl
@[simp] theorem regionOf_ctrl : regionOf 0x004 = .ctrl := rfl
@[simp] theorem regionOf_status : regionOf 0x008 = .status := rfl
@[simp] theorem regionOf_cmd : regionOf 0x00C = .cmd := rfl
@[simp] theorem regionOf_inf : regionOf 0x010 = .inf := rfl

theorem regionOf_reg {off : Nat} (h1 : 0x100 ≤ off) (h2 : off ≤ 0x2FC) :
    regionOf off = .reg (Fin.ofNat 16 ((off - 0x100) / 32)) (wordIndex off) := by
  unfold regionOf; split_ifs <;> first | rfl | omega

theorem regionOf_umod {off : Nat} (h1 : 0x300 ≤ off) (h2 : off ≤ 0x31C) : regionOf off = .umod (wordIndex off) := by
  unfold regionOf; split_ifs <;> first | rfl | omega

theorem regionOf_ua {off : Nat} (h1 : 0x320 ≤ off) (h2 : off ≤ 0x33C) : regionOf off = .ua (wordIndex off) := by
  unfold regionOf; split_ifs <;> first | rfl | omega

theorem regionOf_ub {off : Nat} (h1 : 0x340 ≤ off) (h2 : off ≤ 0x35C) : regionOf off = .ub (wordIndex off) := by
  unfold regionOf; split_ifs <;> first | rfl | omega

theorem regionOf_rom {off : Nat} (h1 : 0x400 ≤ off) (h2 : off ≤ 0x5FC) :
    regionOf off = .rom (Fin.ofNat 16 ((off - 0x400) / 32)) (wordIndex off) := by
  unfold regionOf; split_ifs <;> first | rfl | omega

theorem regionOf_reserved {off : Nat} (hal : off % 4 = 0)
    (h : (0x014 ≤ off ∧ off ≤ 0x0FC) ∨ (0x360 ≤ off ∧ off ≤ 0x3FC) ∨ 0x600 ≤ off) : regionOf off = .reserved := by
  unfold regionOf; split_ifs <;> first | rfl | omega

/-- Which region an aligned offset lies in. -/
theorem regionOf_cases {off : Nat} (hal : off % 4 = 0) :
    (off = 0x000 ∧ regionOf off = .id) ∨ (off = 0x004 ∧ regionOf off = .ctrl) ∨ (off = 0x008 ∧ regionOf off = .status) ∨
    (off = 0x00C ∧ regionOf off = .cmd) ∨ (off = 0x010 ∧ regionOf off = .inf) ∨
    ((0x100 ≤ off ∧ off ≤ 0x2FC) ∧ regionOf off = .reg (Fin.ofNat 16 ((off - 0x100) / 32)) (wordIndex off)) ∨
    ((0x300 ≤ off ∧ off ≤ 0x31C) ∧ regionOf off = .umod (wordIndex off)) ∨
    ((0x320 ≤ off ∧ off ≤ 0x33C) ∧ regionOf off = .ua (wordIndex off)) ∨
    ((0x340 ≤ off ∧ off ≤ 0x35C) ∧ regionOf off = .ub (wordIndex off)) ∨
    ((0x400 ≤ off ∧ off ≤ 0x5FC) ∧ regionOf off = .rom (Fin.ofNat 16 ((off - 0x400) / 32)) (wordIndex off)) ∨
    (((0x014 ≤ off ∧ off ≤ 0x0FC) ∨ (0x360 ≤ off ∧ off ≤ 0x3FC) ∨ 0x600 ≤ off) ∧ regionOf off = .reserved) := by
  by_cases h0 : off = 0x000
  · exact .inl ⟨h0, h0 ▸ rfl⟩
  refine .inr ?_
  by_cases h1 : off = 0x004
  · exact .inl ⟨h1, h1 ▸ rfl⟩
  refine .inr ?_
  by_cases h2 : off = 0x008
  · exact .inl ⟨h2, h2 ▸ rfl⟩
  refine .inr ?_
  by_cases h3 : off = 0x00C
  · exact .inl ⟨h3, h3 ▸ rfl⟩
  refine .inr ?_
  by_cases h4 : off = 0x010
  · exact .inl ⟨h4, h4 ▸ rfl⟩
  refine .inr ?_
  by_cases h5 : 0x100 ≤ off ∧ off ≤ 0x2FC
  · exact .inl ⟨h5, regionOf_reg h5.1 h5.2⟩
  refine .inr ?_
  by_cases h6 : 0x300 ≤ off ∧ off ≤ 0x31C
  · exact .inl ⟨h6, regionOf_umod h6.1 h6.2⟩
  refine .inr ?_
  by_cases h7 : 0x320 ≤ off ∧ off ≤ 0x33C
  · exact .inl ⟨h7, regionOf_ua h7.1 h7.2⟩
  refine .inr ?_
  by_cases h8 : 0x340 ≤ off ∧ off ≤ 0x35C
  · exact .inl ⟨h8, regionOf_ub h8.1 h8.2⟩
  refine .inr ?_
  by_cases h9 : 0x400 ≤ off ∧ off ≤ 0x5FC
  · exact .inl ⟨h9, regionOf_rom h9.1 h9.2⟩
  have reserved : (0x014 ≤ off ∧ off ≤ 0x0FC) ∨ (0x360 ≤ off ∧ off ≤ 0x3FC) ∨ 0x600 ≤ off := by omega
  exact .inr ⟨reserved, regionOf_reserved hal reserved⟩

/-- The busy-locked offsets: INF, and r0–r15, UMOD, UA and UB, which lie side by side. -/
theorem regionOf_locked_iff {off : Nat} (hal : off % 4 = 0) :
    (regionOf off).locked = true ↔ off = 0x010 ∨ (0x100 ≤ off ∧ off ≤ 0x35C) := by
  unfold regionOf
  split_ifs <;> simp only [Region.locked, Bool.false_eq_true, true_iff, false_iff] <;> omega

/-! The offset of word j of each 256-bit region (R63). -/

theorem regionOf_reg_word : ∀ (i : Reg) (j : Fin 8), regionOf (0x100 + 32 * i.val + 4 * j.val) = .reg i j := by decide

theorem regionOf_umod_word : ∀ j : Fin 8, regionOf (0x300 + 4 * j.val) = .umod j := by decide

theorem regionOf_ua_word : ∀ j : Fin 8, regionOf (0x320 + 4 * j.val) = .ua j := by decide

theorem regionOf_ub_word : ∀ j : Fin 8, regionOf (0x340 + 4 * j.val) = .ub j := by decide

theorem regionOf_rom_word : ∀ (e : Fin 16) (j : Fin 8), regionOf (0x400 + 32 * e.val + 4 * j.val) = .rom e j := by decide

/-! Reads and writes -/

/-- A read of a locked region while BUSY = 1 counts a draw; every other read leaves the state as it is (R67, R68, R72). -/
theorem memRead_state (s : State) (off : Nat) :
    (memRead s off).2 = if s.busy && (regionOf off).locked then { s with draws := s.draws + 1 } else s := by
  unfold memRead
  split <;> rfl

theorem memRead_word (s : State) (off : Nat) :
    (memRead s off).1 =
      if s.busy && (regionOf off).locked then Config.busyRead s.draws else regionWord s (regionOf off) := by
  unfold memRead
  split <;> rfl

/-- What a write can do (R68, R69): overrun, nothing, or the write of its region. -/
theorem memWrite_cases (s : State) (off : Nat) (v : Word32) :
    (s.busy = true ∧ ((regionOf off).locked = true ∨ regionOf off = .cmd) ∧ memWrite s off v = overrun s) ∨
    (regionOf off = .ctrl ∧ v.getLsbD 1 = true ∧ memWrite s off v = softReset s) ∨
    (regionOf off = .ctrl ∧ v.getLsbD 1 = false ∧ memWrite s off v = { s with ie := v.getLsbD 0 }) ∨
    (regionOf off = .status ∧ memWrite s off v = s.clearStatus v) ∨
    (s.busy = false ∧ regionOf off = .cmd ∧ memWrite s off v = accept s v) ∨
    (s.busy = false ∧ regionOf off = .inf ∧ memWrite s off v = { s with inf := v.extractLsb' 0 8 }) ∨
    (s.busy = false ∧ ∃ i j, regionOf off = .reg i j ∧ memWrite s off v = s.setReg i (setWord (s.reg i) j v)) ∨
    (s.busy = false ∧ ∃ j, regionOf off = .umod j ∧ memWrite s off v = { s with umod := setWord s.umod j v }) ∨
    (s.busy = false ∧ ∃ j, regionOf off = .ua j ∧ memWrite s off v = { s with ua := setWord s.ua j v }) ∨
    (s.busy = false ∧ ∃ j, regionOf off = .ub j ∧ memWrite s off v = { s with ub := setWord s.ub j v }) ∨
    memWrite s off v = s := by
  unfold memWrite
  cases hb : s.busy <;> cases hr : regionOf off <;> simp [regionWrite, Region.locked, hb]
  all_goals cases v[1] <;> simp

end Sys2Proof.Machine
end

