-- ==== Sys2Proof/Laws/Commands.lean ====
section
/-! SUPPORT. What a command can do, once for all of them: every meaning is the completion of what the command executes to, and
the operand forms answer a value or one of the error codes the spec lets them raise. -/

namespace Sys2Proof.Machine

/-- `Execute` of R186 for each command: what the command would commit on this state, or the error it raises. -/
def execute (i : Instr) (s : State) : Except ErrorCode Writes :=
  match i with
  | .modaddP rd ra rb => modular .p fAdd rd ra rb s
  | .modaddN rd ra rb => modular .n fAdd rd ra rb s
  | .modaddU rd ra rb => modular .u fAdd rd ra rb s
  | .modsubP rd ra rb => modular .p fSub rd ra rb s
  | .modsubN rd ra rb => modular .n fSub rd ra rb s
  | .modsubU rd ra rb => modular .u fSub rd ra rb s
  | .montmulP rd ra rb => modular .p montMul rd ra rb s
  | .montmulN rd ra rb => modular .n montMul rd ra rb s
  | .montmulU rd ra rb => modular .u montMul rd ra rb s
  | .pchkK ra => pointCheck .k ra s
  | .pchkU ra => pointCheck .u ra s
  | .paddK rd ra rb => pointAdd .k rd ra rb s
  | .paddU rd ra rb => pointAdd .u rd ra rb s
  | .pdblK rd ra => pointDouble .k rd ra s
  | .pdblU rd ra => pointDouble .u rd ra s
  | .smulK rd ra rb => scalarMul .k rd ra rb s
  | .smulU rd ra rb => scalarMul .u rd ra rb s
  | .ldrom rd idx => .ok (.register rd (rom idx))

/-- Every command completes: `exec` is the completion of what the command executes to. -/
theorem exec_eq_complete (i : Instr) (s : State) : exec i s = .next (complete s (execute i s)) := by
  cases i <;> rfl

/-- The one next state of a command. -/
theorem exec_next {i : Instr} {s t : State} (h : exec i s = .next t) : t = complete s (execute i s) := by
  rw [exec_eq_complete] at h
  injection h with h
  exact h.symm

/-! The commands of one operation, by their suffix -/

theorem execute_modaddOf (sel : ModSel) (rd ra rb : Reg) (s : State) :
    execute (modaddOf sel rd ra rb) s = modular sel fAdd rd ra rb s := by
  cases sel <;> rfl

theorem execute_modsubOf (sel : ModSel) (rd ra rb : Reg) (s : State) :
    execute (modsubOf sel rd ra rb) s = modular sel fSub rd ra rb s := by
  cases sel <;> rfl

theorem execute_montmulOf (sel : ModSel) (rd ra rb : Reg) (s : State) :
    execute (montmulOf sel rd ra rb) s = modular sel montMul rd ra rb s := by
  cases sel <;> rfl

theorem execute_pchkOf (sel : CurveSel) (ra : Reg) (s : State) : execute (pchkOf sel ra) s = pointCheck sel ra s := by
  cases sel <;> rfl

theorem execute_paddOf (sel : CurveSel) (rd ra rb : Reg) (s : State) :
    execute (paddOf sel rd ra rb) s = pointAdd sel rd ra rb s := by
  cases sel <;> rfl

theorem execute_pdblOf (sel : CurveSel) (rd ra : Reg) (s : State) : execute (pdblOf sel rd ra) s = pointDouble sel rd ra s := by
  cases sel <;> rfl

theorem execute_smulOf (sel : CurveSel) (rd ra rb : Reg) (s : State) :
    execute (smulOf sel rd ra rb) s = scalarMul sel rd ra rb s := by
  cases sel <;> rfl

/-! Completion -/

/-- What a completion does to STATUS.ERR and ERRCODE. -/
theorem complete_error (s : State) (e : ErrorCode) : complete s (.error e) = s.raise e := rfl

theorem complete_ok (s : State) (w : Writes) : complete s (.ok w) = (s.commit w).succeed := rfl

/-- The errors an operand form may raise (R181). -/
abbrev ErrorCode.isOperandError (e : ErrorCode) : Prop := e = .range ∨ e = .notOnCurve ∨ e = .badMod

theorem modulusOf_error {sel : ModSel} {s : State} {e : ErrorCode} (h : modulusOf sel s = .error e) : e = .badMod := by
  cases sel <;> simp only [modulusOf, reduceCtorEq] at h
  split at h
  · injection h with h; exact h.symm
  · simp at h

theorem modular_cases (sel : ModSel) (op : Nat → Nat → Nat → Nat) (rd ra rb : Reg) (s : State) :
    (∃ e, e.isOperandError ∧ modular sel op rd ra rb s = .error e) ∨
    (∃ m, modulusOf sel s = .ok m ∧ (s.reg ra).toNat < m ∧ (s.reg rb).toNat < m ∧
      modular sel op rd ra rb s = .ok (.register rd (BitVec.ofNat 256 (op m (s.reg ra).toNat (s.reg rb).toNat)))) := by
  unfold modular
  cases hm : modulusOf sel s with
  | error e => exact .inl ⟨e, .inr (.inr (modulusOf_error hm)), rfl⟩
  | ok m =>
    by_cases ha : m ≤ (s.reg ra).toNat
    · exact .inl ⟨.range, .inl rfl, by simp [ha]⟩
    · by_cases hb : m ≤ (s.reg rb).toNat
      · exact .inl ⟨.range, .inl rfl, by simp [ha, hb]⟩
      · exact .inr ⟨m, rfl, by omega, by omega, by simp [ha, hb]⟩

theorem curveOf_error {sel : CurveSel} {s : State} {e : ErrorCode} (h : curveOf sel s = .error e) :
    e = .badMod ∨ e = .range := by
  cases sel <;> simp only [curveOf, reduceCtorEq] at h
  repeat' split at h
  all_goals simp_all

theorem readPoint_error {c : Curve} {k : Pair} {s : State} {e : ErrorCode} (h : readPoint c k s = .error e) :
    e = .range ∨ e = .notOnCurve := by
  unfold readPoint at h
  repeat' split at h
  all_goals simp_all

theorem withPoint_cases (sel : CurveSel) (r : Reg) (s : State) (next : Curve → Point → Writes) :
    (∃ e, e.isOperandError ∧ withPoint sel r s next = .error e) ∨
    (∃ c q, curveOf sel s = .ok c ∧ readPoint c (pairOf r) s = .ok q ∧ withPoint sel r s next = .ok (next c q)) := by
  unfold withPoint
  cases hc : curveOf sel s with
  | error e => exact .inl ⟨e, (curveOf_error hc).elim (.inr ∘ .inr) .inl, rfl⟩
  | ok c =>
    cases hp : readPoint c (pairOf r) s with
    | error e => exact .inl ⟨e, (readPoint_error hp).elim .inl (.inr ∘ .inl), by simp only [hp]⟩
    | ok q => exact .inr ⟨c, q, rfl, hp, by simp only [hp]⟩

theorem withPoints_cases (sel : CurveSel) (ra rb : Reg) (s : State) (next : Curve → Point → Point → Writes) :
    (∃ e, e.isOperandError ∧ withPoints sel ra rb s next = .error e) ∨
    (∃ c p q, curveOf sel s = .ok c ∧ readPoint c (pairOf ra) s = .ok p ∧ readPoint c (pairOf rb) s = .ok q ∧
      withPoints sel ra rb s next = .ok (next c p q)) := by
  unfold withPoints
  cases hc : curveOf sel s with
  | error e => exact .inl ⟨e, (curveOf_error hc).elim (.inr ∘ .inr) .inl, rfl⟩
  | ok c =>
    cases hp : readPoint c (pairOf ra) s with
    | error e => exact .inl ⟨e, (readPoint_error hp).elim .inl (.inr ∘ .inl), by simp only [hp]⟩
    | ok p =>
      cases hq : readPoint c (pairOf rb) s with
      | error e => exact .inl ⟨e, (readPoint_error hq).elim .inl (.inr ∘ .inl), by simp only [hp, hq]⟩
      | ok q => exact .inr ⟨c, p, q, rfl, hp, hq, by simp only [hp, hq]⟩

/-- The errors of R181 a command can raise: no command of the table raises another. -/
theorem execute_error {i : Instr} {s : State} {e : ErrorCode} (h : execute i s = .error e) : e.isOperandError := by
  have fromModular : ∀ sel op rd ra rb, modular sel op rd ra rb s = .error e → e.isOperandError := by
    intro sel op rd ra rb h
    rcases modular_cases sel op rd ra rb s with ⟨e', he, h'⟩ | ⟨m, _, _, _, h'⟩
    · rw [h'] at h; injection h with h; exact h ▸ he
    · rw [h'] at h; exact absurd h (by simp)
  have fromPoint : ∀ sel r next, withPoint sel r s next = .error e → e.isOperandError := by
    intro sel r next h
    rcases withPoint_cases sel r s next with ⟨e', he, h'⟩ | ⟨c, q, _, _, h'⟩
    · rw [h'] at h; injection h with h; exact h ▸ he
    · rw [h'] at h; exact absurd h (by simp)
  have fromPoints : ∀ sel ra rb next, withPoints sel ra rb s next = .error e → e.isOperandError := by
    intro sel ra rb next h
    rcases withPoints_cases sel ra rb s next with ⟨e', he, h'⟩ | ⟨c, p, q, _, _, _, h'⟩
    · rw [h'] at h; injection h with h; exact h ▸ he
    · rw [h'] at h; exact absurd h (by simp)
  cases i <;> simp only [execute, pointCheck, pointAdd, pointDouble, scalarMul, reduceCtorEq] at h
  all_goals first
    | exact fromModular _ _ _ _ _ h
    | exact fromPoint _ _ _ h
    | exact fromPoints _ _ _ _ h

/-- What a point command reads of the state: the user-curve registers, the flags and the operand registers. -/
theorem readPoint_congr {c : Curve} {k : Pair} {s t : State} (hx : s.x = t.x) (hi : s.inf = t.inf) :
    readPoint c k s = readPoint c k t := by
  cases s
  cases t
  simp only at hx hi
  subst hx hi
  rfl

theorem curveOf_congr {sel : CurveSel} {s t : State} (hm : s.umod = t.umod) (ha : s.ua = t.ua) (hb : s.ub = t.ub) :
    curveOf sel s = curveOf sel t := by
  cases s
  cases t
  simp only at hm ha hb
  subst hm ha hb
  rfl

/-- A command executes the same on states with the same operands: no command reads STATUS, CTRL or the environment (R43). -/
theorem execute_congr (i : Instr) {s t : State} (hx : s.x = t.x) (hi : s.inf = t.inf) (hm : s.umod = t.umod)
    (ha : s.ua = t.ua) (hb : s.ub = t.ub) : execute i s = execute i t := by
  cases s
  cases t
  simp only at hx hi hm ha hb
  subst hx hi hm ha hb
  cases i <;> rfl

end Sys2Proof.Machine
end

