-- ==== Sys2Proof/Laws/Decode.lean ====
section
/-! SUPPORT. The fields of a command word: what the encoder puts where, and what the decoder's field readers take. -/

namespace Sys2Proof

/-- The bits of a command word, field by field (R91). -/
theorem commandWord_getLsbD (op : BitVec 4) (rd ra rb : Reg) (msel : BitVec 2) (n : Nat) :
    (commandWord op rd ra rb msel).getLsbD n =
      if n < 4 then op.getLsbD n
      else if n < 8 then rd.val.testBit (n - 4)
      else if n < 12 then ra.val.testBit (n - 8)
      else if n < 16 then rb.val.testBit (n - 12)
      else msel.getLsbD (n - 16) := by
  unfold commandWord
  rw [BitVec.getLsbD_append, BitVec.getLsbD_append, BitVec.getLsbD_append, BitVec.getLsbD_append, BitVec.getLsbD_append]
  simp only [BitVec.getLsbD, BitVec.toNat_ofFin, Nat.sub_sub, Nat.reduceAdd]
  by_cases h4 : n < 4
  · simp [h4]
  · by_cases h8 : n < 8
    · simp [h4, h8, show n - 4 < 4 by omega]
    · by_cases h12 : n < 12
      · simp [h4, h8, h12, show ¬ n - 4 < 4 by omega, show n - 8 < 4 by omega]
      · by_cases h16 : n < 16
        · simp [h4, h8, h12, h16, show ¬ n - 4 < 4 by omega, show ¬ n - 8 < 4 by omega, show n - 12 < 4 by omega]
        · simp only [h4, h8, h12, h16, show ¬ n - 4 < 4 by omega, show ¬ n - 8 < 4 by omega, show ¬ n - 12 < 4 by omega,
            if_false]
          by_cases h18 : n - 16 < 2
          · simp [h18]
          · simp [h18, Nat.testBit_lt_two_pow (lt_of_lt_of_le msel.isLt (Nat.pow_le_pow_right (by omega) (by omega : 2 ≤ n - 16)))]

theorem shiftLeft_or_eq (a b k : Nat) (h : b < 2 ^ k) : a <<< k ||| b = a * 2 ^ k + b := by
  rw [← Nat.shiftLeft_add_eq_or_of_lt h, Nat.shiftLeft_eq]

/-- A command word as a number. -/
theorem commandWord_toNat (op : BitVec 4) (rd ra rb : Reg) (msel : BitVec 2) :
    (commandWord op rd ra rb msel).toNat =
      op.toNat + 16 * rd.val + 256 * ra.val + 4096 * rb.val + 65536 * msel.toNat := by
  have h1 := op.isLt
  have h2 : rd.val < 2 ^ 4 := rd.isLt
  have h3 : ra.val < 2 ^ 4 := ra.isLt
  have h4 : rb.val < 2 ^ 4 := rb.isLt
  have h5 := msel.isLt
  simp only [commandWord, BitVec.toNat_append, BitVec.toNat_ofFin]
  rw [shiftLeft_or_eq _ _ _ h1, shiftLeft_or_eq _ _ _ h2, shiftLeft_or_eq _ _ _ h3, shiftLeft_or_eq _ _ _ h4,
    shiftLeft_or_eq _ _ _ h5]
  simp only [BitVec.toNat_ofNat]
  omega

/-! Each field reader as arithmetic on the word's number. -/

theorem opField_eq (w : Word32) : opField w = w.toNat % 16 := by
  simp [opField]

theorem regField_val (w : Word32) (lo : Nat) : (regField w lo).val = w.toNat / 2 ^ lo % 16 := by
  simp [regField, Nat.shiftRight_eq_div_pow]

theorem rdField_val (w : Word32) : (rdField w).val = w.toNat / 16 % 16 := regField_val w 4

theorem raField_val (w : Word32) : (raField w).val = w.toNat / 256 % 16 := regField_val w 8

theorem rbField_val (w : Word32) : (rbField w).val = w.toNat / 4096 % 16 := regField_val w 12

theorem mselField_eq (w : Word32) : mselField w = w.toNat / 65536 % 4 := by
  simp [mselField, Nat.shiftRight_eq_div_pow]

theorem rsvField_eq (w : Word32) : rsvField w = w.toNat / 262144 := by
  have h := w.isLt
  simp only [rsvField, BitVec.extractLsb'_toNat, Nat.shiftRight_eq_div_pow]
  omega

/-! What each reader takes of an encoded word. -/

theorem opField_commandWord (op : BitVec 4) (rd ra rb : Reg) (msel : BitVec 2) :
    opField (commandWord op rd ra rb msel) = op.toNat := by
  have h1 := op.isLt
  rw [opField_eq, commandWord_toNat]
  omega

theorem rdField_commandWord (op : BitVec 4) (rd ra rb : Reg) (msel : BitVec 2) :
    rdField (commandWord op rd ra rb msel) = rd := by
  have h1 := op.isLt
  apply Fin.ext
  rw [rdField_val, commandWord_toNat]
  omega

theorem raField_commandWord (op : BitVec 4) (rd ra rb : Reg) (msel : BitVec 2) :
    raField (commandWord op rd ra rb msel) = ra := by
  have h1 := op.isLt
  apply Fin.ext
  rw [raField_val, commandWord_toNat]
  omega

theorem rbField_commandWord (op : BitVec 4) (rd ra rb : Reg) (msel : BitVec 2) :
    rbField (commandWord op rd ra rb msel) = rb := by
  have h1 := op.isLt
  apply Fin.ext
  rw [rbField_val, commandWord_toNat]
  omega

theorem mselField_commandWord (op : BitVec 4) (rd ra rb : Reg) (msel : BitVec 2) :
    mselField (commandWord op rd ra rb msel) = msel.toNat := by
  have h1 := op.isLt
  have h2 := msel.isLt
  rw [mselField_eq, commandWord_toNat]
  omega

theorem rsvField_commandWord (op : BitVec 4) (rd ra rb : Reg) (msel : BitVec 2) :
    rsvField (commandWord op rd ra rb msel) = 0 := by
  have h1 := op.isLt
  have h2 := msel.isLt
  rw [rsvField_eq, commandWord_toNat]
  omega

end Sys2Proof
end

