-- ==== Sys2Proof/Laws/Field.lean ====
section
/-! SUPPORT. What the arithmetic of Machine/Field.lean and the loop of Machine/Group.lean compute: square and multiply is the
power, results are reduced, the bound of the loop does not matter, trial division decides primality. -/

namespace Sys2Proof.Machine

theorem fAdd_lt {m : Nat} (hm : 0 < m) (u v : Nat) : fAdd m u v < m := Nat.mod_lt _ hm

theorem fMul_lt {m : Nat} (hm : 0 < m) (u v : Nat) : fMul m u v < m := Nat.mod_lt _ hm

theorem fMulk_lt {m : Nat} (hm : 0 < m) (u k : Nat) : fMulk m u k < m := Nat.mod_lt _ hm

theorem fieldDiv_lt {m : Nat} (hm : 0 < m) (u v : Nat) : fieldDiv m u v < m := Nat.mod_lt _ hm

theorem montMul_lt {m : Nat} (hm : 0 < m) (a b : Nat) : montMul m a b < m := Nat.mod_lt _ hm

/-- The floor modulus of a difference, as an integer (R10). -/
theorem fSub_cast {m : Nat} (hm : 0 < m) (u v : Nat) : (fSub m u v : Int) = ((u : Int) - v) % m := by
  have h : (0 : Int) ≤ ((u : Int) - v) % m := Int.emod_nonneg _ (by omega)
  simp only [fSub, Int.toNat_of_nonneg h]

theorem fSub_lt {m : Nat} (hm : 0 < m) (u v : Nat) : fSub m u v < m := by
  have h := fSub_cast hm u v
  have h2 : ((u : Int) - v) % m < m := Int.emod_lt_of_pos _ (by omega)
  omega

/-- The loop computes `acc · b^e` modulo m when the exponent has at most n bits. -/
theorem powLoop_mod (m : Nat) : ∀ n b e acc, e < 2 ^ n → powLoop m n b e acc % m = acc * b ^ e % m := by
  intro n
  induction n with
  | zero =>
    intro b e acc he
    have : e = 0 := by omega
    simp [powLoop, this]
  | succ n ih =>
    intro b e acc he
    have hlt : e / 2 < 2 ^ n := by omega
    have square : (b * b % m) ^ (e / 2) % m = b ^ (2 * (e / 2)) % m := by
      rw [Nat.pow_mod, Nat.mod_mod, ← Nat.pow_mod, ← pow_two, ← pow_mul]
    rw [powLoop, ih _ _ _ hlt, Nat.mul_mod, square]
    by_cases odd : e % 2 = 1
    · have split : e = 2 * (e / 2) + 1 := by omega
      rw [if_pos odd, Nat.mod_mod, ← Nat.mul_mod]
      congr 1
      conv_rhs => rw [split, pow_succ]
      ring
    · have split : e = 2 * (e / 2) := by omega
      rw [if_neg odd, ← Nat.mul_mod]
      conv_rhs => rw [split]

theorem powLoop_lt {m : Nat} (hm : 0 < m) : ∀ n b e acc, acc < m → powLoop m n b e acc < m := by
  intro n
  induction n with
  | zero => intro b e acc h; exact h
  | succ n ih =>
    intro b e acc h
    rw [powLoop]
    apply ih
    split
    · exact Nat.mod_lt _ hm
    · exact h

theorem powMod_lt {m : Nat} (hm : 0 < m) (b e : Nat) : powMod m b e < m :=
  powLoop_lt hm _ _ _ _ (Nat.mod_lt _ hm)

/-- Square and multiply is the power modulo m, for an exponent of at most 256 bits. -/
theorem powMod_eq {m : Nat} (hm : 0 < m) (b : Nat) {e : Nat} (he : e < 2 ^ 256) : powMod m b e = b ^ e % m := by
  have h := powLoop_mod m 256 (b % m) e (1 % m) he
  rw [Nat.mod_eq_of_lt (powLoop_lt hm _ _ _ _ (Nat.mod_lt _ hm)), Nat.mul_mod, Nat.mod_mod, ← Nat.pow_mod,
    ← Nat.mul_mod, one_mul] at h
  exact h

/-- The bound on the iterations of DoubleAndAdd does not matter once the scalar fits it (log 12). -/
theorem doubleAndAddLoop_bound (c : Curve) : ∀ n k r q, k < 2 ^ n →
    doubleAndAddLoop c (n + 1) k r q = doubleAndAddLoop c n k r q := by
  intro n
  induction n with
  | zero =>
    intro k r q h
    have : k = 0 := by omega
    simp [doubleAndAddLoop, this]
  | succ n ih =>
    intro k r q h
    have hlt : k / 2 < 2 ^ n := by omega
    rw [doubleAndAddLoop, ih _ _ _ hlt]
    rfl

/-- Trial division finds every divisor up to the square root that its bound lets it reach. -/
theorem noDivisorFrom_iff (m : Nat) : ∀ n d, m < (d + n) * (d + n) →
    (noDivisorFrom m n d = true ↔ ∀ k, d ≤ k → k * k ≤ m → ¬ k ∣ m) := by
  intro n
  induction n with
  | zero =>
    intro d h
    refine ⟨fun _ k hk hkm _ => ?_, fun _ => rfl⟩
    have := Nat.mul_le_mul hk hk
    simp only [Nat.add_zero] at h
    omega
  | succ n ih =>
    intro d h
    rw [noDivisorFrom]
    by_cases past : m < d * d
    · rw [if_pos past]
      refine ⟨fun _ k hk hkm _ => ?_, fun _ => rfl⟩
      have := Nat.mul_le_mul hk hk
      omega
    · rw [if_neg past]
      by_cases divides : m % d = 0
      · rw [if_pos divides]
        exact ⟨fun e => absurd e (by simp), fun all => absurd (Nat.dvd_of_mod_eq_zero divides) (all d le_rfl (by omega))⟩
      · rw [if_neg divides, ih (d + 1) (by rwa [Nat.add_right_comm])]
        refine ⟨fun later k hk hkm => ?_, fun all k hk => all k (by omega)⟩
        rcases Nat.eq_or_lt_of_le hk with rfl | hlt
        · exact fun hdvd => divides (Nat.mod_eq_zero_of_dvd hdvd)
        · exact later k hlt hkm

theorem isPrime_iff (m : Nat) : IsPrime m ↔ Nat.Prime m := by
  rw [Nat.prime_def_le_sqrt, IsPrime, noDivisorFrom_iff m m 2 (by nlinarith)]
  simp only [Nat.le_sqrt]

end Sys2Proof.Machine
end

