-- ==== Sys2Proof/Laws/PerInstr.lean ====
section
/-! SUPPORT. The per-instruction family TableRow: the encoding of a well-formed command matches its row of
spec/opcode_table.json, its "match" under its "mask". -/

namespace Sys2Proof.Laws.TableRow

/-- The "mask" of the command's row. -/
def rowMask : Instr → Word32
  | .modaddP _ _ _ => 0xFFFF000F
  | .modaddN _ _ _ => 0xFFFF000F
  | .modaddU _ _ _ => 0xFFFF000F
  | .modsubP _ _ _ => 0xFFFF000F
  | .modsubN _ _ _ => 0xFFFF000F
  | .modsubU _ _ _ => 0xFFFF000F
  | .montmulP _ _ _ => 0xFFFF000F
  | .montmulN _ _ _ => 0xFFFF000F
  | .montmulU _ _ _ => 0xFFFF000F
  | .pchkK _ => 0xFFFFF1FF
  | .pchkU _ => 0xFFFFF1FF
  | .paddK _ _ _ => 0xFFFF111F
  | .paddU _ _ _ => 0xFFFF111F
  | .pdblK _ _ => 0xFFFFF11F
  | .pdblU _ _ => 0xFFFFF11F
  | .smulK _ _ _ => 0xFFFF101F
  | .smulU _ _ _ => 0xFFFF101F
  | .ldrom _ _ => 0xFFFFF00F

/-- The "match" of the command's row. -/
def rowMatch : Instr → Word32
  | .modaddP _ _ _ => 0x00000001
  | .modaddN _ _ _ => 0x00010001
  | .modaddU _ _ _ => 0x00020001
  | .modsubP _ _ _ => 0x00000002
  | .modsubN _ _ _ => 0x00010002
  | .modsubU _ _ _ => 0x00020002
  | .montmulP _ _ _ => 0x00000003
  | .montmulN _ _ _ => 0x00010003
  | .montmulU _ _ _ => 0x00020003
  | .pchkK _ => 0x00000004
  | .pchkU _ => 0x00020004
  | .paddK _ _ _ => 0x00000005
  | .paddU _ _ _ => 0x00020005
  | .pdblK _ _ => 0x00000006
  | .pdblU _ _ => 0x00020006
  | .smulK _ _ _ => 0x00000007
  | .smulU _ _ _ => 0x00020007
  | .ldrom _ _ => 0x00000008

/-- A well-formed command's word matches its row of the table. -/
def Statement (i : Instr) : Prop := i.wellFormed = true → encode i &&& rowMask i = rowMatch i

/-- A command word under a mask, bit by bit. -/
theorem masked (op : BitVec 4) (rd ra rb : Reg) (msel : BitVec 2) (mask want : Word32)
    (h : ∀ n, n < 32 → ((commandWord op rd ra rb msel).getLsbD n && mask.getLsbD n) = want.getLsbD n) :
    commandWord op rd ra rb msel &&& mask = want := by
  apply BitVec.eq_of_getLsbD_eq
  intro n hn
  rw [BitVec.getLsbD_and]
  exact h n hn

theorem even_testBit {r : Reg} (h : Reg.even r = true) : r.val.testBit 0 = false := by
  simp only [Reg.even, beq_iff_eq] at h
  simp [h]

theorem modaddP (rd ra rb : Reg) : Statement (.modaddP rd ra rb) := by
  intro _
  apply masked
  intro n hn
  rw [commandWord_getLsbD]
  interval_cases n <;> simp [rowMask, rowMatch]

theorem modaddN (rd ra rb : Reg) : Statement (.modaddN rd ra rb) := by
  intro _
  apply masked
  intro n hn
  rw [commandWord_getLsbD]
  interval_cases n <;> simp [rowMask, rowMatch]

theorem modaddU (rd ra rb : Reg) : Statement (.modaddU rd ra rb) := by
  intro _
  apply masked
  intro n hn
  rw [commandWord_getLsbD]
  interval_cases n <;> simp [rowMask, rowMatch]

theorem modsubP (rd ra rb : Reg) : Statement (.modsubP rd ra rb) := by
  intro _
  apply masked
  intro n hn
  rw [commandWord_getLsbD]
  interval_cases n <;> simp [rowMask, rowMatch]

theorem modsubN (rd ra rb : Reg) : Statement (.modsubN rd ra rb) := by
  intro _
  apply masked
  intro n hn
  rw [commandWord_getLsbD]
  interval_cases n <;> simp [rowMask, rowMatch]

theorem modsubU (rd ra rb : Reg) : Statement (.modsubU rd ra rb) := by
  intro _
  apply masked
  intro n hn
  rw [commandWord_getLsbD]
  interval_cases n <;> simp [rowMask, rowMatch]

theorem montmulP (rd ra rb : Reg) : Statement (.montmulP rd ra rb) := by
  intro _
  apply masked
  intro n hn
  rw [commandWord_getLsbD]
  interval_cases n <;> simp [rowMask, rowMatch]

theorem montmulN (rd ra rb : Reg) : Statement (.montmulN rd ra rb) := by
  intro _
  apply masked
  intro n hn
  rw [commandWord_getLsbD]
  interval_cases n <;> simp [rowMask, rowMatch]

theorem montmulU (rd ra rb : Reg) : Statement (.montmulU rd ra rb) := by
  intro _
  apply masked
  intro n hn
  rw [commandWord_getLsbD]
  interval_cases n <;> simp [rowMask, rowMatch]

theorem pchkK (ra : Reg) : Statement (.pchkK ra) := by
  intro wf
  have h1 := even_testBit (r := ra) wf
  apply masked
  intro n hn
  rw [commandWord_getLsbD]
  interval_cases n <;> simp [rowMask, rowMatch, h1]

theorem pchkU (ra : Reg) : Statement (.pchkU ra) := by
  intro wf
  have h1 := even_testBit (r := ra) wf
  apply masked
  intro n hn
  rw [commandWord_getLsbD]
  interval_cases n <;> simp [rowMask, rowMatch, h1]

theorem paddK (rd ra rb : Reg) : Statement (.paddK rd ra rb) := by
  intro wf
  simp only [Instr.wellFormed, Bool.and_eq_true] at wf
  have h1 := even_testBit (r := rd) wf.1.1
  have h2 := even_testBit (r := ra) wf.1.2
  have h3 := even_testBit (r := rb) wf.2
  apply masked
  intro n hn
  rw [commandWord_getLsbD]
  interval_cases n <;> simp [rowMask, rowMatch, h1, h2, h3]

theorem paddU (rd ra rb : Reg) : Statement (.paddU rd ra rb) := by
  intro wf
  simp only [Instr.wellFormed, Bool.and_eq_true] at wf
  have h1 := even_testBit (r := rd) wf.1.1
  have h2 := even_testBit (r := ra) wf.1.2
  have h3 := even_testBit (r := rb) wf.2
  apply masked
  intro n hn
  rw [commandWord_getLsbD]
  interval_cases n <;> simp [rowMask, rowMatch, h1, h2, h3]

theorem pdblK (rd ra : Reg) : Statement (.pdblK rd ra) := by
  intro wf
  simp only [Instr.wellFormed, Bool.and_eq_true] at wf
  have h1 := even_testBit (r := rd) wf.1
  have h2 := even_testBit (r := ra) wf.2
  apply masked
  intro n hn
  rw [commandWord_getLsbD]
  interval_cases n <;> simp [rowMask, rowMatch, h1, h2]

theorem pdblU (rd ra : Reg) : Statement (.pdblU rd ra) := by
  intro wf
  simp only [Instr.wellFormed, Bool.and_eq_true] at wf
  have h1 := even_testBit (r := rd) wf.1
  have h2 := even_testBit (r := ra) wf.2
  apply masked
  intro n hn
  rw [commandWord_getLsbD]
  interval_cases n <;> simp [rowMask, rowMatch, h1, h2]

theorem smulK (rd ra rb : Reg) : Statement (.smulK rd ra rb) := by
  intro wf
  simp only [Instr.wellFormed, Bool.and_eq_true] at wf
  have h1 := even_testBit (r := rd) wf.1
  have h2 := even_testBit (r := rb) wf.2
  apply masked
  intro n hn
  rw [commandWord_getLsbD]
  interval_cases n <;> simp [rowMask, rowMatch, h1, h2]

theorem smulU (rd ra rb : Reg) : Statement (.smulU rd ra rb) := by
  intro wf
  simp only [Instr.wellFormed, Bool.and_eq_true] at wf
  have h1 := even_testBit (r := rd) wf.1
  have h2 := even_testBit (r := rb) wf.2
  apply masked
  intro n hn
  rw [commandWord_getLsbD]
  interval_cases n <;> simp [rowMask, rowMatch, h1, h2]

theorem ldrom (rd idx : Reg) : Statement (.ldrom rd idx) := by
  intro _
  apply masked
  intro n hn
  rw [commandWord_getLsbD]
  interval_cases n <;> simp [rowMask, rowMatch]

end Sys2Proof.Laws.TableRow
end

