-- ==== Sys2Proof/Laws/Primes.lean ====
section
/-! SUPPORT. P is prime (spec/40_modular.md R121, spec/41_point.md R154: "P is prime"), by Lucas's test on a certificate: a
primitive root and the prime factors of p − 1, down to primes that trial division settles. -/

set_option maxRecDepth 20000

namespace Sys2Proof.Machine

/-- Lucas's test, run with the model's own power: `a` has order p − 1, so p is prime. -/
theorem prime_of_certificate {p : Nat} (a : Nat) (fs : List Nat) (hp : 1 < p) (hle : p ≤ 2 ^ 256) (primes : ∀ q ∈ fs, q.Prime)
    (factors : fs.prod = p - 1) (one : powMod p a (p - 1) = 1) (order : ∀ q ∈ fs, powMod p a ((p - 1) / q) ≠ 1) : p.Prime := by
  have power : ∀ e, e < 2 ^ 256 → ((a : ZMod p) ^ e = 1 ↔ powMod p a e = 1) := by
    intro e he
    rw [powMod_eq (by omega) a he, ← Nat.cast_pow, ← Nat.cast_one, ZMod.natCast_eq_natCast_iff', Nat.mod_eq_of_lt hp]
  refine lucas_primality p a ((power _ (by omega)).2 one) fun q hq hdvd => ?_
  have small : (p - 1) / q < 2 ^ 256 := lt_of_le_of_lt (Nat.div_le_self _ _) (by omega)
  rw [Ne, power _ small]
  refine order q ?_
  obtain ⟨f, hf, hqf⟩ := hq.prime.dvd_prod_iff.1 (factors ▸ hdvd)
  rwa [(Nat.prime_dvd_prime_iff_eq hq (primes f hf)).1 hqf]

theorem prime_58bit : Nat.Prime 173378833005251801 :=
  prime_of_certificate 6 [2, 2, 2, 5, 5, 2621, 24809, 13331831] (by decide) (by decide) (by norm_num) (by decide) (by decide)
    (by decide)

theorem prime_75bit : Nat.Prime 22149492674086928081353 :=
  prime_of_certificate 5 [2, 2, 2, 3, 5323, 173378833005251801] (by decide) (by decide)
    (by simp only [List.forall_mem_cons, List.not_mem_nil, false_implies, implies_true, prime_58bit]; norm_num) (by decide)
    (by decide) (by decide)

theorem prime_77bit : Nat.Prime 132896956044521568488119 :=
  prime_of_certificate 6 [2, 3, 22149492674086928081353] (by decide) (by decide)
    (by simp only [List.forall_mem_cons, List.not_mem_nil, false_implies, implies_true, prime_75bit]; norm_num) (by decide)
    (by decide) (by decide)

theorem prime_128bit : Nat.Prime 255515944373312847190720520512484175977 :=
  prime_of_certificate 3 [2, 2, 2, 7, 7, 11, 1627, 2657, 4423, 41201, 96557, 7240687, 107590001] (by decide) (by decide)
    (by norm_num) (by decide) (by decide) (by decide)

theorem prime_237bit : Nat.Prime 205115282021455665897114700593932402728804164701536103180137503955397371 :=
  prime_of_certificate 10 [2, 3, 5, 29, 29, 31, 7723, 132896956044521568488119, 255515944373312847190720520512484175977]
    (by decide) (by decide)
    (by simp only [List.forall_mem_cons, List.not_mem_nil, false_implies, implies_true, prime_77bit, prime_128bit]; norm_num)
    (by decide) (by decide) (by decide)

/-- The ROM's P is prime. -/
theorem primeP_prime : Nat.Prime primeP :=
  prime_of_certificate 3 [2, 3, 7, 13441, 205115282021455665897114700593932402728804164701536103180137503955397371]
    (by decide) (by decide)
    (by simp only [List.forall_mem_cons, List.not_mem_nil, false_implies, implies_true, prime_237bit]; norm_num) (by decide)
    (by decide) (by decide)

end Sys2Proof.Machine
end

