-- ==== Sys2Proof/Laws/Step.lean ====
section
/-! SUPPORT. What one step can do, said once: the turn it takes, and what each turn can answer. -/

namespace Sys2Proof.Machine

/-- A step with a turn scheduled takes that turn. -/
theorem step_scheduled {s : State} {t : Turn} {ts : List Turn} (h : s.schedule = t :: ts) :
    step s = takeTurn { s with schedule := ts } t := by
  simp only [step, h]

/-- A step with no turn scheduled takes the default turn. -/
theorem step_default {s : State} (h : s.schedule = []) : step s = takeTurn s s.defaultTurn := by
  simp only [step, h]

/-- Every step is one turn of one agent, on the state less that turn. -/
theorem step_takes_turn (s : State) : ∃ t ts, step s = takeTurn { s with schedule := ts } t ∧
    (s.schedule = t :: ts ∨ (s.schedule = [] ∧ ts = [] ∧ t = s.defaultTurn)) := by
  cases h : s.schedule with
  | nil =>
    refine ⟨s.defaultTurn, [], ?_, .inr ⟨rfl, rfl, rfl⟩⟩
    rw [step_default h, ← h]
  | cons t ts => exact ⟨t, ts, step_scheduled h, .inl rfl⟩

theorem engineTurn_idle {s : State} (h : s.busy = false) : engineTurn s = .next s := by
  simp [engineTurn, h]

theorem engineTurn_busy {s : State} (h : s.busy = true) : engineTurn s = completePending s := by
  simp [engineTurn, h]

/-- `Execute(PEND, state)` of R186: what the pending command would commit, or its error; ERR_ILLEGAL for an illegal word (R98). -/
def executePending (s : State) : Except ErrorCode Writes :=
  match decode s.cmdLast with
  | .ok i => execute i s
  | .error _ => .error .illegal

/-- The pending command always completes, with what it executes to or with ERR_ILLEGAL (R98, R186). -/
theorem completePending_eq (s : State) : completePending s = .next (complete s (executePending s)) := by
  unfold completePending executePending
  cases decode s.cmdLast with
  | ok i => exact exec_eq_complete i s
  | error e => rfl

theorem engineTurn_completes {s : State} (h : s.busy = true) : engineTurn s = .next (complete s (executePending s)) := by
  rw [engineTurn_busy h, completePending_eq]

/-- The errors a completion can report (R181, R182). -/
theorem executePending_error {s : State} {e : ErrorCode} (h : executePending s = .error e) : e.isOperandError ∨ e = .illegal := by
  unfold executePending at h
  cases hd : decode s.cmdLast with
  | ok i => exact .inl (execute_error (by simpa only [hd] using h))
  | error _ =>
    simp only [hd] at h
    injection h with h
    exact .inr h.symm

/-- A host read that answers: the state gains the value read, and counts a draw if it drew BUSY_READ. -/
theorem hostRead_next {s t : State} {a : BusAddr} {width : Nat} (h : hostRead s a width = .next t) :
    ∃ off v d, admitAccess s a width = .next off ∧ t = { s with reads := v :: s.reads, draws := d } := by
  unfold hostRead at h
  cases ha : admitAccess s a width with
  | fault r => simp [ha] at h
  | refused r => simp [ha] at h
  | next off =>
    simp only [ha] at h
    injection h with h
    refine ⟨off, (memRead s off).1, (memRead s off).2.draws, rfl, ?_⟩
    rw [← h, memRead_state]
    split <;> rfl

theorem hostWrite_next {s t : State} {a : BusAddr} {width : Nat} {v : Word32} (h : hostWrite s a width v = .next t) :
    ∃ off, admitAccess s a width = .next off ∧ t = memWrite s off v := by
  unfold hostWrite at h
  cases ha : admitAccess s a width with
  | fault r => simp [ha] at h
  | refused r => simp [ha] at h
  | next off =>
    simp only [ha] at h
    injection h with h
    exact ⟨off, rfl, h.symm⟩

/-- What the host's turn can answer: nothing to do, a read, or the write that stands next in its program, at an admitted offset. -/
theorem hostTurn_next {s t : State} (h : hostTurn s = .next t) :
    t = s ∨
    (∃ p v d, s.rstIn = false ∧ t = { s with program := p, reads := v :: s.reads, draws := d }) ∨
    (∃ a p off v, s.rstIn = false ∧ a.offset = some off ∧ off % 4 = 0 ∧
      (s.program = .write a 4 v :: p ∨ ∃ keep set, s.program = .writeBack a keep set :: p ∧ v = (s.lastRead &&& keep) ||| set) ∧
      t = memWrite { s with program := p } off v) := by
  unfold hostTurn at h
  split at h
  · injection h with h
    exact .inl h.symm
  · rename_i op rest hp
    cases op with
    | write a width v =>
      obtain ⟨off, hadm, ht⟩ := hostWrite_next h
      obtain ⟨hr, ha, rfl, hal⟩ := admitAccess_next hadm
      exact .inr (.inr ⟨a, rest, off, v, hr, ha, hal, .inl hp, ht⟩)
    | writeBack a keep set =>
      obtain ⟨off, hadm, ht⟩ := hostWrite_next h
      obtain ⟨hr, ha, -, hal⟩ := admitAccess_next hadm
      exact .inr (.inr ⟨a, rest, off, _, hr, ha, hal, .inr ⟨keep, set, hp, rfl⟩, ht⟩)
    | read a width =>
      obtain ⟨off, v, d, hadm, ht⟩ := hostRead_next h
      exact .inr (.inl ⟨rest, v, d, (admitAccess_next hadm).1, ht⟩)
    | wait =>
      obtain ⟨off, v, d, hadm, ht⟩ := hostRead_next h
      exact .inr (.inl ⟨_, v, d, (admitAccess_next hadm).1, ht⟩)

/-! Runs: one step at a time, and the steps of an idle block whose host moves alone -/

theorem run_next {n : Nat} {s t : State} (h : step s = .next t) : Sys2Proof.core.run (n + 1) s = Sys2Proof.core.run n t := by
  have answers : Sys2Proof.core.step s = .next t := h
  simp only [Host.Core.run, answers]

theorem step_idle_write {s : State} {off : Nat} {v : Word32} {rest : List HostOp} (hr : s.rstIn = false) (hb : s.busy = false)
    (hs : s.schedule = []) (hp : s.program = .write (.aperture off) 4 v :: rest) (hlt : off < 4096) (hal : off % 4 = 0) :
    step s = .next (memWrite { s with program := rest } off v) := by
  rw [step_default hs]
  simp only [takeTurn, State.defaultTurn, hb, Bool.false_eq_true, if_false, hostTurn, hp, hostOp, hostWrite]
  rw [admitAccess_aperture (by exact hr) hlt hal]

theorem step_idle_read {s : State} {off : Nat} {rest : List HostOp} (hr : s.rstIn = false) (hb : s.busy = false)
    (hs : s.schedule = []) (hp : s.program = .read (.aperture off) 4 :: rest) (hlt : off < 4096) (hal : off % 4 = 0) :
    step s = .next { s with program := rest, reads := regionWord s (regionOf off) :: s.reads } := by
  rw [step_default hs]
  simp only [takeTurn, State.defaultTurn, hb, Bool.false_eq_true, if_false, hostTurn, hp, hostOp, hostRead]
  rw [admitAccess_aperture (by exact hr) hlt hal]
  simp only [memRead, Bool.false_and, Bool.false_eq_true, if_false]
  cases regionOf off <;> simp [regionWord, State.statusWord, State.ctrlWord, State.infWord, State.reg, hb]

/-- Everything one step can do, with the turn it takes: the host reads, or makes the write that stands next in its program; the
engine completes the pending command; the platform moves the reset input; or nothing happens but that a turn is used up. -/
theorem step_next {s t : State} (h : step s = .next t) :
    ∃ turn ts, (s.schedule = turn :: ts ∨ (s.schedule = [] ∧ ts = [] ∧ turn = s.defaultTurn)) ∧
    (t = { s with schedule := ts } ∨
    (∃ p v d, turn = .host ∧ s.rstIn = false ∧ t = { s with schedule := ts, program := p, reads := v :: s.reads, draws := d }) ∨
    (∃ a p off v, turn = .host ∧ s.rstIn = false ∧ a.offset = some off ∧ off % 4 = 0 ∧
      (s.program = .write a 4 v :: p ∨ ∃ keep set, s.program = .writeBack a keep set :: p ∧ v = (s.lastRead &&& keep) ||| set) ∧
      t = memWrite { s with schedule := ts, program := p } off v) ∨
    (turn = .engine ∧ s.busy = true ∧ t = complete { s with schedule := ts } (executePending { s with schedule := ts })) ∨
    (turn = .assertReset ∧ t = { softReset { s with schedule := ts } with rstIn := true }) ∨
    (turn = .releaseReset ∧ t = { s with schedule := ts, rstIn := false })) := by
  obtain ⟨turn, ts, hstep, hturn⟩ := step_takes_turn s
  refine ⟨turn, ts, hturn, ?_⟩
  rw [hstep] at h
  cases turn with
  | host =>
    rcases hostTurn_next h with rfl | ⟨p, v, d, hr, rfl⟩ | ⟨a, p, off, v, hr, ha, hal, hp, rfl⟩
    · exact .inl rfl
    · exact .inr (.inl ⟨p, v, d, rfl, hr, rfl⟩)
    · exact .inr (.inr (.inl ⟨a, p, off, v, rfl, hr, ha, hal, hp, rfl⟩))
  | engine =>
    by_cases hb : s.busy = true
    · rw [takeTurn, engineTurn_completes (by exact hb)] at h
      injection h with h
      exact .inr (.inr (.inr (.inl ⟨rfl, hb, h.symm⟩)))
    · rw [takeTurn, engineTurn_idle (by exact Bool.eq_false_of_not_eq_true hb)] at h
      injection h with h
      exact .inl h.symm
  | assertReset =>
    injection h with h
    exact .inr (.inr (.inr (.inr (.inl ⟨rfl, h.symm⟩))))
  | releaseReset =>
    injection h with h
    exact .inr (.inr (.inr (.inr (.inr ⟨rfl, h.symm⟩))))

end Sys2Proof.Machine
end

