-- ==== Sys2Proof/Tests/Slice0.lean ====
section
/-! SUPPORT. The model's own tests. The words and the values are those of spec/30_encoding.md R105 and spec/95_test_vectors.md
(the section stands in each heading), not the model's answers. Each is one decode, one access or one step. -/

namespace Sys2Proof.Tests

open Machine Claims

set_option maxRecDepth 20000

/-! The small states and projections the tests use -/

/-- The reset state with some operand registers written. -/
def withRegs (l : List (Reg × Nat)) : State := l.foldl (fun s p => s.setReg p.1 (BitVec.ofNat 256 p.2)) State.reset

/-- The same on the user curve `(m, a, b)`. -/
def withCurve (m a b : Nat) (l : List (Reg × Nat)) : State :=
  { withRegs l with umod := BitVec.ofNat 256 m, ua := BitVec.ofNat 256 a, ub := BitVec.ofNat 256 b }

/-- The same on the curve T of section 2: `(223, 0, 7)`. -/
def toy (l : List (Reg × Nat)) : State := withCurve 223 0 7 l

/-- A state with a command pending. -/
def pending (s : State) (w : Word32) : State := accept s w

/-- What `f` reads of the next state. -/
def next {α : Type} (o : Host.Outcome State Fault Refusal) (f : State → α) : Option α :=
  match o with
  | .next t => some (f t)
  | .fault _ => none
  | .refused _ => none

/-- The fault a step ends in. -/
def faultOf (o : Host.Outcome State Fault Refusal) : Option Fault :=
  match o with
  | .next _ => none
  | .fault r => some r
  | .refused _ => none

/-- The refusal a step ends in. -/
def refusalOf (o : Host.Outcome State Fault Refusal) : Option Refusal :=
  match o with
  | .next _ => none
  | .fault _ => none
  | .refused r => some r

/-- The pair k as numbers, with its flag. -/
def pair (k : Pair) (s : State) : Nat × Nat × Bool := ((s.reg (xReg k)).toNat, (s.reg (yReg k)).toNat, s.infFlag k)

/-- The error a word's decoding names. -/
def decodeError (w : Word32) : Option DecodeError :=
  match decode w with
  | .ok _ => none
  | .error e => some e

def gx : Nat := 0x79BE667EF9DCBBAC55A06295CE870B07029BFCDB2DCE28D959F2815B16F81798

def gy : Nat := 0x483ADA7726A3C4655DA4FBFC0E1108A8FD17B448A68554199C47D08FFB10D4B8

/-! Well-formedness: an ill-formed command for each check of R94, R95 and R97 -/

theorem test_wf_refuses_odd_pchk_pair : Instr.wellFormed (.pchkK 1) = false := by decide
theorem test_wf_refuses_odd_pchk_user_pair : Instr.wellFormed (.pchkU 15) = false := by decide
theorem test_wf_refuses_odd_padd_destination : Instr.wellFormed (.paddK 1 2 4) = false := by decide
theorem test_wf_refuses_odd_padd_first_source : Instr.wellFormed (.paddU 2 1 4) = false := by decide
theorem test_wf_refuses_odd_padd_second_source : Instr.wellFormed (.paddK 2 4 1) = false := by decide
theorem test_wf_refuses_odd_pdbl_destination : Instr.wellFormed (.pdblK 3 2) = false := by decide
theorem test_wf_refuses_odd_pdbl_source : Instr.wellFormed (.pdblU 2 3) = false := by decide
theorem test_wf_refuses_odd_smul_destination : Instr.wellFormed (.smulK 5 0 2) = false := by decide
theorem test_wf_refuses_odd_smul_point : Instr.wellFormed (.smulU 4 0 3) = false := by decide
theorem test_wf_refuses_reserved_rom_entry : Instr.wellFormed (.ldrom 0 11) = false := by decide
theorem test_wf_admits_odd_scalar_register : Instr.wellFormed (.smulK 4 9 0) = true := by decide
theorem test_assembler_refuses_odd_pair : assemble (.paddK 1 2 4) = none := by decide

/-! Decoding: a word from R105 or section 2 for every row of the table -/

theorem test_decode_modadd_p : decode 0x00001021 = .ok (.modaddP 2 0 1) := by decide
theorem test_decode_modadd_n : decode 0x00012131 = .ok (.modaddN 3 1 2) := by decide
theorem test_decode_modadd_u : decode 0x00021021 = .ok (.modaddU 2 0 1) := by decide
theorem test_decode_modsub_p : decode 0x00001022 = .ok (.modsubP 2 0 1) := by decide
theorem test_decode_modsub_n : decode 0x00011022 = .ok (.modsubN 2 0 1) := by decide
theorem test_decode_modsub_u : decode 0x0002DEF2 = .ok (.modsubU 15 14 13) := by decide
theorem test_decode_montmul_p : decode 0x00001023 = .ok (.montmulP 2 0 1) := by decide
theorem test_decode_montmul_n : decode 0x00014263 = .ok (.montmulN 6 2 4) := by decide
theorem test_decode_montmul_u : decode 0x00021023 = .ok (.montmulU 2 0 1) := by decide
theorem test_decode_pchk_k : decode 0x00000404 = .ok (.pchkK 4) := by decide
theorem test_decode_pchk_u : decode 0x00020804 = .ok (.pchkU 8) := by decide
theorem test_decode_padd_k : decode 0x0000CAE5 = .ok (.paddK 14 10 12) := by decide
theorem test_decode_padd_u : decode 0x00022045 = .ok (.paddU 4 0 2) := by decide
theorem test_decode_pdbl_k : decode 0x00000026 = .ok (.pdblK 2 0) := by decide
theorem test_decode_pdbl_u : decode 0x00020066 = .ok (.pdblU 6 0) := by decide
theorem test_decode_smul_k : decode 0x000087C7 = .ok (.smulK 12 7 8) := by decide
theorem test_decode_smul_u : decode 0x00020827 = .ok (.smulU 2 8 0) := by decide
theorem test_decode_ldrom : decode 0x00000728 = .ok (.ldrom 2 7) := by decide

/-! Rejected words, by name (section 2.1) -/

theorem test_reject_operation :
    [0x00000000, 0x00000009, 0x0000000F].map decodeError = [some .operation, some .operation, some .operation] := by decide
theorem test_reject_modulus_select : decodeError 0x00031021 = some .modulusSelect := by decide
theorem test_reject_curve_select : [0x00010004, 0x00012045].map decodeError = [some .curveSelect, some .curveSelect] := by decide
theorem test_reject_reserved_bits : decodeError 0x00041021 = some .reservedBits := by decide
theorem test_reject_odd_pair : [0x00002145, 0x00020055].map decodeError = [some .oddPair, some .oddPair] := by decide
theorem test_reject_unused_field :
    [0x00000014, 0x00001026, 0x00020408].map decodeError = [some .unusedField, some .unusedField, some .unusedField] := by decide
theorem test_reject_rom_index : decodeError 0x00000B08 = some .romIndex := by decide

/-! Every row's "match" decodes, and runs as the first command after reset -/

theorem test_every_row_match_decodes :
    ([0x1, 0x10001, 0x20001, 0x2, 0x10002, 0x20002, 0x3, 0x10003, 0x20003, 0x4, 0x20004, 0x5, 0x20005, 0x6, 0x20006, 0x7, 0x20007,
      0x8].map fun w => (decodeTableWord 32 w).isSome) = List.replicate 18 true := by decide

theorem test_every_row_match_runs_first :
    ([0x1, 0x10001, 0x20001, 0x2, 0x10002, 0x20002, 0x3, 0x10003, 0x20003, 0x4, 0x20004, 0x5, 0x20005, 0x6, 0x20006, 0x7, 0x20007,
      0x8].map fun w => next (step (State.reset.withFetchWord 32 w)) fun t => (t.errcode, t.busy)) =
    [some (0, false), some (0, false), some (7, false), some (0, false), some (0, false), some (7, false), some (0, false),
      some (0, false), some (7, false), some (5, false), some (7, false), some (5, false), some (7, false), some (5, false),
      some (7, false), some (5, false), some (7, false), some (0, false)] := by decide

/-! The modular commands (sections 2.2, 2.3, 2.4) -/

theorem test_modadd_p_wraps : next (exec (.modaddP 2 0 1) (withRegs [(0, primeP - 1), (1, 1)])) (·.reg 2) = some 0 := by decide
theorem test_modadd_p_range : next (exec (.modaddP 2 0 1) (withRegs [(0, 1), (1, primeP)])) (·.statusWord) = some 0x26 := by decide
theorem test_modadd_n : next (exec (.modaddN 2 0 1) (withRegs [(0, orderN - 1), (1, 2)])) (·.reg 2) = some 1 := by decide
theorem test_modadd_u : next (exec (.modaddU 2 0 1) (toy [(0, 192), (1, 105)])) (·.reg 2) = some 74 := by decide
theorem test_modadd_u_badmod : next (exec (.modaddU 2 0 1) (withCurve 4 0 7 [])) (·.statusWord) = some 0x76 := by decide
theorem test_modsub_p_gx_gy :
    next (exec (.modsubP 5 0 1) (withRegs [(0, gx), (1, gy)])) (·.reg 5) =
      some 0x31838C07D338F746F7FB6699C076025E058448928748D4BFBDAAB0CB1BE742E0 := by decide
theorem test_modsub_p_source_is_destination :
    next (exec (.modsubP 1 1 1) (withRegs [(1, primeP - 5)])) (·.reg 1) = some 0 := by decide
theorem test_modsub_n_borrows :
    next (exec (.modsubN 2 0 1) (withRegs [(0, 0), (1, 1)])) (·.reg 2) =
      some 0xFFFFFFFFFFFFFFFFFFFFFFFFFFFFFFFEBAAEDCE6AF48A03BBFD25E8CD0364140 := by decide
theorem test_modsub_u_borrows : next (exec (.modsubU 2 0 1) (toy [(0, 17), (1, 56)])) (·.reg 2) = some 184 := by decide
theorem test_montmul_p :
    next (exec (.montmulP 2 0 1) (withRegs [(0, 2), (1, 3)])) (·.reg 2) =
      some 0xBA6E961E7FF51599A9A8908F83B04C4A6C2CD7F928DBC21B115036B23270A640 := by decide
theorem test_montmul_n :
    next (exec (.montmulN 2 0 1) (withRegs [(0, 2), (1, 3)])) (·.reg 2) =
      some 0x1B7336505B7D9D7538FB2486EEDE0435C0FCA9859173284046D2F6B4F27F3A3F := by decide
theorem test_montmul_u_composite : next (exec (.montmulU 2 0 1) (withCurve 9 0 0 [(0, 2), (1, 2)])) (·.reg 2) = some 7 := by decide
theorem test_montmul_u_wide :
    next (exec (.montmulU 2 0 1) (withCurve (2 ^ 255 + 1) 0 0 [(0, 2), (1, 2)])) (·.reg 2) =
      some 0x7FFFFFFFFFFFFFFFFFFFFFFFFFFFFFFFFFFFFFFFFFFFFFFFFFFFFFFFFFFFFFFF := by decide

/-! The point commands (sections 2.5 to 2.8) -/

theorem test_pchk_k_accepts_g : next (exec (.pchkK 0) (withRegs [(0, gx), (1, gy)])) (·.statusWord) = some 0x02 := by decide
theorem test_pchk_k_rejects_origin : next (exec (.pchkK 0) State.reset) (·.statusWord) = some 0x56 := by decide
theorem test_pchk_u_rejects : next (exec (.pchkU 8) (toy [(8, 200), (9, 119)])) (·.statusWord) = some 0x56 := by decide
theorem test_pchk_u_modulus_first : next (exec (.pchkU 0) (withCurve 224 500 0 [])) (·.statusWord) = some 0x76 := by decide
theorem test_padd_k_opposite :
    next (exec (.paddK 10 0 8) (withRegs [(0, gx), (1, gy), (8, gx), (9, primeP - gy), (10, 5)])) (pair 5) = some (0, 0, true) := by
  decide
theorem test_padd_k_first_pair_first :
    next (exec (.paddK 4 0 2) (withRegs [(2, primeP)])) (·.statusWord) = some 0x56 := by decide
theorem test_padd_u : next (exec (.paddU 4 0 2) (toy [(0, 192), (1, 105), (2, 17), (3, 56)])) (pair 2) = some (170, 142, false) := by
  decide
theorem test_padd_u_composite :
    next (exec (.paddU 4 0 2) (withCurve 15 0 7 [(0, 3), (1, 2), (2, 8), (3, 3)])) (pair 2) = some (14, 3, false) := by decide
theorem test_pdbl_k :
    next (exec (.pdblK 2 0) (withRegs [(0, gx), (1, gy)])) (pair 1) =
      some (0xC6047F9441ED7D6D3045406E95C07CD85C778E4B8CEF3CA7ABAC09B95C709EE5,
        0x1AE168FEA63DC339A3C58419466CEAEEF7F632653266D0E1236431A950CFE52A, false) := by decide
theorem test_pdbl_k_range_of_y : next (exec (.pdblK 2 0) (withRegs [(0, gx), (1, primeP)])) (·.statusWord) = some 0x26 := by decide
theorem test_pdbl_u_in_place : next (exec (.pdblU 6 6) (toy [(6, 192), (7, 105)])) (pair 3) = some (49, 71, false) := by decide
theorem test_pdbl_u_vertical : next (exec (.pdblU 6 0) (toy [(0, 6), (1, 0)])) (pair 3) = some (0, 0, true) := by decide
theorem test_smul_k_order_plus_one :
    next (exec (.smulK 2 10 0) (withRegs [(0, gx), (1, gy), (10, orderN + 1)])) (pair 1) = some (gx, gy, false) := by decide
theorem test_smul_k_five :
    next (exec (.smulK 4 8 0) (withRegs [(0, gx), (1, gy), (8, 5)])) (pair 2) =
      some (0x2F8BDE4D1A07209355B4A7250A5C5128E88B84BDDC619AB7CBA8D569B240EFE4,
        0xD8AC222636E5E3D6D4DBA9DDA6C9C426F788271BAB0D6840DCA87D3AA6AC62D6, false) := by decide
theorem test_smul_u_twenty :
    next (exec (.smulU 4 8 0) (toy [(0, 47), (1, 71), (8, 20)])) (pair 2) = some (47, 152, false) := by decide
theorem test_smul_u_no_reduction :
    next (exec (.smulU 4 8 0) (toy [(0, 47), (1, 71), (8, 2 ^ 256 - 1)])) (pair 2) = some (139, 86, false) := by decide

/-! LDROM (section 2.9) -/

theorem test_ldrom_gx_leaves_inf :
    next (exec (.ldrom 1 4) { withRegs [] with inf := 1 }) (fun t => ((t.reg 1).toNat, t.inf)) = some (gx, 1) := by decide
theorem test_ldrom_illegal_index_writes_nothing :
    next (step ((withRegs [(0, 3)]).withFetchWord 32 0x00000B08)) (fun t => (t.reg 0, t.statusWord)) = some (3, 0x16) := by decide

/-! The bus, STATUS and reset (section 2.10) -/

theorem test_read_after_reset :
    [0x000, 0x004, 0x008, 0x00C, 0x010].map (fun off => (memRead State.reset off).1) = [0x4D4D0100, 0, 0, 0, 0] := by decide
theorem test_word_0_is_most_significant :
    (memWrite State.reset 0x100 0x12345678).reg 0 = 0x1234567800000000000000000000000000000000000000000000000000000000 := by decide
theorem test_word_7_is_least_significant : (memWrite (withRegs [(0, 2 ^ 32 + 9)]) 0x11C 5).reg 0 = 0x100000005 := by decide
theorem test_inf_reserved_bits : (memRead (memWrite State.reset 0x010 0xFFFFFF03) 0x010).1 = 0x00000003 := by decide
theorem test_reserved_offset : (memRead (memWrite State.reset 0x014 7) 0x014).1 = 0 := by decide
theorem test_rom_window : [0x400, 0x41C, 0x4C0, 0x4DC, 0x560].map (fun off => (memRead State.reset off).1) =
    [0xFFFFFFFF, 0xFFFFFC2F, 0, 0x3D1, 0] := by decide
theorem test_rom_write_ignored : memWrite State.reset 0x400 0 = State.reset := by decide
theorem test_busy_write_dropped :
    memWrite (pending State.reset 0x847) 0x100 9 = { pending State.reset 0x847 with ovr := true } := by decide
theorem test_busy_command_dropped :
    memWrite (pending State.reset 0x847) 0x00C 0x26 = { pending State.reset 0x847 with ovr := true } := by decide
theorem test_busy_status : (memRead (memWrite (pending State.reset 0x847) 0x100 9) 0x008).1 = 0x09 := by decide
theorem test_status_clears_done_only :
    (memWrite { State.reset with done := true, err := true, errcode := 5 } 0x008 0x02).statusWord = 0x54 := by decide
theorem test_status_clears_done_and_error :
    (memWrite { State.reset with done := true, err := true, errcode := 5 } 0x008 0x06).statusWord = 0 := by decide
theorem test_status_clears_ovr : (memWrite { State.reset with done := true, ovr := true } 0x008 0x08).statusWord = 0x02 := by decide
theorem test_irq_cleared :
    ({ State.reset with ie := true, done := true } : State).irq = true ∧
      (memWrite { State.reset with ie := true, done := true } 0x008 0x02).irq = false := by decide
theorem test_soft_reset_with_ie : memWrite { toy [(3, 9)] with inf := 0x20, ie := true } 0x004 0x00000003 = State.reset := by decide
theorem test_command_after_error :
    (memWrite { State.reset with done := true, err := true, ovr := true, errcode := 5 } 0x00C 0x26).statusWord = 0x09 := by decide

/-! The stops: an access the model does not take -/

theorem test_narrow_access_refused :
    refusalOf (hostTurn { State.reset with program := [.read (.aperture 0x100) 1] }) = some .accessWidth := by decide
theorem test_misaligned_access_refused :
    refusalOf (hostTurn { State.reset with program := [.write (.aperture 0x102) 4 0] }) = some .accessMisaligned := by decide
theorem test_access_during_reset_refused :
    refusalOf (hostTurn { State.reset with rstIn := true, program := [.wait] }) = some .accessDuringReset := by decide
theorem test_access_outside_aperture_faults :
    faultOf (hostTurn { State.reset with program := [.read (.aperture 0x1000) 4] }) = some .outsideAperture := by decide

/-! The assembler's side (R102, R104) -/

theorem test_text_of_ldrom : Instr.text (.ldrom 2 7) = "LDROM r2, #R2P" := by decide
theorem test_ldinf_sets_the_flag :
    next (hostTurn { State.reset with reads := [0x81], program := [.writeBack (.aperture 0x010) (BitVec.allOnes 32) (1#32 <<< 3)] })
      (·.inf) = some 0x89 := by decide

/-! Witnesses: for each statement with hypotheses, a state and operands that meet them together, clause by clause -/

/-- The curve T with the pairs r0 = (192, 105), r2 = (17, 56), r4 = (6, 0), r6 = ∞ over coordinates 9, 9, and r15 = 222. -/
def wToy : State :=
  { toy [(0, 192), (1, 105), (2, 17), (3, 56), (4, 6), (5, 0), (6, 9), (7, 9), (8, 223), (9, 2 ^ 256 - 1), (15, 222)] with inf := 8 }

/-- G in pair r0, N in r2, N + 1 in r3, N + 2 in r4, 2^256 − 1 in r5, P − 1 in r6, N − 1 in r7, pair r8 = ∞. -/
def wK : State :=
  { withRegs [(0, gx), (1, gy), (2, orderN), (3, orderN + 1), (4, orderN + 2), (5, 2 ^ 256 - 1), (6, primeP - 1), (7, orderN - 1)] with
    inf := 0x10 }

/-- A composite user curve, `(15, 0, 7)`, with the pair r0 = (3, 2). -/
def wComposite : State := withCurve 15 0 7 [(0, 3), (1, 2)]

theorem test_witness_DecodeOfEncodeIsTheCommand :
    Instr.wellFormed (.paddU 14 0 14) = true ∧ Instr.wellFormed (.ldrom 15 10) = true := by decide

theorem test_witness_EncodeOfDecodeIsTheWord : decode 0x000087C7 = .ok (.smulK 12 7 8) := by decide

theorem test_witness_LegalWordsAndIllegalCompletion :
    decode 0x00000A38 = .ok (.ldrom 3 10) ∧ ¬ legalWord 0x00000B08 ∧ State.reset.busy = false ∧
      (pending State.reset 0x00000B08).busy = true ∧ ¬ legalWord (pending State.reset 0x00000B08).cmdLast := by
  have illegal : ¬ legalWord 0x00000B08 := by
    have number : (0x00000B08 : Word32).toNat = 0xB08 := rfl
    simp only [legalWord, number]
    norm_num
  exact ⟨by decide, illegal, rfl, rfl, illegal⟩

theorem test_witness_StepRunsThePendingCommand :
    (pending wToy 0x00022045).busy = true ∧ decode (pending wToy 0x00022045).cmdLast = .ok (.paddU 4 0 2) ∧
      (pending wToy 0x00022045).schedule = [] ∧
      ({ pending wToy 0x00022045 with schedule := [.engine, .host] } : State).schedule = .engine :: [.host] := by decide

theorem test_witness_FetchedWordRunsInTheNextStep : decode 0x00022045 = .ok (.paddU 4 0 2) := by decide

theorem test_witness_ModaddWritesTheReducedSum :
    (modulusOk .u wToy ∧ (wToy.reg 15).toNat < modulus .u wToy) ∧ (modulusOk .p wK ∧ (wK.reg 6).toNat < modulus .p wK) ∧
      (modulusOk .n wK ∧ (wK.reg 7).toNat < modulus .n wK) := by
  refine ⟨⟨fun _ => ?_, ?_⟩, ⟨(by intro h; cases h), ?_⟩, ⟨(by intro h; cases h), ?_⟩⟩
  · unfold userModulusOk; decide
  all_goals decide

theorem test_witness_ModsubWritesTheFloorDifference :
    modulusOk .u wToy ∧ (wToy.reg 3).toNat < modulus .u wToy ∧ (wToy.reg 15).toNat < modulus .u wToy ∧
      (wToy.reg 3).toNat < (wToy.reg 15).toNat := by
  refine ⟨fun _ => ?_, ?_⟩
  · unfold userModulusOk; decide
  · decide

theorem test_witness_MontmulWritesTheMontgomeryProduct :
    modulusOk .u wComposite ∧ (wComposite.reg 0).toNat < modulus .u wComposite ∧ (wComposite.reg 1).toNat < modulus .u wComposite := by
  refine ⟨fun _ => ?_, ?_⟩
  · unfold userModulusOk; decide
  · decide

theorem test_witness_InverseOfRadixIsUnique : 3 % 2 = 1 ∧ 3 ≤ 3 ∧ 1 ≤ 1 ∧ 1 < 3 ∧ 2 ^ 256 * 1 % 3 = 1 := by decide

theorem test_witness_ModularChecksInOrder :
    ¬ modulusOk .u State.reset ∧ (modulusOk .u wToy ∧ modulus .u wToy ≤ (wToy.reg 8).toNat) ∧
      ((wToy.reg 15).toNat < modulus .u wToy ∧ modulus .u wToy ≤ (wToy.reg 8).toNat) ∧ (wToy.reg 0).toNat < modulus .u wToy := by
  refine ⟨fun h => absurd (h rfl).2 (by decide), ⟨fun _ => ?_, ?_⟩, ?_⟩
  · unfold userModulusOk; decide
  all_goals decide

theorem test_witness_MontgomeryIdentities : 223 % 2 = 1 ∧ 3 ≤ 223 ∧ 223 < 2 ^ 256 ∧ 222 < 223 ∧ 192 < 223 := by decide

theorem test_witness_ModmulComputesTheProduct :
    modulusOk .u (toy [(0, 192), (1, 105), (2, 115)]) ∧ (3 : Reg) ≠ 2 ∧
      ((toy [(0, 192), (1, 105), (2, 115)]).reg 0).toNat < modulus .u (toy [(0, 192), (1, 105), (2, 115)]) ∧
      ((toy [(0, 192), (1, 105), (2, 115)]).reg 1).toNat < modulus .u (toy [(0, 192), (1, 105), (2, 115)]) ∧
      ((toy [(0, 192), (1, 105), (2, 115)]).reg 2).toNat = (2 ^ 256) ^ 2 % modulus .u (toy [(0, 192), (1, 105), (2, 115)]) := by
  refine ⟨fun _ => ?_, ?_⟩
  · unfold userModulusOk; decide
  · decide

/-- In one state: rt = r2 holds R² mod 223, r3 holds 1, r4 holds 0. -/
theorem test_witness_PseudoCommandsComputeTheirResults :
    modulusOk .u (toy [(0, 192), (2, 115), (3, 1), (4, 0)]) ∧
      ((toy [(0, 192), (2, 115), (3, 1), (4, 0)]).reg 0).toNat < modulus .u (toy [(0, 192), (2, 115), (3, 1), (4, 0)]) ∧
      ((toy [(0, 192), (2, 115), (3, 1), (4, 0)]).reg 2).toNat =
        (2 ^ 256) ^ 2 % modulus .u (toy [(0, 192), (2, 115), (3, 1), (4, 0)]) ∧
      ((toy [(0, 192), (2, 115), (3, 1), (4, 0)]).reg 3).toNat = 1 ∧
      ((toy [(0, 192), (2, 115), (3, 1), (4, 0)]).reg 4).toNat = 0 := by
  refine ⟨fun _ => ?_, ?_⟩
  · unfold userModulusOk; decide
  · decide

theorem wToy_curveOk : curveOk .u wToy := fun _ => by unfold userModulusOk; decide

theorem wToy_holds : holdsPoint wToy 0 (.affine 192 105) ∧ holdsPoint wToy 2 (.affine 17 56) ∧ holdsPoint wToy 4 (.affine 6 0) ∧
    holdsPoint wToy 6 .infinity := by
  unfold holdsPoint; decide

theorem wToy_valid : validPoint (curve .u wToy) (.affine 192 105) ∧ validPoint (curve .u wToy) (.affine 17 56) ∧
    validPoint (curve .u wToy) (.affine 6 0) ∧ validPoint (curve .u wToy) .infinity := by
  unfold validPoint; decide

theorem test_witness_PchkAcceptsPointsOfTheCurve :
    (curveOk .u wToy ∧ holdsPoint wToy 0 (.affine 192 105) ∧ validPoint (curve .u wToy) (.affine 192 105)) ∧
      (curveOk .k wK ∧ holdsPoint wK 0 (.affine gx gy) ∧ validPoint (curve .k wK) (.affine gx gy)) := by
  refine ⟨⟨wToy_curveOk, wToy_holds.1, wToy_valid.1⟩, (by intro h; cases h), ?_, ?_⟩
  · unfold holdsPoint; decide
  · unfold validPoint; decide

theorem test_witness_PaddWritesTheGroupSum :
    curveOk .u wToy ∧ holdsPoint wToy 0 (.affine 192 105) ∧ holdsPoint wToy 6 .infinity ∧
      validPoint (curve .u wToy) (.affine 192 105) ∧ validPoint (curve .u wToy) .infinity :=
  ⟨wToy_curveOk, wToy_holds.1, wToy_holds.2.2.2, wToy_valid.1, trivial⟩

theorem test_witness_PdblWritesTheDouble :
    (curveOk .u wToy ∧ holdsPoint wToy 4 (.affine 6 0) ∧ validPoint (curve .u wToy) (.affine 6 0)) ∧
      (holdsPoint wToy 6 .infinity ∧ validPoint (curve .u wToy) .infinity) :=
  ⟨⟨wToy_curveOk, wToy_holds.2.2.1, wToy_valid.2.2.1⟩, wToy_holds.2.2.2, trivial⟩

theorem test_witness_SmulWritesTheMultiple :
    (holdsPoint wK 0 (.affine gx gy) ∧ validPoint (curve .k wK) (.affine gx gy) ∧ (wK.reg 7).toNat < groupOrder ∧
      ¬ (wK.reg 2).toNat < groupOrder) ∧
    (curveOk .u wToy ∧ holdsPoint wToy 0 (.affine 192 105) ∧ validPoint (curve .u wToy) (.affine 192 105) ∧
      Nat.Prime wToy.umod.toNat ∧ (4 * wToy.ua.toNat ^ 3 + 27 * wToy.ub.toNat ^ 2) % wToy.umod.toNat ≠ 0) := by
  refine ⟨⟨?_, ?_, by decide⟩, wToy_curveOk, wToy_holds.1, wToy_valid.1, ?_, by decide⟩
  · unfold holdsPoint; decide
  · unfold validPoint; decide
  · rw [show wToy.umod.toNat = 223 by decide]; norm_num

theorem test_witness_SmulOnIllFormedCurveCompletes :
    curveOk .u wComposite ∧ holdsPoint wComposite 0 (.affine 3 2) ∧ validPoint (curve .u wComposite) (.affine 3 2) ∧
      ¬ (Nat.Prime wComposite.umod.toNat ∧
        (4 * wComposite.ua.toNat ^ 3 + 27 * wComposite.ub.toNat ^ 2) % wComposite.umod.toNat ≠ 0) := by
  refine ⟨fun _ => ?_, ?_, ?_, ?_⟩
  · unfold userModulusOk; decide
  · unfold holdsPoint; decide
  · unfold validPoint; decide
  · rw [show wComposite.umod.toNat = 15 by decide]; norm_num

theorem test_witness_WritePointWritesOnePair :
    (2 ^ 256 - 1 < 2 ^ 256) ∧ (15 : Reg).val / 2 ≠ (0 : Pair).val ∧ (7 : Pair) ≠ 0 := by decide

theorem test_witness_ReadPointChecksInOrder :
    Reg.even 6 = true ∧ wToy.infFlag (pairOf 6) = true ∧ wToy.infFlag (pairOf 8) = false ∧
      223 ≤ (wToy.reg 8).toNat ∧ (wToy.reg 14).toNat < 223 ∧ (wToy.reg 15).toNat < 223 ∧
      ¬ onCurve (curve .u wToy) (wToy.reg 14).toNat (wToy.reg 15).toNat ∧
      onCurve (curve .u wToy) (wToy.reg 0).toNat (wToy.reg 1).toNat ∧
      ((toy [(0, 222), (1, 223)]).reg 0).toNat < 223 ∧ 223 ≤ ((toy [(0, 222), (1, 223)]).reg 1).toNat := by decide

theorem test_witness_GroupAddSixCases :
    223 % 2 = 1 ∧ 3 ≤ 223 ∧ 223 < 2 ^ 256 ∧ 192 < 223 ∧ 105 < 223 ∧ 118 < 223 ∧ 17 < 223 ∧ 192 ≠ 17 ∧ 105 ≠ 118 ∧ 105 ≠ 0 := by decide

theorem test_witness_DoubleAndAddIsTheWhileLoop : 2 ^ 256 - 1 < 2 ^ 256 := by decide

theorem test_witness_SmulCornerCases :
    holdsPoint wK 0 (.affine gx gy) ∧ validPoint (curve .k wK) (.affine gx gy) ∧ (wK.reg 2).toNat % groupOrder = 0 ∧
      (wK.reg 3).toNat % groupOrder = 1 ∧ (wK.reg 4).toNat % groupOrder = 2 ∧ holdsPoint wK 8 .infinity := by
  refine ⟨?_, ?_, by decide, by decide, by decide, ?_⟩
  · unfold holdsPoint; decide
  · unfold validPoint; decide
  · unfold holdsPoint; decide

theorem test_witness_FieldDivIsFermatDivision : 2 ≤ 223 ∧ 223 < 2 ^ 256 ∧ Nat.Prime 223 ∧ 222 < 223 ∧ 1 < 223 ∧ 1 ≠ 0 := by norm_num

theorem test_witness_PointResultsStayOnTheCurve :
    Nat.Prime wToy.umod.toNat ∧ (4 * wToy.ua.toNat ^ 3 + 27 * wToy.ub.toNat ^ 2) % wToy.umod.toNat ≠ 0 ∧
      next (exec (.paddU 10 0 2) wToy) (·.err) = some false ∧ next (exec (.pdblU 10 0) wToy) (·.err) = some false ∧
      next (exec (.smulU 10 15 0) wToy) (·.err) = some false ∧
      next (exec (.paddK 10 0 8) wK) (·.err) = some false ∧ next (exec (.pdblK 10 0) wK) (·.err) = some false ∧
      next (exec (.smulK 10 4 0) wK) (·.err) = some false := by
  refine ⟨?_, by decide, by decide, by decide, by decide, by decide, by decide, by decide⟩
  rw [show wToy.umod.toNat = 223 by decide]; norm_num

theorem test_witness_CoordinatesOfInfinityAreIgnored :
    wToy.infFlag 3 = true ∧ ∃ t t', exec (paddOf .u 10 6 0) wToy = .next t ∧
      exec (paddOf .u 10 6 0) ((wToy.setReg (xReg 3) 300).setReg (yReg 3) 1) = .next t' :=
  ⟨by decide, _, _, exec_eq_complete _ _, exec_eq_complete _ _⟩

theorem test_witness_LdromLoadsTheEntry : (10 : Fin 16).val ≤ 10 := by decide

theorem test_witness_RomHoldsTheParameters : 11 ≤ (11 : Fin 16).val ∧ 11 ≤ (15 : Fin 16).val := by decide

theorem test_witness_RomWindowIsReadOnlyAndUnlocked : 11 ≤ (11 : Fin 16).val := by decide

theorem test_witness_FirstFailingCheckIsReported :
    (pending wToy 0x00022045).busy = true ∧ (pending wToy 0).busy = true := by decide

theorem test_witness_RegisterCommandsFrame :
    next (exec (modaddOf .u 15 0 1) wToy) (·.err) = some false ∧ next (exec (.ldrom 15 10) wToy) (·.err) = some false ∧
      ¬ (0x100 + 32 * (15 : Reg).val ≤ 0x300 ∧ 0x300 < 0x100 + 32 * (15 : Reg).val + 32) ∧
      ¬ (0x100 + 32 * (15 : Reg).val ≤ 0x2DC ∧ 0x2DC < 0x100 + 32 * (15 : Reg).val + 32) := by decide

theorem test_witness_PointCommandsFrame :
    next (exec (paddOf .u 14 0 2) wToy) (·.err) = some false ∧ (13 : Reg).val / 2 ≠ (14 : Reg).val / 2 ∧ (6 : Pair) ≠ pairOf 14 ∧
      ¬ (0x100 + 64 * ((14 : Reg).val / 2) ≤ 0x300 ∧ 0x300 < 0x100 + 64 * ((14 : Reg).val / 2) + 64) := by decide

theorem test_witness_PchkFrame : next (exec (pchkOf .u 0) wToy) (·.err) = some false := by decide

theorem test_witness_ReadMapWhileIdle : wToy.busy = false ∧ 0xFFC < 4096 ∧ 0xFFC % 4 = 0 := by decide

/-- Each clause of WriteMap at both ends of its range, and the clauses' ranges do not meet. -/
theorem test_witness_WriteMap :
    wToy.busy = false ∧ (pending wToy 1).busy = true ∧ wToy.rstIn = false ∧
      (0x2#32).getLsbD 1 = true ∧ (0x1#32).getLsbD 1 = false ∧
      ∀ n : Fin 1024, (0x100 ≤ 4 * n.val ∧ 4 * n.val ≤ 0x2FC → ¬ (0x300 ≤ 4 * n.val) ∧ ¬ (4 * n.val ≤ 0x0FC)) ∧
        (0x300 ≤ 4 * n.val ∧ 4 * n.val ≤ 0x31C → ¬ (0x320 ≤ 4 * n.val)) ∧
        (0x320 ≤ 4 * n.val ∧ 4 * n.val ≤ 0x33C → ¬ (0x340 ≤ 4 * n.val)) ∧
        (0x340 ≤ 4 * n.val ∧ 4 * n.val ≤ 0x35C → ¬ (0x360 ≤ 4 * n.val)) := by
  refine ⟨by decide, by decide, by decide, by decide, by decide, fun n => ?_⟩
  omega

theorem test_witness_WordLayoutOfTheAperture : wToy.busy = false ∧ 31 < 32 := by decide

theorem test_witness_BusyLock :
    (pending wToy 1).busy = true ∧ (0x35C < 4096 ∧ 0x35C % 4 = 0 ∧ 0x100 ≤ 0x35C) ∧
      ¬ (0x360 = 0x010 ∨ (0x100 ≤ 0x360 ∧ 0x360 ≤ 0x35C)) ∧ ¬ (0x004 = 0x010 ∨ (0x100 ≤ 0x004 ∧ 0x004 ≤ 0x35C)) ∧
      (0x008 < 4096 ∧ 0x008 % 4 = 0) ∧ (0x2#32).getLsbD 1 = true := by decide

theorem test_witness_ReadAfterWriteReturnsTheValue : wToy.busy = false ∧ 0x100 % 4 = 0 ∧ 0x35C % 4 = 0 ∧ 0x35C ≤ 0x35C := by decide

theorem test_witness_WriteLeavesTheOtherWords :
    wToy.busy = false ∧ 0x35C < 4096 ∧ 0x35C % 4 = 0 ∧ 0x358 < 4096 ∧ 0x358 % 4 = 0 ∧ 0x35C ≠ 0x358 ∧ 0x35C ≠ 0x004 ∧
      0x35C ≠ 0x008 ∧ 0x35C ≠ 0x00C := by decide

theorem test_witness_AdmittedAccesses :
    ({ wToy with rstIn := true, program := [.read (.aperture 0) 4] } : State).rstIn = true ∧
      ({ wToy with rstIn := true, program := [.write (.aperture 0) 4 1] } : State).program = [.write (.aperture 0) 4 1] ∧
      ({ wToy with program := [.read (.absolute (Config.base + 0xFFC)) 4] } : State).program =
        .read (.absolute (Config.base + 0xFFC)) 4 :: [] ∧
      names (.absolute (Config.base + 0xFFC)) 0xFFC ∧ names (.aperture 0xFFE) 0xFFE ∧ outside (.aperture 4096) ∧
      outside (.absolute (Config.base + 4096)) ∧ wToy.rstIn = false ∧ 0xFFC % 4 = 0 ∧ 2 ≠ 4 ∧ 0xFFE % 4 ≠ 0 :=
  ⟨rfl, rfl, rfl, ⟨by decide, .inr rfl⟩, ⟨by decide, .inl rfl⟩, .inl ⟨4096, le_rfl, rfl⟩, .inr ⟨_, .inr le_rfl, rfl⟩, by decide⟩

theorem test_witness_WideTransfersMoveAllBits : wToy.busy = false ∧ wToy.rstIn = false ∧ wToy.schedule = [] := by decide

theorem test_witness_LdgAndLdinfLoadThePair :
    Reg.even 14 = true ∧ wToy.busy = false ∧ wToy.rstIn = false ∧ wToy.schedule = [] := by decide

theorem test_witness_StatusBitsAndClearing :
    (0x06#32).getLsbD 1 = (0xF7#32).getLsbD 1 ∧ (0x06#32).getLsbD 2 = (0xF7#32).getLsbD 2 ∧
      (0x06#32).getLsbD 3 = (0xF7#32).getLsbD 3 := by decide

theorem test_witness_CtrlReadAndWrite : (0x3#32).getLsbD 1 = true ∧ (0x1#32).getLsbD 1 = false := by decide

theorem test_witness_AcceptanceOfACommand : wToy.busy = false ∧ (pending wToy 1).busy = true := by decide

theorem test_witness_EngineCompletesInOneStep : (pending wToy 1).busy = true ∧ wToy.busy = false := by decide

theorem test_witness_ResetClearsTheBlock :
    (toy []).busy = false ∧ (toy []).x ≠ ((toy []).setReg 0 7).x ∧
      step { toy [] with program := [.write (.aperture 0x11C) 4 7] } = .next ((toy []).setReg 0 7) ∧
      ¬ byAcceptance { toy [] with program := [.write (.aperture 0x11C) 4 7] } ((toy []).setReg 0 7) := by
  refine ⟨by decide, by decide, rfl, ?_⟩
  rintro ⟨-, w, p, ts, -, h⟩
  have busy : false = true := congrArg State.busy h
  exact absurd busy (by decide)

theorem test_witness_ResetAbortsThePendingCommand :
    ({ pending wToy 1 with program := [.wait] } : State).busy = true ∧
      ({ pending wToy 1 with program := [.wait] } : State).program = .wait :: [] ∧ (0x2#32).getLsbD 1 = true := by decide

theorem test_witness_IrqIsEnableAndDone :
    (0x2#32).getLsbD 1 = true ∧ wToy.busy = false ∧ (pending wToy 1).busy = true := by decide

theorem test_witness_IrqRisesOnlyByCompletionOrEnable :
    ({ pending wToy 0x00022045 with ie := true } : State).irq = false ∧
      next (step { pending wToy 0x00022045 with ie := true }) (·.irq) = some true ∧
      ({ wToy with done := true, program := [.write (.aperture 0x004) 4 1] } : State).irq = false ∧
      next (step { wToy with done := true, program := [.write (.aperture 0x004) 4 1] }) (·.irq) = some true := by decide

/-- One step for each of the changes: an acceptance, a completion with an error, an overrun, a clearing of OVR, a reset. -/
theorem test_witness_StatusChangesOnlyAsSpecified_rises :
    (wToy.busy = false ∧ next (step { wToy with program := [.write (.aperture 0x00C) 4 7] }) (fun t => (t.busy, t.cmdLast)) =
      some (true, 7)) ∧
    next (step (pending wToy 0)) (fun t => (t.done, t.err)) = some (true, true) ∧
    next (step { pending wToy 1 with schedule := [.host], program := [.write (.aperture 0x100) 4 7] }) (·.ovr) = some true := by
  decide

theorem test_witness_StatusChangesOnlyAsSpecified_falls :
    next (step { pending wToy 1 with ovr := true, schedule := [.assertReset] }) (fun t => (t.busy, t.ovr, t.cmdLast)) =
      some (false, false, 0) ∧
    next (step { wToy with ovr := true, program := [.write (.aperture 0x008) 4 8] }) (·.ovr) = some false ∧
    next (step { wToy with done := true, program := [.write (.aperture 0x008) 4 2] }) (·.done) = some false ∧
    ({ wToy with err := true, errcode := 7, program := [.write (.aperture 0x008) 4 4] } : State).Inv ∧
    next (step { wToy with err := true, errcode := 7, program := [.write (.aperture 0x008) 4 4] })
      (fun t => (t.err, t.errcode)) = some (false, 0) ∧
    (pending wToy 0).Inv ∧ next (step (pending wToy 0)) (fun t => (t.busy, t.errcode)) = some (false, 1) :=
  ⟨by decide, by decide, by decide, ⟨by decide, by decide, by decide, by decide⟩, by decide,
    ⟨by decide, by decide, by decide, by decide⟩, by decide⟩

theorem test_witness_OperandsAreStableWhileBusy :
    (pending wToy 1).busy = true ∧
      next (step { pending wToy 1 with schedule := [.host], program := [.write (.aperture 0x100) 4 7] }) (·.busy) = some true := by
  decide

theorem test_witness_CompletionIsIndependentOfInterleaving :
    (pending wToy 0x00022045).busy = true ∧ decode (pending wToy 0x00022045).cmdLast = .ok (.paddU 4 0 2) ∧
      busyRun 1 { pending wToy 0x00022045 with schedule := [.host], program := [.write (.aperture 0x100) 4 7] }
        (overrun { pending wToy 0x00022045 with schedule := [], program := [] }) :=
  ⟨by decide, by decide, _, rfl, by decide, rfl⟩

theorem test_witness_PollingHostSeesCompletion :
    ({ pending wToy 1 with program := [.wait], schedule := [.host, .host] } : State).busy = true ∧
      ({ pending wToy 1 with program := [.wait], schedule := [.host, .host] } : State).rstIn = false ∧
      ({ pending wToy 1 with program := [.wait], schedule := [.host, .host] } : State).program = .wait :: [] ∧
      ∀ t ∈ ({ pending wToy 1 with program := [.wait], schedule := [.host, .host] } : State).schedule, t = .host ∨ t = .engine := by
  decide

theorem test_witness_EveryStepKeepsTheInvariant :
    (pending wToy 0).Inv ∧ next (step (pending wToy 0)) (·.err) = some true :=
  ⟨⟨by decide, by decide, by decide, by decide⟩, by decide⟩

end Sys2Proof.Tests
end

section
/-! SUPPORT. The registers of the control region as the bus sees them, and which offsets a region has (R62, R67, R69). -/

namespace Sys2Proof.Machine

theorem regionOf_eq_ctrl {off : Nat} (aligned : off % 4 = 0) (h : regionOf off = .ctrl) : off = 0x004 := by
  simpa [h] using regionOf_cases aligned

theorem regionOf_eq_status {off : Nat} (aligned : off % 4 = 0) (h : regionOf off = .status) : off = 0x008 := by
  simpa [h] using regionOf_cases aligned

theorem regionOf_eq_cmd {off : Nat} (aligned : off % 4 = 0) (h : regionOf off = .cmd) : off = 0x00C := by
  simpa [h] using regionOf_cases aligned

theorem regionOf_eq_inf {off : Nat} (aligned : off % 4 = 0) (h : regionOf off = .inf) : off = 0x010 := by
  simpa [h] using regionOf_cases aligned

/-- The offsets of register i are the 32 from `0x100 + 32·i` (R63). -/
theorem regionOf_eq_reg {off : Nat} {i : Reg} {j : Fin 8} (aligned : off % 4 = 0) (h : regionOf off = .reg i j) :
    0x100 + 32 * i.val ≤ off ∧ off < 0x100 + 32 * i.val + 32 := by
  obtain ⟨⟨_, _⟩, rfl, -⟩ : (0x100 ≤ off ∧ off ≤ 0x2FC) ∧ i = Fin.ofNat 16 ((off - 0x100) / 32) ∧ j = wordIndex off := by
    simpa [h] using regionOf_cases aligned
  simp only [Fin.val_ofNat]
  omega

theorem memRead_ctrl (s : State) : memRead s 0x004 = (s.ctrlWord, s) := by
  simp [memRead, Region.locked, regionWord]

theorem memRead_status (s : State) : memRead s 0x008 = (s.statusWord, s) := by
  simp [memRead, Region.locked, regionWord]

theorem memWrite_ctrl (s : State) (v : Word32) :
    memWrite s 0x004 v = if v.getLsbD 1 then softReset s else { s with ie := v.getLsbD 0 } := by
  simp only [memWrite, regionOf_ctrl, Region.locked, Bool.and_false, Bool.false_eq_true, if_false, regionWrite]

theorem memWrite_status (s : State) (v : Word32) : memWrite s 0x008 v = s.clearStatus v := by
  simp only [memWrite, regionOf_status, Region.locked, Bool.and_false, Bool.false_eq_true, if_false, regionWrite]

theorem memWrite_cmd (s : State) (v : Word32) : memWrite s 0x00C v = if s.busy then overrun s else accept s v := by
  simp only [memWrite, regionOf_cmd, Region.locked, Bool.and_false, Bool.false_eq_true, if_false, regionWrite]

/-- A reset leaves every field of R211 at its reset value. -/
theorem softReset_blockIsReset (s : State) : (softReset s).blockIsReset :=
  ⟨rfl, rfl, rfl, rfl, rfl, rfl, rfl, rfl, rfl, rfl, rfl, rfl⟩

end Sys2Proof.Machine
end

section
/-! SUPPORT. What a host write and a completion do to BUSY, DONE, ERR, OVR, ERRCODE and CMD_LAST (R32, R36, R69, R186). -/

namespace Sys2Proof.Machine

/-- STATUS and CMD_LAST hold the same values in both states. -/
structure StatusKept (s t : State) : Prop where
  busy : t.busy = s.busy
  done : t.done = s.done
  err : t.err = s.err
  ovr : t.ovr = s.ovr
  errcode : t.errcode = s.errcode
  cmdLast : t.cmdLast = s.cmdLast

/-- What a host write can do to STATUS and CMD_LAST: a write dropped while busy, a reset by CTRL, the clearing by STATUS, an
acceptance by CMD, and no other write does anything to them. -/
theorem memWrite_status_cases (s : State) {off : Nat} (aligned : off % 4 = 0) (v : Word32) :
    (s.busy = true ∧ ((regionOf off).locked = true ∨ off = 0x00C) ∧ memWrite s off v = overrun s) ∨
    (off = 0x004 ∧ v.getLsbD 1 = true ∧ memWrite s off v = softReset s) ∨
    (off = 0x008 ∧ memWrite s off v = s.clearStatus v) ∨
    (s.busy = false ∧ off = 0x00C ∧ memWrite s off v = accept s v) ∨
    StatusKept s (memWrite s off v) := by
  rcases memWrite_cases s off v with ⟨hb, hoff, ht⟩ | ⟨hoff, hv, ht⟩ | ⟨-, -, ht⟩ | ⟨hoff, ht⟩ | ⟨hb, hoff, ht⟩ | ⟨-, -, ht⟩ |
    ⟨-, i, j, -, ht⟩ | ⟨-, j, -, ht⟩ | ⟨-, j, -, ht⟩ | ⟨-, j, -, ht⟩ | ht
  case inl => exact .inl ⟨hb, hoff.imp_right (regionOf_eq_cmd aligned), ht⟩
  case inr.inl => exact .inr (.inl ⟨regionOf_eq_ctrl aligned hoff, hv, ht⟩)
  case inr.inr.inr.inl => exact .inr (.inr (.inl ⟨regionOf_eq_status aligned hoff, ht⟩))
  case inr.inr.inr.inr.inl => exact .inr (.inr (.inr (.inl ⟨hb, regionOf_eq_cmd aligned hoff, ht⟩)))
  all_goals
    rw [ht]
    exact .inr (.inr (.inr (.inr ⟨rfl, rfl, rfl, rfl, rfl, rfl⟩)))

/-- No host write moves the hardware reset input. -/
theorem memWrite_rstIn (s : State) (off : Nat) (v : Word32) : (memWrite s off v).rstIn = s.rstIn := by
  rcases memWrite_cases s off v with ⟨-, -, ht⟩ | ⟨-, -, ht⟩ | ⟨-, -, ht⟩ | ⟨-, ht⟩ | ⟨-, -, ht⟩ | ⟨-, -, ht⟩ |
    ⟨-, i, j, -, ht⟩ | ⟨-, j, -, ht⟩ | ⟨-, j, -, ht⟩ | ⟨-, j, -, ht⟩ | ht
  all_goals simp [ht]

/-- How the pending command's completion can end (R181, R182, R186): ERR and ERRCODE are 0, or ERR is 1 with one of the codes a
completion reports. -/
theorem complete_err_cases (s : State) :
    ((complete s (executePending s)).err = false ∧ (complete s (executePending s)).errcode = 0) ∨
    ((complete s (executePending s)).err = true ∧ ∃ e, (complete s (executePending s)).errcode = e ∧
      (e = 1 ∨ e = 2 ∨ e = 5 ∨ e = 7)) := by
  cases h : executePending s with
  | ok w => exact .inl ⟨rfl, rfl⟩
  | error e =>
    refine .inr ⟨rfl, e.code, rfl, ?_⟩
    rcases executePending_error h with (rfl | rfl | rfl) | rfl <;> decide

end Sys2Proof.Machine
end

section
/-! PROOF. Every step keeps the machine's invariant. -/

namespace Sys2Proof.Machine

/-- With the reset input released, the invariant speaks of BUSY, DONE, ERR and ERRCODE only. -/
theorem State.Inv.of_statusKept {s t : State} (h : s.Inv) (kept : StatusKept s t) (released : t.rstIn = false) : t.Inv where
  errMatchesCode := by rw [State.errMatchesCode, kept.err, kept.errcode]; exact h.errMatchesCode
  busyClearsStatus := by rw [State.busyClearsStatus, kept.busy, kept.done, kept.err]; exact h.busyClearsStatus
  codeIsRaised := by rw [State.codeIsRaised, kept.errcode]; exact h.codeIsRaised
  resetHolds := by simp [State.resetHolds, released]

/-- A block in its reset state meets the invariant, whatever the reset input is. -/
theorem inv_of_blockIsReset {t : State} (h : t.blockIsReset) : t.Inv := by
  obtain ⟨-, -, -, -, -, -, hbusy, -, herr, -, hcode, -⟩ := id h
  exact ⟨by simp [State.errMatchesCode, herr, hcode], by simp [State.busyClearsStatus, hbusy], .inl hcode, fun _ => h⟩

/-- While BUSY = 1 the reset input is released: an asserted one holds the block idle (R213). -/
theorem State.Inv.released_of_busy {s : State} (h : s.Inv) (hb : s.busy = true) : s.rstIn = false := by
  by_contra hr
  obtain ⟨-, -, -, -, -, -, idle, -⟩ := h.resetHolds (by simpa using hr)
  simp [hb] at idle

theorem inv_accept {s : State} (released : s.rstIn = false) (w : Word32) : (accept s w).Inv where
  errMatchesCode := by simp [State.errMatchesCode]
  busyClearsStatus := by simp [State.busyClearsStatus]
  codeIsRaised := .inl rfl
  resetHolds := by simp [State.resetHolds, released]

theorem State.Inv.clearStatus {s : State} (h : s.Inv) (released : s.rstIn = false) (v : Word32) : (s.clearStatus v).Inv where
  errMatchesCode := by
    simp only [State.errMatchesCode, clearStatus_err, clearStatus_errcode]
    cases v.getLsbD 2 <;> simp [h.errMatchesCode]
  busyClearsStatus hb := by
    obtain ⟨hdone, herr⟩ := h.busyClearsStatus hb
    simp [hdone, herr]
  codeIsRaised := by
    simp only [State.codeIsRaised, clearStatus_errcode]
    split_ifs
    · exact .inl rfl
    · exact h.codeIsRaised
  resetHolds := by simp [State.resetHolds, released]

theorem State.Inv.memWrite {s : State} (h : s.Inv) (released : s.rstIn = false) {off : Nat} (aligned : off % 4 = 0)
    (v : Word32) : (memWrite s off v).Inv := by
  rcases memWrite_status_cases s aligned v with ⟨-, -, ht⟩ | ⟨-, -, ht⟩ | ⟨-, ht⟩ | ⟨-, -, ht⟩ | kept
  · rw [ht]
    exact ⟨h.errMatchesCode, h.busyClearsStatus, h.codeIsRaised, by simp [State.resetHolds, released]⟩
  · exact ht ▸ inv_of_blockIsReset (softReset_blockIsReset s)
  · exact ht ▸ h.clearStatus released v
  · exact ht ▸ inv_accept released v
  · exact h.of_statusKept kept (by rw [memWrite_rstIn, released])

theorem inv_complete {s : State} (released : s.rstIn = false) : (complete s (executePending s)).Inv where
  errMatchesCode := by
    rcases complete_err_cases s with ⟨herr, hcode⟩ | ⟨herr, e, hcode, rfl | rfl | rfl | rfl⟩ <;>
      simp [State.errMatchesCode, herr, hcode]
  busyClearsStatus := by simp [State.busyClearsStatus]
  codeIsRaised := by
    rcases complete_err_cases s with ⟨-, hcode⟩ | ⟨-, e, rfl, he⟩
    · exact .inl hcode
    · exact .inr he
  resetHolds := by simp [State.resetHolds, released]

/-- Moving on in the schedule, in the program and in the list of reads keeps the invariant, which speaks of the block only. -/
theorem State.Inv.withEnvironment {s : State} (h : s.Inv) (p : List HostOp) (ts : List Turn) (l : List Word32) (d : Nat) :
    { s with program := p, schedule := ts, reads := l, draws := d }.Inv :=
  ⟨h.errMatchesCode, h.busyClearsStatus, h.codeIsRaised, h.resetHolds⟩

/-- Settles O59, by the cases of `step_next`: what is not a write, a completion or the reset input moves only the environment. -/
theorem everyStepKeepsTheInvariant : Obligations.EveryStepKeepsTheInvariant := by
  intro s t h hstep
  obtain ⟨turn, ts, -, rfl | ⟨p, v, d, -, -, rfl⟩ | ⟨a, p, off, v, -, released, -, aligned, -, rfl⟩ | ⟨-, hb, rfl⟩ | ⟨-, rfl⟩ | ⟨-, rfl⟩⟩ :=
    step_next hstep
  · exact h.withEnvironment _ ts _ _
  · exact h.withEnvironment p ts _ d
  · exact (h.withEnvironment p ts s.reads s.draws).memWrite released aligned v
  · exact inv_complete (s := { s with schedule := ts }) (h.released_of_busy hb)
  · exact inv_of_blockIsReset (softReset_blockIsReset s)
  · exact ⟨h.errMatchesCode, h.busyClearsStatus, h.codeIsRaised, by simp [State.resetHolds]⟩

end Sys2Proof.Machine
end

section
/-! PROOF. What a step does to STATUS and CMD_LAST, said once: the acceptance, the completion or the reset of a command, or a step
between these; and from it that they change only as the spec says. -/

namespace Sys2Proof.Machine

open Claims

/-- What a step that accepts, completes and resets nothing can do to STATUS and CMD_LAST (R32, R189): clear DONE, ERR with ERRCODE,
or OVR by the STATUS bit of each, or set OVR by a dropped write. -/
structure BetweenCommands (s t : State) : Prop where
  busy : t.busy = s.busy
  cmdLast : t.cmdLast = s.cmdLast
  done : t.done = s.done ∨ (t.done = false ∧ byStatusWrite 1 s t)
  err : (t.err = s.err ∧ t.errcode = s.errcode) ∨ (t.err = false ∧ t.errcode = 0 ∧ byStatusWrite 2 s t)
  ovr : t.ovr = s.ovr ∨ (t.ovr = true ∧ byDroppedWrite s t) ∨ (t.ovr = false ∧ byStatusWrite 3 s t)

theorem betweenCommands_of_statusKept {s t : State} (h : StatusKept s t) : BetweenCommands s t :=
  ⟨h.busy, h.cmdLast, .inl h.done, .inl ⟨h.err, h.errcode⟩, .inl h.ovr⟩

theorem betweenCommands_of_droppedWrite {s t : State} (h : byDroppedWrite s t) : BetweenCommands s t := by
  obtain ⟨-, off, v, p, ts, -, -, rfl⟩ := id h
  exact ⟨rfl, rfl, .inl rfl, .inl ⟨rfl, rfl⟩, .inr (.inl ⟨rfl, h⟩)⟩

/-- A write to STATUS clears what its bits 1, 2 and 3 name, and nothing else (R32). -/
theorem betweenCommands_of_statusWrite {s : State} {v : Word32} {p : List HostOp} {ts : List Turn}
    (h : hostWrites s 0x008 v p ts) : BetweenCommands s (memWrite { s with program := p, schedule := ts } 0x008 v) := by
  have byBit : ∀ n, v.getLsbD n = true → byStatusWrite n s (memWrite { s with program := p, schedule := ts } 0x008 v) :=
    fun n hv => ⟨v, p, ts, h, hv, rfl⟩
  rw [memWrite_status] at byBit ⊢
  refine ⟨rfl, rfl, ?_, ?_, ?_⟩
  · cases hv : v.getLsbD 1
    · exact .inl (by rw [clearStatus_done, hv, Bool.not_false, Bool.and_true])
    · exact .inr ⟨by rw [clearStatus_done, hv, Bool.not_true, Bool.and_false], byBit 1 hv⟩
  · cases hv : v.getLsbD 2
    · exact .inl ⟨by rw [clearStatus_err, hv, Bool.not_false, Bool.and_true], by rw [clearStatus_errcode, hv]; rfl⟩
    · exact .inr ⟨by rw [clearStatus_err, hv, Bool.not_true, Bool.and_false], by rw [clearStatus_errcode, hv]; rfl, byBit 2 hv⟩
  · cases hv : v.getLsbD 3
    · exact .inl (by rw [clearStatus_ovr, hv, Bool.not_false, Bool.and_true])
    · exact .inr (.inr ⟨by rw [clearStatus_ovr, hv, Bool.not_true, Bool.and_false], byBit 3 hv⟩)

/-- A host write is an acceptance, a reset or a write between these. -/
theorem hostWrites_statusEvent {s t : State} {off : Nat} {v : Word32} {p : List HostOp} {ts : List Turn}
    (h : hostWrites s off v p ts) (ht : t = memWrite { s with program := p, schedule := ts } off v) :
    byAcceptance s t ∨ byReset s t ∨ BetweenCommands s t := by
  subst ht
  obtain ⟨-, -, aligned, -⟩ := id h
  rcases memWrite_status_cases { s with program := p, schedule := ts } aligned v with
    ⟨hb, hoff, ht⟩ | ⟨rfl, hv, ht⟩ | ⟨rfl, -⟩ | ⟨hb, rfl, ht⟩ | kept
  · rw [regionOf_locked_iff aligned, or_comm] at hoff
    exact .inr (.inr (betweenCommands_of_droppedWrite ⟨hb, off, v, p, ts, h, hoff, ht⟩))
  · exact .inr (.inl ⟨ht ▸ softReset_blockIsReset _, .inl ⟨v, p, ts, h, hv, rfl⟩⟩)
  · exact .inr (.inr (betweenCommands_of_statusWrite h))
  · exact .inl ⟨hb, v, p, ts, h, ht⟩
  · exact .inr (.inr (betweenCommands_of_statusKept ⟨kept.busy, kept.done, kept.err, kept.ovr, kept.errcode, kept.cmdLast⟩))

/-- Every step of the model is an acceptance, a completion, a reset or a step between these. -/
theorem step_statusEvent {s t : State} (h : step s = .next t) :
    byAcceptance s t ∨ byCompletion s t ∨ byReset s t ∨ BetweenCommands s t := by
  have kept : StatusKept s t → BetweenCommands s t := betweenCommands_of_statusKept
  obtain ⟨turn, ts, hturn, rfl | ⟨p, v, d, -, -, rfl⟩ | ⟨a, p, off, v, rfl, released, ha, aligned, hp, rfl⟩ | ⟨rfl, hb, rfl⟩ |
    ⟨rfl, rfl⟩ | ⟨-, rfl⟩⟩ := step_next h
  · exact .inr (.inr (.inr (kept ⟨rfl, rfl, rfl, rfl, rfl, rfl⟩)))
  · exact .inr (.inr (.inr (kept ⟨rfl, rfl, rfl, rfl, rfl, rfl⟩)))
  · exact (hostWrites_statusEvent ⟨hturn, released, aligned, a, offset_eq_some_iff.mp ha, hp⟩ rfl).imp_right .inr
  · exact .inr (.inl ⟨hb, ts, hturn, engineTurn_completes hb⟩)
  · exact .inr (.inr (.inl ⟨softReset_blockIsReset s, .inr ⟨ts, hturn, rfl⟩⟩))
  · exact .inr (.inr (.inr (kept ⟨rfl, rfl, rfl, rfl, rfl, rfl⟩)))

/-! What each event leaves in STATUS and CMD_LAST -/

/-- What an acceptance leaves (R185). -/
theorem byAcceptance_status {s t : State} (h : byAcceptance s t) :
    t.busy = true ∧ t.done = false ∧ t.err = false ∧ t.errcode = 0 ∧ t.ovr = s.ovr := by
  obtain ⟨-, w, p, ts, -, rfl⟩ := h
  exact ⟨rfl, rfl, rfl, rfl, rfl⟩

/-- What a completion leaves (R186); without an error, ERRCODE is 0. -/
theorem byCompletion_status {s t : State} (h : byCompletion s t) :
    s.busy = true ∧ t.busy = false ∧ t.done = true ∧ (t.err = false → t.errcode = 0) ∧ t.ovr = s.ovr ∧ t.cmdLast = s.cmdLast := by
  obtain ⟨hb, ts, -, ht⟩ := h
  rw [engineTurn_completes (by exact hb)] at ht
  injection ht with ht
  subst ht
  refine ⟨hb, complete_busy _ _, complete_done _ _, fun herr => ?_, complete_ovr _ _, complete_cmdLast _ _⟩
  rcases complete_err_cases { s with schedule := ts } with ⟨-, hcode⟩ | ⟨herr', -⟩
  · exact hcode
  · simp [herr] at herr'

/-- What a reset leaves (R211). -/
theorem byReset_status {s t : State} (h : byReset s t) :
    t.busy = false ∧ t.done = false ∧ t.err = false ∧ t.errcode = 0 ∧ t.ovr = false := by
  obtain ⟨⟨-, -, -, -, -, -, hb, hd, he, ho, hc, -⟩, -⟩ := h
  exact ⟨hb, hd, he, hc, ho⟩

/-- Under the invariant a pending command has ERR = 0 and ERRCODE = 0 (R32). -/
theorem State.Inv.noError_of_busy {s : State} (h : s.Inv) (hb : s.busy = true) : s.err = false ∧ s.errcode = 0 := by
  obtain ⟨-, herr⟩ := h.busyClearsStatus hb
  exact ⟨herr, h.errMatchesCode.mp herr⟩

/-- Settles O55, event by event: with what the event leaves in STATUS and CMD_LAST, a change is either one the event explains or one
that it does not make. -/
theorem statusChangesOnlyAsSpecified : Obligations.StatusChangesOnlyAsSpecified := by
  intro s t hstep
  have errOff : s.Inv → (s.err = false ↔ s.errcode = 0) := State.Inv.errMatchesCode
  have noError : s.Inv → s.busy = true → s.err = false ∧ s.errcode = 0 := State.Inv.noError_of_busy
  rcases step_statusEvent hstep with acceptance | completion | reset | between
  · obtain ⟨hbusy, hdone, herr, hcode, hovr⟩ := byAcceptance_status acceptance
    grind
  · obtain ⟨wasBusy, hbusy, hdone, herr, hovr, hcmd⟩ := byCompletion_status completion
    grind
  · obtain ⟨hbusy, hdone, herr, hcode, hovr⟩ := byReset_status reset
    grind
  · obtain ⟨hbusy, hcmd, hdone, herr, hovr⟩ := between
    grind

end Sys2Proof.Machine
end

section
/-! PROOF. The frames of the commands (R24): what a completion leaves, by what the command may write, and which words of the aperture
therefore hold the same value. -/

namespace Sys2Proof.Machine

open Claims

theorem restUnchanged_complete (s : State) (r : Except ErrorCode Writes) : restUnchanged s (complete s r) := by
  simp [restUnchanged]

/-- An aperture word but STATUS depends on the fields outside STATUS and, in its own region, on INF or on its register (R67). -/
theorem wordUnchanged_of_region {s t : State} {off : Nat} (aligned : off % 4 = 0) (rest : restUnchanged s t) (status : off ≠ 0x008)
    (inf : off = 0x010 → t.inf = s.inf) (reg : ∀ i j, regionOf off = .reg i j → t.reg i = s.reg i) : wordUnchanged s t off := by
  obtain ⟨humod, hua, hub, hie, -, hcmd, -⟩ := rest
  unfold wordUnchanged
  cases h : regionOf off with
  | status => exact absurd (regionOf_eq_status aligned h) status
  | ctrl => simp only [regionWord, State.ctrlWord, hie]
  | cmd => exact hcmd
  | inf => simp only [regionWord, State.infWord, inf (regionOf_eq_inf aligned h)]
  | reg i j => simp only [regionWord, reg i j h]
  | umod j => simp only [regionWord, humod]
  | ua j => simp only [regionWord, hua]
  | ub j => simp only [regionWord, hub]
  | id => rfl
  | rom e j => rfl
  | reserved => rfl

/-! Completions by what they may write -/

/-- A completion that writes at most register rd leaves INF and every other register. -/
theorem complete_register_frame (s : State) {r : Except ErrorCode Writes} {rd : Reg}
    (writes : ∀ w, r = .ok w → ∃ v, w = .register rd v) :
    (complete s r).inf = s.inf ∧ ∀ i, i ≠ rd → (complete s r).reg i = s.reg i := by
  cases r with
  | error e => exact ⟨rfl, fun _ _ => rfl⟩
  | ok w =>
    obtain ⟨v, rfl⟩ := writes w rfl
    exact ⟨rfl, fun i hi => reg_setReg_ne s v hi.symm⟩

/-- A completion that writes at most the pair k leaves every register outside it and every other INF bit. -/
theorem complete_point_frame (s : State) {r : Except ErrorCode Writes} {k : Pair}
    (writes : ∀ w, r = .ok w → ∃ q, w = .point k q) :
    (∀ i : Reg, i.val / 2 ≠ k.val → (complete s r).reg i = s.reg i) ∧
      ∀ j, j ≠ k → (complete s r).infFlag j = s.infFlag j := by
  cases r with
  | error e => exact ⟨fun _ _ => rfl, fun _ _ => rfl⟩
  | ok w =>
    obtain ⟨q, rfl⟩ := writes w rfl
    exact ⟨fun i hi => reg_writePoint_ne s k q hi, fun j hj => infFlag_writePoint_ne s q hj⟩

/-- A completion that writes nothing leaves the registers and INF. -/
theorem complete_nothing_frame (s : State) {r : Except ErrorCode Writes} (writes : ∀ w, r = .ok w → w = .nothing) :
    (complete s r).x = s.x ∧ (complete s r).inf = s.inf := by
  cases r with
  | error e => exact ⟨rfl, rfl⟩
  | ok w =>
    obtain rfl := writes w rfl
    exact ⟨rfl, rfl⟩

/-! What the operand forms may write -/

theorem modular_writes {sel : ModSel} {op : Nat → Nat → Nat → Nat} {rd ra rb : Reg} {s : State} {w : Writes}
    (h : modular sel op rd ra rb s = .ok w) : ∃ v, w = .register rd v := by
  rcases modular_cases sel op rd ra rb s with ⟨e, -, h'⟩ | ⟨m, -, -, -, h'⟩ <;> rw [h'] at h
  · cases h
  · injection h with h
    exact ⟨_, h.symm⟩

theorem withPoint_writes {sel : CurveSel} {r : Reg} {s : State} {next : Curve → Point → Writes} {w : Writes}
    (h : withPoint sel r s next = .ok w) : ∃ c q, w = next c q := by
  rcases withPoint_cases sel r s next with ⟨e, -, h'⟩ | ⟨c, q, -, -, h'⟩ <;> rw [h'] at h
  · cases h
  · injection h with h
    exact ⟨c, q, h.symm⟩

theorem withPoints_writes {sel : CurveSel} {ra rb : Reg} {s : State} {next : Curve → Point → Point → Writes} {w : Writes}
    (h : withPoints sel ra rb s next = .ok w) : ∃ c p q, w = next c p q := by
  rcases withPoints_cases sel ra rb s next with ⟨e, -, h'⟩ | ⟨c, p, q, -, -, -, h'⟩ <;> rw [h'] at h
  · cases h
  · injection h with h
    exact ⟨c, p, q, h.symm⟩

/-- MODADD, MODSUB, MONTMUL and LDROM write at most rd (R123–R125, R175). -/
theorem execute_registerCommand_writes {sel : ModSel} {rd ra rb : Reg} {idx : Fin 16} {i : Instr} {s : State} {w : Writes}
    (hi : i = modaddOf sel rd ra rb ∨ i = modsubOf sel rd ra rb ∨ i = montmulOf sel rd ra rb ∨ i = .ldrom rd idx)
    (h : execute i s = .ok w) : ∃ v, w = .register rd v := by
  rcases hi with rfl | rfl | rfl | rfl
  · rw [execute_modaddOf] at h
    exact modular_writes h
  · rw [execute_modsubOf] at h
    exact modular_writes h
  · rw [execute_montmulOf] at h
    exact modular_writes h
  · injection h with h
    exact ⟨rom idx, h.symm⟩

/-- PADD, PDBL and SMUL write at most pair rd (R147–R149). -/
theorem execute_pointCommand_writes {sel : CurveSel} {rd ra rb : Reg} {i : Instr} {s : State} {w : Writes}
    (hi : i = paddOf sel rd ra rb ∨ i = pdblOf sel rd ra ∨ i = smulOf sel rd ra rb)
    (h : execute i s = .ok w) : ∃ q, w = .point (pairOf rd) q := by
  rcases hi with rfl | rfl | rfl
  · rw [execute_paddOf] at h
    obtain ⟨c, p, q, rfl⟩ := withPoints_writes h
    exact ⟨_, rfl⟩
  · rw [execute_pdblOf] at h
    obtain ⟨c, q, rfl⟩ := withPoint_writes h
    exact ⟨_, rfl⟩
  · rw [execute_smulOf] at h
    obtain ⟨c, q, rfl⟩ := withPoint_writes h
    exact ⟨_, rfl⟩

/-- PCHK writes nothing (R146). -/
theorem execute_pchkOf_writes {sel : CurveSel} {ra : Reg} {s : State} {w : Writes} (h : execute (pchkOf sel ra) s = .ok w) :
    w = .nothing := by
  rw [execute_pchkOf] at h
  obtain ⟨c, q, rfl⟩ := withPoint_writes h
  rfl

/-! The statements -/

/-- Settles O35: a register command writes at most rd, whose eight words are the only ones that can change. -/
theorem registerCommandsFrame : Obligations.RegisterCommandsFrame := by
  intro sel rd ra rb idx i s t hi h
  obtain rfl := exec_next h
  obtain ⟨inf, reg⟩ := complete_register_frame s fun w => execute_registerCommand_writes (w := w) hi
  refine ⟨reg, inf, restUnchanged_complete s _, fun off _ aligned status outside => ?_⟩
  refine wordUnchanged_of_region aligned (restUnchanged_complete s _) status (fun _ => inf) fun r j hr => reg r ?_
  rintro rfl
  exact outside (regionOf_eq_reg aligned hr)

/-- Settles O36: a point command writes at most pair rd, whose sixteen words and INF are the only ones that can change. -/
theorem pointCommandsFrame : Obligations.PointCommandsFrame := by
  intro sel rd ra rb i s t hi h
  obtain rfl := exec_next h
  obtain ⟨reg, inf⟩ := complete_point_frame s fun w => execute_pointCommand_writes (w := w) hi
  refine ⟨reg, inf, restUnchanged_complete s _, fun off _ aligned status notInf outside => ?_⟩
  refine wordUnchanged_of_region aligned (restUnchanged_complete s _) status (absurd · notInf) fun r j hr =>
    reg r fun hpair => outside ?_
  have range := regionOf_eq_reg aligned hr
  have hpair : r.val / 2 = rd.val / 2 := hpair
  omega

/-- Settles O37: PCHK writes nothing, so only STATUS can change. -/
theorem pchkFrame : Obligations.PchkFrame := by
  intro sel ra s t h
  obtain rfl := exec_next h
  obtain ⟨x, inf⟩ := complete_nothing_frame s fun w => execute_pchkOf_writes (w := w)
  refine ⟨x, inf, restUnchanged_complete s _, fun off _ aligned status => ?_⟩
  exact wordUnchanged_of_region aligned (restUnchanged_complete s _) status (fun _ => inf) fun r j _ => by rw [State.reg, x, State.reg]

end Sys2Proof.Machine
end

section
/-! PROOF. STATUS, CTRL and irq (R31, R32, R44). -/

namespace Sys2Proof.Machine

/-- STATUS as read, bit by bit (R32, R67). -/
theorem statusWord_getLsbD (s : State) (n : Nat) :
    s.statusWord.getLsbD n =
      if n = 0 then s.busy else if n = 1 then s.done else if n = 2 then s.err else if n = 3 then s.ovr
      else s.errcode.getLsbD (n - 4) := by
  unfold State.statusWord
  rw [BitVec.getLsbD_append, BitVec.getLsbD_append, BitVec.getLsbD_append, BitVec.getLsbD_append, BitVec.getLsbD_append]
  rcases n with _ | _ | _ | _ | n
  on_goal 5 => simpa using BitVec.lt_of_getLsbD
  all_goals simp

/-- From bit 4 up, STATUS reads ERRCODE. -/
theorem statusWord_getLsbD_errcode (s : State) (n : Nat) : s.statusWord.getLsbD (4 + n) = s.errcode.getLsbD n := by
  rw [statusWord_getLsbD, if_neg (by omega), if_neg (by omega), if_neg (by omega), if_neg (by omega), Nat.add_sub_cancel_left]

theorem statusWord_errcode (s : State) : s.statusWord.extractLsb' 4 4 = s.errcode := by
  apply BitVec.eq_of_getLsbD_eq
  intro n hn
  rw [BitVec.getLsbD_extractLsb', statusWord_getLsbD_errcode, decide_eq_true hn, Bool.true_and]

theorem statusWord_high (s : State) : s.statusWord.extractLsb' 8 24 = 0 := by
  apply BitVec.eq_of_getLsbD_eq
  intro n hn
  have pastCode : s.statusWord.getLsbD (8 + n) = false := by
    rw [show 8 + n = 4 + (4 + n) by omega, statusWord_getLsbD_errcode, BitVec.getLsbD_of_ge _ _ (by omega)]
  rw [BitVec.getLsbD_extractLsb', pastCode, Bool.and_false, BitVec.ofNat_eq_ofNat, BitVec.getLsbD_zero]

/-- The write-one-to-clear of STATUS depends on bits 1, 2 and 3 only (R32). -/
theorem clearStatus_congr (s : State) {v v' : Word32} (h1 : v.getLsbD 1 = v'.getLsbD 1) (h2 : v.getLsbD 2 = v'.getLsbD 2)
    (h3 : v.getLsbD 3 = v'.getLsbD 3) : s.clearStatus v = s.clearStatus v' := by
  simp only [State.clearStatus, h1, h2, h3]

/-- Settles O47. -/
theorem statusBitsAndClearing : Obligations.StatusBitsAndClearing := by
  intro s v v'
  rw [memRead_status, memWrite_status, memWrite_status]
  have bits : s.statusWord.getLsbD 0 = s.busy ∧ s.statusWord.getLsbD 1 = s.done ∧ s.statusWord.getLsbD 2 = s.err ∧
      s.statusWord.getLsbD 3 = s.ovr ∧ s.statusWord.extractLsb' 4 4 = s.errcode ∧ s.statusWord.extractLsb' 8 24 = 0 :=
    ⟨statusWord_getLsbD s 0, statusWord_getLsbD s 1, statusWord_getLsbD s 2, statusWord_getLsbD s 3, statusWord_errcode s,
      statusWord_high s⟩
  exact ⟨rfl, bits, clearStatus_congr s, rfl, rfl, rfl, rfl, rfl⟩

theorem ctrlWord_eq (s : State) : s.ctrlWord = if s.ie then 1 else 0 := by
  cases h : s.ie <;> simp [State.ctrlWord, h]

/-- Settles O48. -/
theorem ctrlReadAndWrite : Obligations.CtrlReadAndWrite := by
  intro s v
  rw [memRead_ctrl, ctrlWord_eq, memWrite_ctrl]
  refine ⟨rfl, fun hv => ?_, fun hv => ?_⟩
  · rw [if_pos hv]
    exact ⟨softReset_blockIsReset s, softReset_ie s⟩
  · rw [hv]
    rfl

theorem irq_eq_false_of_done {s : State} (h : s.done = false) : s.irq = false := by
  rw [State.irq, h, Bool.and_false]

/-- Settles O53. -/
theorem irqIsEnableAndDone : Obligations.IrqIsEnableAndDone := by
  intro s v
  refine ⟨Bool.and_eq_true_iff, fun hv => ?_, fun hb => ?_, irq_eq_false_of_done rfl, fun hb => ?_⟩
  · rw [memWrite_status]
    exact irq_eq_false_of_done (by rw [clearStatus_done, hv, Bool.not_true, Bool.and_false])
  · rw [memWrite_cmd, hb]
    exact irq_eq_false_of_done rfl
  · exact ⟨_, engineTurn_completes hb, by rw [State.irq, complete_ie, complete_done, Bool.and_true]⟩

end Sys2Proof.Machine
end

section
/-! SUPPORT. The aperture's words: reads and writes by region, a 256-bit word as a number, and the offset a region stands at (R62,
R63, R67, R69). -/

namespace Sys2Proof.Machine

open Claims

/-! Reads and writes, with and without the busy lock (R68) -/

theorem memRead_idle {s : State} (hb : s.busy = false) (off : Nat) : memRead s off = (regionWord s (regionOf off), s) := by
  rw [memRead, hb]
  rfl

theorem memRead_unlocked {off : Nat} (h : (regionOf off).locked = false) (s : State) :
    memRead s off = (regionWord s (regionOf off), s) := by
  rw [memRead, h, Bool.and_false]
  rfl

theorem memRead_lockedBusy {s : State} {off : Nat} (hb : s.busy = true) (h : (regionOf off).locked = true) :
    memRead s off = (Config.busyRead s.draws, { s with draws := s.draws + 1 }) := by
  rw [memRead, hb, h]
  rfl

theorem memWrite_idle {s : State} (hb : s.busy = false) (off : Nat) (v : Word32) :
    memWrite s off v = regionWrite s v (regionOf off) := by
  rw [memWrite, hb]
  rfl

theorem memWrite_unlocked {off : Nat} (h : (regionOf off).locked = false) (s : State) (v : Word32) :
    memWrite s off v = regionWrite s v (regionOf off) := by
  rw [memWrite, h, Bool.and_false]
  rfl

theorem memWrite_lockedBusy {s : State} {off : Nat} (hb : s.busy = true) (h : (regionOf off).locked = true) (v : Word32) :
    memWrite s off v = overrun s := by
  rw [memWrite, hb, h]
  rfl

/-! Words and registers as numbers -/

theorem getWord_eq_wordOf (v : Word256) (j : Fin 8) : getWord v j = wordOf v j.val := by
  apply BitVec.eq_of_toNat_eq
  rw [getWord, wordOf, BitVec.extractLsb'_toNat, Nat.shiftRight_eq_div_pow, BitVec.toNat_ofNat]

theorem wordReplaced_setWord (v : Word256) (j : Fin 8) (w : Word32) : wordReplaced v (setWord v j w) j.val w :=
  fun n _ => setWord_getLsbD v j w n

/-- The word an offset names, counted from the start of its region, which is a multiple of 32 (R63). -/
theorem wordIndex_val {off start : Nat} (h32 : start % 32 = 0) (hle : start ≤ off) :
    (wordIndex off).val = (off - start) % 32 / 4 := by
  simp only [wordIndex]
  omega

/-- In a region of one 256-bit value the word's number is the distance from its start, in words. -/
theorem wordIndex_val_single {off start : Nat} (h32 : start % 32 = 0) (hle : start ≤ off) (hlt : off ≤ start + 28) :
    (wordIndex off).val = (off - start) / 4 := by
  rw [wordIndex_val h32 hle, Nat.mod_eq_of_lt (by omega)]

theorem ctrlWord_eq_ofNat (s : State) : s.ctrlWord = BitVec.ofNat 32 s.ie.toNat := by
  rw [ctrlWord_eq]
  cases s.ie <;> rfl

theorem infWord_eq_ofNat (s : State) : s.infWord = BitVec.ofNat 32 s.inf.toNat := by
  rw [State.infWord, BitVec.zeroExtend_eq_setWidth, BitVec.ofNat_toNat]

/-- STATUS as the sum of its bits' weights (R32). -/
theorem statusWord_eq_ofNat (s : State) : s.statusWord =
    BitVec.ofNat 32 (s.errcode.toNat * 16 + s.ovr.toNat * 8 + s.err.toNat * 4 + s.done.toNat * 2 + s.busy.toNat) := by
  have bit (b : Bool) : b.toNat < 2 ^ 1 := b.toNat_lt
  have := s.errcode.isLt
  have := bit s.ovr; have := bit s.err; have := bit s.done; have := bit s.busy
  apply BitVec.eq_of_toNat_eq
  simp only [State.statusWord, BitVec.toNat_append, BitVec.toNat_ofBool, BitVec.toNat_ofNat]
  rw [shiftLeft_or_eq _ _ _ (bit _), shiftLeft_or_eq _ _ _ (bit _), shiftLeft_or_eq _ _ _ (bit _),
    shiftLeft_or_eq _ _ _ (bit _), shiftLeft_or_eq _ _ _ s.errcode.isLt]
  omega

end Sys2Proof.Machine
end

section
/-! PROOF. The read map and the write map of the aperture and the layout of its words (R63, R67, R69). -/

namespace Sys2Proof.Machine

open Claims

/-- Settles O38, region by region of the address map. -/
theorem readMapWhileIdle : Obligations.ReadMapWhileIdle := by
  intro s off hb _ aligned
  rw [memRead_idle hb]
  rcases regionOf_cases aligned with ⟨rfl, hr⟩ | ⟨rfl, hr⟩ | ⟨rfl, hr⟩ | ⟨rfl, hr⟩ | ⟨rfl, hr⟩ | ⟨⟨hle, hge⟩, hr⟩ | ⟨⟨hle, hge⟩, hr⟩ |
    ⟨⟨hle, hge⟩, hr⟩ | ⟨⟨hle, hge⟩, hr⟩ | ⟨⟨hle, hge⟩, hr⟩ | ⟨outside, hr⟩
  all_goals
    rw [hr, regionWord]
    simp (disch := omega) only [if_true, if_pos, if_neg]
  · rfl
  · rw [ctrlWord_eq_ofNat]
  · rw [statusWord_eq_ofNat]
  · rw [infWord_eq_ofNat]
  · rw [getWord_eq_wordOf, wordIndex_val (by decide) hle]
  iterate 3 rw [getWord_eq_wordOf, wordIndex_val_single (by decide) hle hge]
  · rw [getWord_eq_wordOf, wordIndex_val (by decide) hle]

theorem clearStatus_eq (s : State) (v : Word32) : s.clearStatus v = { s with
    done := if v.getLsbD 1 then false else s.done
    err := if v.getLsbD 2 then false else s.err
    errcode := if v.getLsbD 2 then 0 else s.errcode
    ovr := if v.getLsbD 3 then false else s.ovr } := by
  have clears (a b : Bool) : (a && !b) = if b then false else a := by cases b <;> simp
  simp only [State.clearStatus, clears]

/-- The ROM window and the reserved offsets ignore a write, busy or not (R69). -/
theorem memWrite_ignored {off : Nat} (aligned : off % 4 = 0)
    (h : (0x014 ≤ off ∧ off ≤ 0x0FC) ∨ (0x360 ≤ off ∧ off ≤ 0xFFC)) (s : State) (v : Word32) : memWrite s off v = s := by
  by_cases inRom : 0x400 ≤ off ∧ off ≤ 0x5FC
  · have region := regionOf_rom inRom.1 inRom.2
    rw [memWrite_unlocked (by rw [region]; rfl), region]
    rfl
  · have region := regionOf_reserved aligned (by omega)
    rw [memWrite_unlocked (by rw [region]; rfl), region]
    rfl

/-- Settles O39, clause by clause: the region of the offset, and what a write to that region does. -/
theorem writeMap : Obligations.WriteMap := by
  intro s off v hlt aligned
  refine ⟨fun released => ?_, ?id, ?srst, ?ie, ?status, ?overrun, ?accept, ?inf, fun hle hge hb => ?reg, fun hle hge hb => ?umod,
    fun hle hge hb => ?ua, fun hle hge hb => ?ub, fun h => memWrite_ignored aligned h s v⟩
  · rw [hostWrite, admitAccess_aperture released hlt aligned]
  case id =>
    rintro rfl
    rw [memWrite_unlocked rfl]
    rfl
  case srst =>
    rintro rfl hv
    rw [memWrite_ctrl, if_pos hv]
    exact softReset_blockIsReset s
  case ie =>
    rintro rfl hv
    rw [memWrite_ctrl, hv]
    rfl
  case status =>
    rintro rfl
    rw [memWrite_status, clearStatus_eq]
  case overrun =>
    rintro rfl hb
    rw [memWrite_cmd, if_pos hb]
    rfl
  case accept =>
    rintro rfl hb
    rw [memWrite_cmd, hb]
    rfl
  case inf =>
    rintro rfl hb
    rw [memWrite_idle hb]
    rfl
  case reg =>
    rw [memWrite_idle hb, regionOf_reg hle hge, ← wordIndex_val (by decide) hle]
    exact ⟨_, rfl, wordReplaced_setWord _ _ v⟩
  case umod =>
    rw [memWrite_idle hb, regionOf_umod hle hge, ← wordIndex_val_single (by decide) hle hge]
    exact ⟨_, rfl, wordReplaced_setWord _ _ v⟩
  case ua =>
    rw [memWrite_idle hb, regionOf_ua hle hge, ← wordIndex_val_single (by decide) hle hge]
    exact ⟨_, rfl, wordReplaced_setWord _ _ v⟩
  case ub =>
    rw [memWrite_idle hb, regionOf_ub hle hge, ← wordIndex_val_single (by decide) hle hge]
    exact ⟨_, rfl, wordReplaced_setWord _ _ v⟩

/-- Settles O40: the region at each offset, with the bits of a word that is read and of one that is replaced. -/
theorem wordLayoutOfTheAperture : Obligations.WordLayoutOfTheAperture := by
  intro s j w hb
  have bits (v : Word256) (n : Nat) (hn : n < 32) : (getWord v j).getLsbD n = v.getLsbD (224 - 32 * j.val + n) := by
    rw [getWord_getLsbD, decide_eq_true hn, Bool.true_and]
  simp only [memRead_idle hb, memWrite_idle hb, regionOf_reg_word, regionOf_umod_word, regionOf_ua_word, regionOf_ub_word,
    regionOf_rom_word, regionWord, regionWrite, reg_setReg_self]
  exact ⟨fun i => bits (s.reg i), bits s.umod, bits s.ua, bits s.ub, fun e => bits (rom e),
    fun i => wordReplaced_setWord (s.reg i) j w, wordReplaced_setWord s.umod j w, wordReplaced_setWord s.ua j w,
    wordReplaced_setWord s.ub j w⟩

end Sys2Proof.Machine
end

section
/-! PROOF. The busy lock (R34, R68): what a read and a write do while a command is pending, against the same access on the idle
block. -/

namespace Sys2Proof.Machine

open Claims

/-- No word but STATUS shows whether a command is pending. -/
theorem regionWord_withBusy (s : State) (b : Bool) {r : Region} (h : r ≠ .status) :
    regionWord { s with busy := b } r = regionWord s r := by
  cases r
  case status => exact absurd rfl h
  all_goals rfl

/-- STATUS of a pending block is STATUS of the idle one with its BUSY bit 1. -/
theorem statusWord_busy {s : State} (hb : s.busy = true) : s.statusWord = { s with busy := false }.statusWord ||| 1 := by
  apply BitVec.eq_of_getLsbD_eq
  intro n _
  rw [BitVec.getLsbD_or, BitVec.ofNat_eq_ofNat, statusWord_getLsbD, statusWord_getLsbD, BitVec.getLsbD_one]
  by_cases h0 : n = 0
  · simp [h0, hb]
  · simp [h0]

/-- Outside the locked regions, a write that is neither a command nor a reset does the same while a command is pending. -/
theorem regionWrite_busy {s : State} (hb : s.busy = true) {v : Word32} {r : Region} (unlocked : r.locked = false)
    (notCmd : r ≠ .cmd) (noReset : ¬ (r = .ctrl ∧ v.getLsbD 1 = true)) :
    regionWrite s v r = { regionWrite { s with busy := false } v r with busy := true } := by
  cases s
  obtain rfl : _ = true := hb
  cases r with
  | ctrl =>
    have hv : v.getLsbD 1 = false := by simpa using noReset
    simp only [regionWrite, hv, Bool.false_eq_true, if_false]
  | cmd => exact absurd rfl notCmd
  | id | status | rom e j | reserved => rfl
  | inf | reg i j | umod j | ua j | ub j => cases unlocked

/-- Settles O41: locked words draw and drop, the others answer as on the idle block. -/
theorem busyLock : Obligations.BusyLock := by
  intro s off v hb _ aligned
  have locked := regionOf_locked_iff aligned
  have unlocked : ¬ (off = 0x010 ∨ (0x100 ≤ off ∧ off ≤ 0x35C)) → (regionOf off).locked = false := fun h =>
    Bool.eq_false_of_not_eq_true (h ∘ locked.mp)
  refine ⟨fun h => ⟨memRead_lockedBusy hb (locked.mpr h), memWrite_lockedBusy hb (locked.mpr h) v⟩, ?cmd, fun h => ?read, ?status,
    ?reset, fun h notCmd noReset => ?write⟩
  case cmd =>
    rintro rfl
    rw [memWrite_cmd, if_pos hb]
    rfl
  case read =>
    rw [memRead_unlocked (unlocked h), memRead_unlocked (unlocked h)]
    exact ⟨rfl, fun notStatus => (regionWord_withBusy s false (notStatus ∘ regionOf_eq_status aligned)).symm⟩
  case status =>
    rintro rfl
    rw [memRead_status, memRead_status]
    exact statusWord_busy hb
  case reset =>
    rintro ⟨rfl, hv⟩
    rw [memWrite_ctrl, memWrite_ctrl, if_pos hv, if_pos hv]
    rfl
  case write =>
    rw [memWrite_unlocked (unlocked h), memWrite_unlocked (unlocked h)]
    exact regionWrite_busy hb (unlocked h) (notCmd ∘ regionOf_eq_cmd aligned)
      (noReset ∘ And.imp_left (regionOf_eq_ctrl aligned))

end Sys2Proof.Machine
end

section
/-! PROOF. What a write leaves to a later read: the word it wrote, and every other word of the aperture (R63, R72, R74). -/

namespace Sys2Proof.Machine

open Claims

/-- A write to a locked region leaves BUSY. -/
theorem regionWrite_busy_of_locked (s : State) (v : Word32) {r : Region} (h : r.locked = true) :
    (regionWrite s v r).busy = s.busy := by
  cases r with
  | inf | reg i j | umod j | ua j | ub j => rfl
  | id | ctrl | status | cmd | rom e j | reserved => cases h

/-- A word of an operand or user-curve register reads as it was written. -/
theorem regionWord_regionWrite_self (s : State) (v : Word32) {r : Region} (h : r.locked = true) (notInf : r ≠ .inf) :
    regionWord (regionWrite s v r) r = v := by
  cases r with
  | reg i j => rw [regionWrite, regionWord, reg_setReg_self, getWord_setWord_self]
  | umod j | ua j | ub j => exact getWord_setWord_self _ j v
  | inf => exact absurd rfl notInf
  | id | ctrl | status | cmd | rom e j | reserved => cases h

theorem infWord_regionWrite (s : State) (v : Word32) : (regionWrite s v .inf).infWord = v &&& 0xFF := by
  rw [infWord_eq_ofNat, regionWrite]
  apply BitVec.eq_of_toNat_eq
  rw [BitVec.toNat_and]
  simp only [BitVec.extractLsb'_toNat, BitVec.toNat_ofNat, Nat.shiftRight_zero]
  exact (Nat.mod_eq_of_lt (by omega)).trans (Nat.and_two_pow_sub_one_eq_mod v.toNat 8).symm

/-- Settles O42: the written region is not busy after the write, and holds the value. -/
theorem readAfterWriteReturnsTheValue : Obligations.ReadAfterWriteReturnsTheValue := by
  intro s off v hb aligned
  rw [memWrite_idle hb]
  refine ⟨fun hle hge => ?_, ?_⟩
  · have locked := (regionOf_locked_iff aligned).mpr (.inr ⟨hle, hge⟩)
    have notInf : regionOf off ≠ .inf := fun h => by have := regionOf_eq_inf aligned h; omega
    rw [memRead_idle (by rw [regionWrite_busy_of_locked s v locked, hb]), regionWord_regionWrite_self s v locked notInf]
  · rintro rfl
    rw [memRead_idle (by exact hb)]
    exact infWord_regionWrite s v

/-- The offset at which a region stands in the address map (R62); the reserved offsets have no one of their own. -/
def Region.offset : Region → Nat
  | .id => 0x000
  | .ctrl => 0x004
  | .status => 0x008
  | .cmd => 0x00C
  | .inf => 0x010
  | .reg i j => 0x100 + 32 * i.val + 4 * j.val
  | .umod j => 0x300 + 4 * j.val
  | .ua j => 0x320 + 4 * j.val
  | .ub j => 0x340 + 4 * j.val
  | .rom e j => 0x400 + 32 * e.val + 4 * j.val
  | .reserved => 0x014

/-- The offset determines the region, reserved ones apart (R62). -/
theorem offset_regionOf {off : Nat} (aligned : off % 4 = 0) (h : regionOf off ≠ .reserved) : (regionOf off).offset = off := by
  rcases regionOf_cases aligned with ⟨rfl, -⟩ | ⟨rfl, -⟩ | ⟨rfl, -⟩ | ⟨rfl, -⟩ | ⟨rfl, -⟩ | ⟨range, hr⟩ |
    ⟨range, hr⟩ | ⟨range, hr⟩ | ⟨range, hr⟩ | ⟨range, hr⟩ | ⟨-, hr⟩
  case inr.inr.inr.inr.inr.inr.inr.inr.inr.inr => exact absurd hr h
  iterate 5 rfl
  all_goals
    rw [hr]
    simp only [Region.offset, wordIndex, Fin.val_ofNat]
    omega

theorem regionOf_ne_of_ne {off off' : Nat} (aligned : off % 4 = 0) (aligned' : off' % 4 = 0) (ne : off ≠ off')
    (h : regionOf off ≠ .reserved) : regionOf off ≠ regionOf off' := by
  intro same
  have h1 := offset_regionOf aligned h
  rw [same, offset_regionOf aligned' (same ▸ h)] at h1
  exact ne h1.symm

/-- A write to a region that is not CTRL, STATUS or CMD leaves the word of every other region. -/
theorem regionWord_regionWrite_ne (s : State) (v : Word32) {r r' : Region} (ne : r = .reserved ∨ r ≠ r') (notCtrl : r ≠ .ctrl)
    (notStatus : r ≠ .status) (notCmd : r ≠ .cmd) : regionWord (regionWrite s v r) r' = regionWord s r' := by
  cases r with
  | ctrl => exact absurd rfl notCtrl
  | status => exact absurd rfl notStatus
  | cmd => exact absurd rfl notCmd
  | id | rom e j | reserved => rfl
  | inf =>
    cases r' with
    | inf => simp at ne
    | _ => rfl
  | reg i j =>
    cases r' with
    | reg i' j' =>
      rw [regionWrite, regionWord, regionWord, reg_setReg]
      split_ifs with same
      · subst same
        exact getWord_setWord_ne _ v fun h => by simp [h] at ne
      · rfl
    | _ => rfl
  | umod j =>
    cases r' with
    | umod j' => exact getWord_setWord_ne _ v fun h => by simp [h] at ne
    | _ => rfl
  | ua j =>
    cases r' with
    | ua j' => exact getWord_setWord_ne _ v fun h => by simp [h] at ne
    | _ => rfl
  | ub j =>
    cases r' with
    | ub j' => exact getWord_setWord_ne _ v fun h => by simp [h] at ne
    | _ => rfl

/-- Outside CTRL, STATUS and CMD a write moves neither BUSY nor what is left of the program and the schedule. -/
theorem regionWrite_environment (s : State) (v : Word32) {r : Region} (notCtrl : r ≠ .ctrl) (notStatus : r ≠ .status)
    (notCmd : r ≠ .cmd) : (regionWrite s v r).busy = s.busy ∧ (regionWrite s v r).program = s.program ∧
      (regionWrite s v r).schedule = s.schedule := by
  cases r with
  | ctrl => exact absurd rfl notCtrl
  | status => exact absurd rfl notStatus
  | cmd => exact absurd rfl notCmd
  | _ => exact ⟨rfl, rfl, rfl⟩

/-- Settles O43: the two offsets are of different regions, or the write is to a reserved offset. -/
theorem writeLeavesTheOtherWords : Obligations.WriteLeavesTheOtherWords := by
  intro s off off' v hb _ aligned _ aligned' ne notCtrl notStatus notCmd
  have notCtrl := notCtrl ∘ regionOf_eq_ctrl aligned
  have notStatus := notStatus ∘ regionOf_eq_status aligned
  have notCmd := notCmd ∘ regionOf_eq_cmd aligned
  have apart : regionOf off = .reserved ∨ regionOf off ≠ regionOf off' :=
    or_iff_not_imp_left.mpr (regionOf_ne_of_ne aligned aligned' ne)
  rw [memWrite_idle hb]
  exact ⟨regionWord_regionWrite_ne s v apart notCtrl notStatus notCmd, regionWrite_environment s v notCtrl notStatus notCmd⟩

end Sys2Proof.Machine
end

section
/-! PROOF. While a command is pending its operands do not change, so its completion does not depend on the accesses made meanwhile
(R24, R73, R75, R188). -/

namespace Sys2Proof.Machine

open Claims

/-- The operands a command may read, and the pending word, hold the same values in both states. -/
structure OperandsKept (s t : State) : Prop where
  x : t.x = s.x
  inf : t.inf = s.inf
  umod : t.umod = s.umod
  ua : t.ua = s.ua
  ub : t.ub = s.ub
  cmdLast : t.cmdLast = s.cmdLast

theorem OperandsKept.trans {s t u : State} (first : OperandsKept s t) (second : OperandsKept t u) : OperandsKept s u where
  x := second.x.trans first.x
  inf := second.inf.trans first.inf
  umod := second.umod.trans first.umod
  ua := second.ua.trans first.ua
  ub := second.ub.trans first.ub
  cmdLast := second.cmdLast.trans first.cmdLast

/-- A write while BUSY = 1 leaves the operands, unless it resets the block (R68, R69). -/
theorem memWrite_operandsKept {s : State} (hb : s.busy = true) {off : Nat} {v : Word32} (stays : (memWrite s off v).busy = true) :
    OperandsKept s (memWrite s off v) := by
  rcases memWrite_cases s off v with ⟨-, -, ht⟩ | ⟨-, -, ht⟩ | ⟨-, -, ht⟩ | ⟨-, ht⟩ | ⟨idle, -⟩ | ⟨idle, -⟩ | ⟨idle, -⟩ | ⟨idle, -⟩ |
    ⟨idle, -⟩ | ⟨idle, -⟩ | ht
  case inr.inl => simp [ht] at stays
  case inl | inr.inr.inl | inr.inr.inr.inl | inr.inr.inr.inr.inr.inr.inr.inr.inr.inr =>
    rw [ht]
    exact ⟨rfl, rfl, rfl, rfl, rfl, rfl⟩
  all_goals simp [hb] at idle

/-- A step that starts and ends with BUSY = 1 leaves the operands: it neither completes the command nor resets the block. -/
theorem step_operandsKept {s t : State} (hb : s.busy = true) (hstep : step s = .next t) (stays : t.busy = true) :
    OperandsKept s t := by
  obtain ⟨turn, ts, -, rfl | ⟨p, v, d, -, -, rfl⟩ | ⟨a, p, off, v, -, -, -, -, -, rfl⟩ | ⟨-, -, rfl⟩ | ⟨-, rfl⟩ | ⟨-, rfl⟩⟩ :=
    step_next hstep
  · exact ⟨rfl, rfl, rfl, rfl, rfl, rfl⟩
  · exact ⟨rfl, rfl, rfl, rfl, rfl, rfl⟩
  · obtain ⟨x, inf, umod, ua, ub, cmdLast⟩ := memWrite_operandsKept (s := { s with schedule := ts, program := p }) hb stays
    exact ⟨x, inf, umod, ua, ub, cmdLast⟩
  · simp at stays
  · simp at stays
  · exact ⟨rfl, rfl, rfl, rfl, rfl, rfl⟩

/-- Settles O56. -/
theorem operandsAreStableWhileBusy : Obligations.OperandsAreStableWhileBusy := by
  intro s t hb hstep stays
  obtain ⟨x, inf, umod, ua, ub, cmdLast⟩ := step_operandsKept hb hstep stays
  exact ⟨x, inf, umod, ua, ub, cmdLast⟩

/-- Any number of steps that leave the command pending leave its operands. -/
theorem busyRun_operandsKept {n : Nat} {s t : State} (hb : s.busy = true) (run : busyRun n s t) :
    t.busy = true ∧ OperandsKept s t := by
  induction n generalizing s with
  | zero =>
    obtain rfl : t = s := run
    exact ⟨hb, rfl, rfl, rfl, rfl, rfl, rfl⟩
  | succ n ih =>
    obtain ⟨u, hstep, stays, rest⟩ := run
    obtain ⟨pending, kept⟩ := ih stays rest
    exact ⟨pending, (step_operandsKept hb hstep stays).trans kept⟩

/-- A pending command executes the same on states with the same operands and the same pending word. -/
theorem OperandsKept.executePending_eq {s t : State} (h : OperandsKept s t) : executePending t = executePending s := by
  have executes (i : Instr) : execute i t = execute i s := execute_congr i h.x h.inf h.umod h.ua h.ub
  simp only [executePending, h.cmdLast, executes]

/-- What a command commits depends on the operand registers and INF only (R188). -/
theorem commit_congr {s t : State} (hx : t.x = s.x) (hi : t.inf = s.inf) (w : Writes) :
    (t.commit w).x = (s.commit w).x ∧ (t.commit w).inf = (s.commit w).inf := by
  cases w with
  | nothing => exact ⟨hx, hi⟩
  | register rd v => exact ⟨congrArg (·.set rd.val v) hx, hi⟩
  | point k q =>
    cases q <;> simp [State.commit, State.writePoint, hx, hi]

/-- What a completion leaves in the registers, INF, ERR and ERRCODE depends on the operand registers, INF and the outcome. -/
theorem complete_congr {s t : State} (hx : t.x = s.x) (hi : t.inf = s.inf) (r : Except ErrorCode Writes) :
    (complete t r).x = (complete s r).x ∧ (complete t r).inf = (complete s r).inf ∧ (complete t r).err = (complete s r).err ∧
      (complete t r).errcode = (complete s r).errcode := by
  cases r with
  | error e => exact ⟨hx, hi, rfl, rfl⟩
  | ok w =>
    obtain ⟨x, inf⟩ := commit_congr hx hi w
    exact ⟨x, inf, rfl, rfl⟩

/-- Settles O57: the operands are those of the acceptance, so the engine's turn executes and commits the same. -/
theorem completionIsIndependentOfInterleaving : Obligations.CompletionIsIndependentOfInterleaving := by
  intro n s t i hb run hdecode
  obtain ⟨pending, kept⟩ := busyRun_operandsKept hb run
  have outcome : executePending t = execute i s := by
    rw [kept.executePending_eq, executePending, hdecode]
  obtain ⟨x, inf, err, errcode⟩ := complete_congr kept.x kept.inf (execute i s)
  refine ⟨_, _, exec_eq_complete i s, outcome ▸ engineTurn_completes pending, x, inf, err, errcode, ?_⟩
  simp [kept.umod, kept.ua, kept.ub]

end Sys2Proof.Machine
end

section
/-! PROOF. Which host accesses are admitted (R60, R66, R213). -/

namespace Sys2Proof.Machine

open Claims

/-! Why an access is not admitted, in the model's order -/

theorem admitAccess_reset {s : State} (h : s.rstIn = true) (a : BusAddr) (width : Nat) :
    admitAccess s a width = .refused .accessDuringReset := by
  rw [admitAccess, if_pos h]

theorem admitAccess_outside {s : State} (released : s.rstIn = false) {a : BusAddr} (h : a.offset = none) (width : Nat) :
    admitAccess s a width = .fault .outsideAperture := by
  rw [admitAccess, released, h]
  rfl

theorem admitAccess_width {s : State} (released : s.rstIn = false) {a : BusAddr} {off width : Nat} (ha : a.offset = some off)
    (h : width ≠ 4) : admitAccess s a width = .refused .accessWidth := by
  rw [admitAccess, released, ha]
  exact if_pos h

theorem admitAccess_word {s : State} (released : s.rstIn = false) {a : BusAddr} {off : Nat} (ha : a.offset = some off) :
    admitAccess s a 4 = if off % 4 ≠ 0 then .refused .accessMisaligned else .next off := by
  rw [admitAccess, released, ha]
  rfl

theorem offset_eq_none_of_outside {a : BusAddr} (h : outside a) : a.offset = none := by
  rcases h with ⟨off, hle, rfl⟩ | ⟨addr, hout, rfl⟩
  · exact if_neg (by omega)
  · exact if_neg (by omega)

/-! The host's turn by what `admitAccess` answers -/

section

variable {s : State} {a : BusAddr} {width : Nat} (v : Word32) (rest : List HostOp)

theorem hostTurn_read (h : s.program = .read a width :: rest) : hostTurn s = hostRead { s with program := rest } a width := by
  rw [hostTurn, h]
  rfl

theorem hostTurn_write (h : s.program = .write a width v :: rest) :
    hostTurn s = hostWrite { s with program := rest } a width v := by
  rw [hostTurn, h]
  rfl

theorem hostTurn_refused {r : Refusal} (h : admitAccess s a width = .refused r) :
    (s.program = .read a width :: rest → hostTurn s = .refused r) ∧
    (s.program = .write a width v :: rest → hostTurn s = .refused r) := by
  have h' : admitAccess { s with program := rest } a width = .refused r := h
  exact ⟨fun hp => by rw [hostTurn_read rest hp, hostRead, h'], fun hp => by rw [hostTurn_write v rest hp, hostWrite, h']⟩

theorem hostTurn_fault {r : Fault} (h : admitAccess s a width = .fault r) :
    (s.program = .read a width :: rest → hostTurn s = .fault r) ∧
    (s.program = .write a width v :: rest → hostTurn s = .fault r) := by
  have h' : admitAccess { s with program := rest } a width = .fault r := h
  exact ⟨fun hp => by rw [hostTurn_read rest hp, hostRead, h'], fun hp => by rw [hostTurn_write v rest hp, hostWrite, h']⟩

theorem hostTurn_admitted {off : Nat} (h : admitAccess s a width = .next off) :
    (s.program = .read a width :: rest → hostTurn s = .next { (memRead { s with program := rest } off).2 with
      reads := (memRead { s with program := rest } off).1 :: s.reads }) ∧
    (s.program = .write a width v :: rest → hostTurn s = .next (memWrite { s with program := rest } off v)) := by
  have h' : admitAccess { s with program := rest } a width = .next off := h
  exact ⟨fun hp => by rw [hostTurn_read rest hp, hostRead, h'], fun hp => by rw [hostTurn_write v rest hp, hostWrite, h']⟩

end

/-- Settles O44: BASE is a multiple of 4096 by its definition, and each clause is one answer of `admitAccess`. -/
theorem admittedAccesses : Obligations.AdmittedAccesses := by
  refine ⟨Nat.mul_mod_right 4096 Config.basePage, fun s a off width v rest => ⟨fun asserted => ?reset, fun released out => ?outside,
    fun released named wrong => ?width, fun released named odd => ?misaligned, fun released named aligned => ?admitted⟩⟩
  case reset => exact hostTurn_refused v rest (admitAccess_reset asserted a width)
  case outside => exact hostTurn_fault v rest (admitAccess_outside released (offset_eq_none_of_outside out) width)
  case width => exact hostTurn_refused v rest (admitAccess_width released (offset_eq_some_iff.mpr named) wrong)
  case misaligned =>
    apply hostTurn_refused v rest
    rw [admitAccess_word released (offset_eq_some_iff.mpr named), if_pos odd]
  case admitted =>
    apply hostTurn_admitted v rest
    rw [admitAccess_word released (offset_eq_some_iff.mpr named), if_neg (not_not.mpr aligned)]

end Sys2Proof.Machine
end

section
/-! SUPPORT. The decoder and the encoder, said once: the fields MSEL and the rows of the opcode table, which words decode to which
command, and the word the fields of a word spell (R91, R93, R97, R98). -/

namespace Sys2Proof

open Machine

/-- MSEL of a modular command's suffix (R93). -/
def ModSel.msel : ModSel → BitVec 2
  | .p => 0b00
  | .n => 0b01
  | .u => 0b10

/-- MSEL of a point command's suffix (R93). -/
def CurveSel.msel : CurveSel → BitVec 2
  | .k => 0b00
  | .u => 0b10

theorem even_eq_true_iff (r : Reg) : Reg.even r = true ↔ r.val % 2 = 0 := by
  rw [Reg.even, beq_iff_eq]

/-! The word of each operation, for every suffix -/

section

variable (sel : ModSel) (c : CurveSel) (rd ra rb : Reg)

theorem encode_modaddOf : encode (modaddOf sel rd ra rb) = commandWord 1 rd ra rb sel.msel := by cases sel <;> rfl

theorem encode_modsubOf : encode (modsubOf sel rd ra rb) = commandWord 2 rd ra rb sel.msel := by cases sel <;> rfl

theorem encode_montmulOf : encode (montmulOf sel rd ra rb) = commandWord 3 rd ra rb sel.msel := by cases sel <;> rfl

theorem encode_pchkOf : encode (pchkOf c ra) = commandWord 4 0 ra 0 c.msel := by cases c <;> rfl

theorem encode_paddOf : encode (paddOf c rd ra rb) = commandWord 5 rd ra rb c.msel := by cases c <;> rfl

theorem encode_pdblOf : encode (pdblOf c rd ra) = commandWord 6 rd ra 0 c.msel := by cases c <;> rfl

theorem encode_smulOf : encode (smulOf c rd ra rb) = commandWord 7 rd ra rb c.msel := by cases c <;> rfl

/-! The operands each operation admits (R97) -/

theorem wellFormed_modaddOf : (modaddOf sel rd ra rb).wellFormed = true := by cases sel <;> rfl

theorem wellFormed_modsubOf : (modsubOf sel rd ra rb).wellFormed = true := by cases sel <;> rfl

theorem wellFormed_montmulOf : (montmulOf sel rd ra rb).wellFormed = true := by cases sel <;> rfl

theorem wellFormed_pchkOf : (pchkOf c ra).wellFormed = Reg.even ra := by cases c <;> rfl

theorem wellFormed_paddOf : (paddOf c rd ra rb).wellFormed = (Reg.even rd && Reg.even ra && Reg.even rb) := by cases c <;> rfl

theorem wellFormed_pdblOf : (pdblOf c rd ra).wellFormed = (Reg.even rd && Reg.even ra) := by cases c <;> rfl

theorem wellFormed_smulOf : (smulOf c rd ra rb).wellFormed = (Reg.even rd && Reg.even rb) := by cases c <;> rfl

end

/-- A word with RSV = 0 is spelled by its own fields (R91). -/
theorem commandWord_fields {w : Word32} {op : BitVec 4} {msel : BitVec 2} (hrsv : rsvField w = 0) (hop : opField w = op.toNat)
    (hmsel : mselField w = msel.toNat) : commandWord op (rdField w) (raField w) (rbField w) msel = w := by
  apply BitVec.eq_of_toNat_eq
  rw [commandWord_toNat, ← hop, ← hmsel, opField_eq, rdField_val, raField_val, rbField_val, mselField_eq]
  rw [rsvField_eq] at hrsv
  omega

/-! Which words decode -/

/-- The fields of `w` are those of one row of the opcode table, and `i` is that row's command (R97, R98). -/
inductive MatchesRow (w : Word32) : Instr → Prop where
  | modadd (sel : ModSel) (op : opField w = 1) (msel : mselField w = sel.msel.toNat) :
      MatchesRow w (modaddOf sel (rdField w) (raField w) (rbField w))
  | modsub (sel : ModSel) (op : opField w = 2) (msel : mselField w = sel.msel.toNat) :
      MatchesRow w (modsubOf sel (rdField w) (raField w) (rbField w))
  | montmul (sel : ModSel) (op : opField w = 3) (msel : mselField w = sel.msel.toNat) :
      MatchesRow w (montmulOf sel (rdField w) (raField w) (rbField w))
  | pchk (c : CurveSel) (op : opField w = 4) (msel : mselField w = c.msel.toNat) (rd : rdField w = 0) (rb : rbField w = 0)
      (even : Reg.even (raField w) = true) : MatchesRow w (pchkOf c (raField w))
  | padd (c : CurveSel) (op : opField w = 5) (msel : mselField w = c.msel.toNat)
      (even : (Reg.even (rdField w) && Reg.even (raField w) && Reg.even (rbField w)) = true) :
      MatchesRow w (paddOf c (rdField w) (raField w) (rbField w))
  | pdbl (c : CurveSel) (op : opField w = 6) (msel : mselField w = c.msel.toNat) (rb : rbField w = 0)
      (even : (Reg.even (rdField w) && Reg.even (raField w)) = true) : MatchesRow w (pdblOf c (rdField w) (raField w))
  | smul (c : CurveSel) (op : opField w = 7) (msel : mselField w = c.msel.toNat)
      (even : (Reg.even (rdField w) && Reg.even (rbField w)) = true) :
      MatchesRow w (smulOf c (rdField w) (raField w) (rbField w))
  | ldrom (op : opField w = 8) (msel : mselField w = 0) (rb : rbField w = 0) (defined : (raField w).val ≤ 10) :
      MatchesRow w (.ldrom (rdField w) (raField w))

theorem decodeModular_eq_ok_iff (f : ModSel → Instr) (msel : Nat) (i : Instr) :
    decodeModular (f .p) (f .n) (f .u) msel = .ok i ↔ ∃ sel : ModSel, msel = sel.msel.toNat ∧ f sel = i := by
  constructor
  · intro h
    unfold decodeModular at h
    split at h <;> cases h
    exacts [⟨.p, rfl, rfl⟩, ⟨.n, rfl, rfl⟩, ⟨.u, rfl, rfl⟩]
  · rintro ⟨sel, rfl, rfl⟩
    cases sel <;> rfl

theorem decodePoint_eq_ok_iff (f : CurveSel → Instr) (msel : Nat) (i : Instr) :
    decodePoint (f .k) (f .u) msel = .ok i ↔ ∃ c : CurveSel, msel = c.msel.toNat ∧ f c = i := by
  constructor
  · intro h
    unfold decodePoint at h
    split at h <;> cases h
    exacts [⟨.k, rfl, rfl⟩, ⟨.u, rfl, rfl⟩]
  · rintro ⟨c, rfl, rfl⟩
    cases c <;> rfl

/-- The decoder answers a command exactly when RSV is 0 and the word matches the command's row. -/
theorem decode_eq_ok_iff (w : Word32) (i : Instr) : decode w = .ok i ↔ rsvField w = 0 ∧ MatchesRow w i := by
  constructor
  · intro h
    unfold decode at h
    split at h
    case isTrue => cases h
    case isFalse hrsv =>
      refine ⟨not_not.mp hrsv, ?_⟩
      split at h
      case h_1 op =>
        obtain ⟨sel, msel, rfl⟩ := (decodeModular_eq_ok_iff (modaddOf · _ _ _) _ _).mp h
        exact .modadd sel op msel
      case h_2 op =>
        obtain ⟨sel, msel, rfl⟩ := (decodeModular_eq_ok_iff (modsubOf · _ _ _) _ _).mp h
        exact .modsub sel op msel
      case h_3 op =>
        obtain ⟨sel, msel, rfl⟩ := (decodeModular_eq_ok_iff (montmulOf · _ _ _) _ _).mp h
        exact .montmul sel op msel
      case h_4 op =>
        unfold decodePchk at h
        split_ifs at h with unused even
        obtain ⟨c, msel, rfl⟩ := (decodePoint_eq_ok_iff (pchkOf · _) _ _).mp h
        simp only [ne_eq, not_or, not_not, Bool.not_eq_false] at unused even
        exact .pchk c op msel unused.1 unused.2 even
      case h_5 op =>
        unfold decodePadd at h
        split_ifs at h with even
        obtain ⟨c, msel, rfl⟩ := (decodePoint_eq_ok_iff (paddOf · _ _ _) _ _).mp h
        exact .padd c op msel (Bool.not_eq_false _ ▸ even)
      case h_6 op =>
        unfold decodePdbl at h
        split_ifs at h with unused even
        obtain ⟨c, msel, rfl⟩ := (decodePoint_eq_ok_iff (pdblOf · _ _) _ _).mp h
        exact .pdbl c op msel (not_not.mp unused) (Bool.not_eq_false _ ▸ even)
      case h_7 op =>
        unfold decodeSmul at h
        split_ifs at h with even
        obtain ⟨c, msel, rfl⟩ := (decodePoint_eq_ok_iff (smulOf · _ _ _) _ _).mp h
        exact .smul c op msel (Bool.not_eq_false _ ▸ even)
      case h_8 op =>
        unfold decodeLdrom at h
        split_ifs at h with unused undef
        cases h
        simp only [ne_eq, not_or, not_not] at unused
        exact .ldrom op unused.2 unused.1 (not_lt.mp undef)
      case h_9 => cases h
  · rintro ⟨hrsv, h⟩
    cases h with
    | modadd sel op msel =>
      simp only [decode, hrsv, op]
      exact (decodeModular_eq_ok_iff (modaddOf · _ _ _) _ _).mpr ⟨sel, msel, rfl⟩
    | modsub sel op msel =>
      simp only [decode, hrsv, op]
      exact (decodeModular_eq_ok_iff (modsubOf · _ _ _) _ _).mpr ⟨sel, msel, rfl⟩
    | montmul sel op msel =>
      simp only [decode, hrsv, op]
      exact (decodeModular_eq_ok_iff (montmulOf · _ _ _) _ _).mpr ⟨sel, msel, rfl⟩
    | pchk c op msel rd rb even =>
      simp only [decode, hrsv, op, decodePchk, rd, rb, even]
      exact (decodePoint_eq_ok_iff (pchkOf · _) _ _).mpr ⟨c, msel, rfl⟩
    | padd c op msel even =>
      simp only [decode, hrsv, op, decodePadd, even]
      exact (decodePoint_eq_ok_iff (paddOf · _ _ _) _ _).mpr ⟨c, msel, rfl⟩
    | pdbl c op msel rb even =>
      simp only [decode, hrsv, op, decodePdbl, rb, even]
      exact (decodePoint_eq_ok_iff (pdblOf · _ _) _ _).mpr ⟨c, msel, rfl⟩
    | smul c op msel even =>
      simp only [decode, hrsv, op, decodeSmul, even]
      exact (decodePoint_eq_ok_iff (smulOf · _ _ _) _ _).mpr ⟨c, msel, rfl⟩
    | ldrom op msel rb defined =>
      simp [decode, hrsv, op, decodeLdrom, rb, msel, not_lt.mpr defined]

end Sys2Proof
end

section
/-! PROOF. Decoding and encoding are inverse to each other, and which words are legal (R92, R97, R98, R105). -/

namespace Sys2Proof

open Machine Claims

/-- Every command is one of the eight operations with a suffix (R92, R93). -/
theorem instr_operation_cases (i : Instr) :
    (∃ sel rd ra rb, i = modaddOf sel rd ra rb) ∨ (∃ sel rd ra rb, i = modsubOf sel rd ra rb) ∨
    (∃ sel rd ra rb, i = montmulOf sel rd ra rb) ∨ (∃ c ra, i = pchkOf c ra) ∨ (∃ c rd ra rb, i = paddOf c rd ra rb) ∨
    (∃ c rd ra, i = pdblOf c rd ra) ∨ (∃ c rd ra rb, i = smulOf c rd ra rb) ∨ (∃ rd idx, i = .ldrom rd idx) := by
  cases i with
  | modaddP rd ra rb => exact .inl ⟨.p, rd, ra, rb, rfl⟩
  | modaddN rd ra rb => exact .inl ⟨.n, rd, ra, rb, rfl⟩
  | modaddU rd ra rb => exact .inl ⟨.u, rd, ra, rb, rfl⟩
  | modsubP rd ra rb => exact .inr (.inl ⟨.p, rd, ra, rb, rfl⟩)
  | modsubN rd ra rb => exact .inr (.inl ⟨.n, rd, ra, rb, rfl⟩)
  | modsubU rd ra rb => exact .inr (.inl ⟨.u, rd, ra, rb, rfl⟩)
  | montmulP rd ra rb => exact .inr (.inr (.inl ⟨.p, rd, ra, rb, rfl⟩))
  | montmulN rd ra rb => exact .inr (.inr (.inl ⟨.n, rd, ra, rb, rfl⟩))
  | montmulU rd ra rb => exact .inr (.inr (.inl ⟨.u, rd, ra, rb, rfl⟩))
  | pchkK ra => exact .inr (.inr (.inr (.inl ⟨.k, ra, rfl⟩)))
  | pchkU ra => exact .inr (.inr (.inr (.inl ⟨.u, ra, rfl⟩)))
  | paddK rd ra rb => exact .inr (.inr (.inr (.inr (.inl ⟨.k, rd, ra, rb, rfl⟩))))
  | paddU rd ra rb => exact .inr (.inr (.inr (.inr (.inl ⟨.u, rd, ra, rb, rfl⟩))))
  | pdblK rd ra => exact .inr (.inr (.inr (.inr (.inr (.inl ⟨.k, rd, ra, rfl⟩)))))
  | pdblU rd ra => exact .inr (.inr (.inr (.inr (.inr (.inl ⟨.u, rd, ra, rfl⟩)))))
  | smulK rd ra rb => exact .inr (.inr (.inr (.inr (.inr (.inr (.inl ⟨.k, rd, ra, rb, rfl⟩))))))
  | smulU rd ra rb => exact .inr (.inr (.inr (.inr (.inr (.inr (.inl ⟨.u, rd, ra, rb, rfl⟩))))))
  | ldrom rd idx => exact .inr (.inr (.inr (.inr (.inr (.inr (.inr ⟨rd, idx, rfl⟩))))))

/-- The word of a command has RSV = 0 (R96). -/
theorem rsvField_encode (i : Instr) : rsvField (encode i) = 0 := by
  cases i <;> exact rsvField_commandWord ..

/-- The word of a well-formed command matches that command's row. -/
theorem matchesRow_encode {i : Instr} (wf : i.wellFormed = true) : MatchesRow (encode i) i := by
  rcases instr_operation_cases i with ⟨sel, rd, ra, rb, rfl⟩ | ⟨sel, rd, ra, rb, rfl⟩ | ⟨sel, rd, ra, rb, rfl⟩ | ⟨c, ra, rfl⟩ |
    ⟨c, rd, ra, rb, rfl⟩ | ⟨c, rd, ra, rfl⟩ | ⟨c, rd, ra, rb, rfl⟩ | ⟨rd, idx, rfl⟩
  · have row := MatchesRow.modadd sel (opField_commandWord 1 rd ra rb _) (mselField_commandWord ..)
    simpa only [encode_modaddOf, rdField_commandWord, raField_commandWord, rbField_commandWord] using row
  · have row := MatchesRow.modsub sel (opField_commandWord 2 rd ra rb _) (mselField_commandWord ..)
    simpa only [encode_modsubOf, rdField_commandWord, raField_commandWord, rbField_commandWord] using row
  · have row := MatchesRow.montmul sel (opField_commandWord 3 rd ra rb _) (mselField_commandWord ..)
    simpa only [encode_montmulOf, rdField_commandWord, raField_commandWord, rbField_commandWord] using row
  · rw [wellFormed_pchkOf] at wf
    have row := MatchesRow.pchk c (opField_commandWord 4 0 ra 0 _) (mselField_commandWord ..) (rdField_commandWord ..)
      (rbField_commandWord ..) (raField_commandWord .. ▸ wf)
    simpa only [encode_pchkOf, raField_commandWord] using row
  · rw [wellFormed_paddOf] at wf
    have row := MatchesRow.padd c (opField_commandWord 5 rd ra rb _) (mselField_commandWord ..)
      (by rwa [rdField_commandWord, raField_commandWord, rbField_commandWord])
    simpa only [encode_paddOf, rdField_commandWord, raField_commandWord, rbField_commandWord] using row
  · rw [wellFormed_pdblOf] at wf
    have row := MatchesRow.pdbl c (opField_commandWord 6 rd ra 0 _) (mselField_commandWord ..) (rbField_commandWord ..)
      (by rwa [rdField_commandWord, raField_commandWord])
    simpa only [encode_pdblOf, rdField_commandWord, raField_commandWord] using row
  · rw [wellFormed_smulOf] at wf
    have row := MatchesRow.smul c (opField_commandWord 7 rd ra rb _) (mselField_commandWord ..)
      (by rwa [rdField_commandWord, rbField_commandWord])
    simpa only [encode_smulOf, rdField_commandWord, raField_commandWord, rbField_commandWord] using row
  · have defined : idx.val ≤ 10 := of_decide_eq_true wf
    have row := MatchesRow.ldrom (opField_commandWord 8 rd idx 0 0) (mselField_commandWord ..) (rbField_commandWord ..)
      (by rwa [raField_commandWord])
    simpa only [encode, rdField_commandWord, raField_commandWord] using row

/-- A word that matches a row is the encoding of the row's command, whose operands the row admits. -/
theorem MatchesRow.wellFormed_and_encode_eq {w : Word32} {i : Instr} (hrsv : rsvField w = 0) (h : MatchesRow w i) :
    i.wellFormed = true ∧ encode i = w := by
  cases h with
  | modadd sel op msel => exact ⟨wellFormed_modaddOf .., encode_modaddOf .. ▸ commandWord_fields hrsv op msel⟩
  | modsub sel op msel => exact ⟨wellFormed_modsubOf .., encode_modsubOf .. ▸ commandWord_fields hrsv op msel⟩
  | montmul sel op msel => exact ⟨wellFormed_montmulOf .., encode_montmulOf .. ▸ commandWord_fields hrsv op msel⟩
  | pchk c op msel rd rb even =>
    refine ⟨wellFormed_pchkOf .. ▸ even, ?_⟩
    rw [encode_pchkOf]
    simpa only [rd, rb] using commandWord_fields (op := 4) hrsv op msel
  | padd c op msel even => exact ⟨wellFormed_paddOf .. ▸ even, encode_paddOf .. ▸ commandWord_fields hrsv op msel⟩
  | pdbl c op msel rb even =>
    refine ⟨wellFormed_pdblOf .. ▸ even, ?_⟩
    rw [encode_pdblOf]
    simpa only [rb] using commandWord_fields (op := 6) hrsv op msel
  | smul c op msel even => exact ⟨wellFormed_smulOf .. ▸ even, encode_smulOf .. ▸ commandWord_fields hrsv op msel⟩
  | ldrom op msel rb defined =>
    refine ⟨decide_eq_true defined, ?_⟩
    rw [encode]
    simpa only [rb] using commandWord_fields (op := 8) (msel := 0) hrsv op msel

/-- Settles O2: the word of a well-formed command matches the command's row, and the decoder answers the row a word matches. -/
theorem decodeOfEncodeIsTheCommand : Obligations.DecodeOfEncodeIsTheCommand :=
  fun i wf => (decode_eq_ok_iff _ i).mpr ⟨rsvField_encode i, matchesRow_encode wf⟩

/-- Settles O3: a word that decodes matches a row, and its fields spell the word of the row's command. -/
theorem encodeOfDecodeIsTheWord : Obligations.EncodeOfDecodeIsTheWord := by
  intro w i h
  obtain ⟨hrsv, row⟩ := (decode_eq_ok_iff w i).mp h
  exact row.wellFormed_and_encode_eq hrsv

/-- Settles O1: each sample command is well-formed and its word is computed, so the word decodes to it; the illegal words are
decoded one by one. -/
theorem sampleWordsEncodeAndDecode : Obligations.SampleWordsEncodeAndDecode := by
  refine ⟨fun p sample => ?_, by decide⟩
  have encodes : p.1.wellFormed = true ∧ encode p.1 = p.2 := by
    revert p
    decide
  exact ⟨encodes.2, encodes.2 ▸ decodeOfEncodeIsTheCommand p.1 encodes.1⟩

/-! The legal words -/

/-- MSEL names a modulus unless it is 11 (R93). -/
theorem exists_modSel_iff {n : Nat} (hn : n < 4) : (∃ sel : ModSel, n = sel.msel.toNat) ↔ n ≠ 3 := by
  constructor
  · rintro ⟨sel, rfl⟩
    cases sel <;> decide
  · intro h
    obtain rfl | rfl | rfl : n = 0 ∨ n = 1 ∨ n = 2 := by omega
    exacts [⟨.p, rfl⟩, ⟨.n, rfl⟩, ⟨.u, rfl⟩]

/-- MSEL names a curve when it is 00 or 10 (R93). -/
theorem exists_curveSel_iff (n : Nat) : (∃ c : CurveSel, n = c.msel.toNat) ↔ n = 0 ∨ n = 2 := by
  constructor
  · rintro ⟨c, rfl⟩
    cases c <;> decide
  · rintro (rfl | rfl)
    exacts [⟨.k, rfl⟩, ⟨.u, rfl⟩]

theorem mselField_lt (w : Word32) : mselField w < 4 := (w.extractLsb' 16 2).isLt

/-- The legal words of R98, on the model's field readers. -/
theorem legalWord_iff (w : Word32) : legalWord w ↔ rsvField w = 0 ∧
    (((opField w = 1 ∨ opField w = 2 ∨ opField w = 3) ∧ mselField w ≠ 3) ∨
     (opField w = 4 ∧ rdField w = 0 ∧ rbField w = 0 ∧ Reg.even (raField w) = true ∧ (mselField w = 0 ∨ mselField w = 2)) ∨
     (opField w = 5 ∧ Reg.even (rdField w) = true ∧ Reg.even (raField w) = true ∧ Reg.even (rbField w) = true ∧
      (mselField w = 0 ∨ mselField w = 2)) ∨
     (opField w = 6 ∧ Reg.even (rdField w) = true ∧ Reg.even (raField w) = true ∧ rbField w = 0 ∧
      (mselField w = 0 ∨ mselField w = 2)) ∨
     (opField w = 7 ∧ Reg.even (rdField w) = true ∧ Reg.even (rbField w) = true ∧ (mselField w = 0 ∨ mselField w = 2)) ∨
     (opField w = 8 ∧ (raField w).val ≤ 10 ∧ rbField w = 0 ∧ mselField w = 0)) := by
  simp only [legalWord, opField_eq, rsvField_eq, mselField_eq, even_eq_true_iff, Fin.ext_iff, rdField_val, raField_val,
    rbField_val, Fin.val_zero, Nat.reducePow]

/-- A word decodes exactly when R98 calls it Legal. -/
theorem exists_decode_iff_legalWord (w : Word32) : (∃ i, decode w = .ok i) ↔ legalWord w := by
  simp only [decode_eq_ok_iff, legalWord_iff, ← exists_modSel_iff (mselField_lt w), ← exists_curveSel_iff]
  constructor
  · rintro ⟨i, hrsv, row⟩
    refine ⟨hrsv, ?_⟩
    cases row with
    | modadd sel op msel => exact .inl ⟨.inl op, sel, msel⟩
    | modsub sel op msel => exact .inl ⟨.inr (.inl op), sel, msel⟩
    | montmul sel op msel => exact .inl ⟨.inr (.inr op), sel, msel⟩
    | pchk c op msel rd rb even => exact .inr (.inl ⟨op, rd, rb, even, c, msel⟩)
    | padd c op msel even =>
      obtain ⟨⟨evenD, evenA⟩, evenB⟩ := by simpa only [Bool.and_eq_true] using even
      exact .inr (.inr (.inl ⟨op, evenD, evenA, evenB, c, msel⟩))
    | pdbl c op msel rb even =>
      obtain ⟨evenD, evenA⟩ := by simpa only [Bool.and_eq_true] using even
      exact .inr (.inr (.inr (.inl ⟨op, evenD, evenA, rb, c, msel⟩)))
    | smul c op msel even =>
      obtain ⟨evenD, evenB⟩ := by simpa only [Bool.and_eq_true] using even
      exact .inr (.inr (.inr (.inr (.inl ⟨op, evenD, evenB, c, msel⟩))))
    | ldrom op msel rb defined => exact .inr (.inr (.inr (.inr (.inr ⟨op, defined, rb, msel⟩))))
  · rintro ⟨hrsv, ⟨op | op | op, sel, msel⟩ | ⟨op, rd, rb, even, c, msel⟩ | ⟨op, evenD, evenA, evenB, c, msel⟩ |
      ⟨op, evenD, evenA, rb, c, msel⟩ | ⟨op, evenD, evenB, c, msel⟩ | ⟨op, defined, rb, msel⟩⟩
    · exact ⟨_, hrsv, .modadd sel op msel⟩
    · exact ⟨_, hrsv, .modsub sel op msel⟩
    · exact ⟨_, hrsv, .montmul sel op msel⟩
    · exact ⟨_, hrsv, .pchk c op msel rd rb even⟩
    · exact ⟨_, hrsv, .padd c op msel (by simp only [evenD, evenA, evenB, Bool.and_self])⟩
    · exact ⟨_, hrsv, .pdbl c op msel rb (by simp only [evenD, evenA, Bool.and_self])⟩
    · exact ⟨_, hrsv, .smul c op msel (by simp only [evenD, evenB, Bool.and_self])⟩
    · exact ⟨_, hrsv, .ldrom op msel rb defined⟩

/-- The pending command of an illegal word executes to ERR_ILLEGAL (R98). -/
theorem executePending_illegal {s : State} (illegal : ¬ legalWord s.cmdLast) : executePending s = .error .illegal := by
  unfold executePending
  cases h : decode s.cmdLast with
  | ok i => exact absurd ((exists_decode_iff_legalWord _).mp ⟨i, h⟩) illegal
  | error e => rfl

/-- Settles O4: decoding is legality, O3 gives the fields, and an illegal word is accepted as every word is and completes with
ERR_ILLEGAL. -/
theorem legalWordsAndIllegalCompletion : Obligations.LegalWordsAndIllegalCompletion := by
  refine ⟨exists_decode_iff_legalWord, encodeOfDecodeIsTheWord, fun s w idle _ => ?accepted, fun s busy illegal => ?completed⟩
  case accepted =>
    rw [memWrite_cmd, idle]
    rfl
  case completed =>
    rw [engineTurn_completes busy, executePending_illegal illegal]
    rfl

end Sys2Proof
end

section
/-! SUPPORT. The Montgomery product as its defining congruence (R125), and a modular command whose checks pass (R120–R122, R186). -/

namespace Sys2Proof.Machine

open Claims

/-! Montgomery arithmetic -/

section

variable {m : Nat} (odd : m % 2 = 1) (big : 3 ≤ m)

include odd big

/-- `rInv` is the inverse of R: (m + 1)/2 is the inverse of 2, and R is the 256th power of 2 (R125; log 10). -/
theorem radix_mul_rInv : 2 ^ 256 * rInv m ≡ 1 [MOD m] := by
  have double : 2 * ((m + 1) / 2) = m + 1 := by omega
  have half : 2 * ((m + 1) / 2) ≡ 1 [MOD m] := by
    rw [double]
    exact Nat.add_modEq_left
  rw [rInv, powMod_eq (by omega) _ (by norm_num)]
  calc 2 ^ 256 * (((m + 1) / 2) ^ 256 % m)
      ≡ 2 ^ 256 * ((m + 1) / 2) ^ 256 [MOD m] := (Nat.mod_modEq _ m).mul_left _
    _ = (2 * ((m + 1) / 2)) ^ 256 := (mul_pow ..).symm
    _ ≡ 1 ^ 256 [MOD m] := half.pow 256
    _ = 1 := one_pow _

/-- What defines the Montgomery product: R times it is the product (R125). -/
theorem montMul_mul_radix (a b : Nat) : montMul m a b * 2 ^ 256 ≡ a * b [MOD m] :=
  calc montMul m a b * 2 ^ 256
      ≡ a * b * rInv m * 2 ^ 256 [MOD m] := (Nat.mod_modEq _ m).mul_right _
    _ = a * b * (2 ^ 256 * rInv m) := by rw [mul_assoc (a * b), mul_comm (rInv m)]
    _ ≡ a * b * 1 [MOD m] := (radix_mul_rInv odd big).mul_left _
    _ = a * b := mul_one _

/-- A value below m that R takes to the product is the Montgomery product. -/
theorem montMul_eq_of_modEq {a b v : Nat} (reduced : v < m) (h : a * b ≡ v * 2 ^ 256 [MOD m]) : montMul m a b = v := by
  have congruent : montMul m a b ≡ v [MOD m] :=
    calc a * b * rInv m % m
        ≡ a * b * rInv m [MOD m] := Nat.mod_modEq _ m
      _ ≡ v * 2 ^ 256 * rInv m [MOD m] := h.mul_right _
      _ = v * (2 ^ 256 * rInv m) := mul_assoc ..
      _ ≡ v * 1 [MOD m] := (radix_mul_rInv odd big).mul_left _
      _ = v := mul_one _
  exact congruent.eq_of_lt_of_lt (montMul_lt (by omega) a b) reduced

/-- The product with R² mod m takes a value into Montgomery form (R129). -/
theorem montMul_radixSquare (a : Nat) : montMul m a ((2 ^ 256) ^ 2 % m) = a * 2 ^ 256 % m := by
  refine montMul_eq_of_modEq odd big (Nat.mod_lt _ (by omega)) ?_
  calc a * ((2 ^ 256) ^ 2 % m)
      ≡ a * (2 ^ 256) ^ 2 [MOD m] := (Nat.mod_modEq _ m).mul_left _
    _ = a * 2 ^ 256 * 2 ^ 256 := by rw [pow_two, mul_assoc]
    _ ≡ a * 2 ^ 256 % m * 2 ^ 256 [MOD m] := ((Nat.mod_modEq _ m).mul_right _).symm

/-- Two Montgomery products, the second with R² mod m, are the ordinary product (R104, R129). -/
theorem montMul_montMul_radixSquare (a b : Nat) : montMul m (montMul m a b) ((2 ^ 256) ^ 2 % m) = a * b % m := by
  rw [montMul_radixSquare odd big]
  exact montMul_mul_radix odd big a b

/-- R times the Montgomery product of a reduced value with 1 is that value (R129). -/
theorem montMul_one_mul_radix {a : Nat} (reduced : a < m) : montMul m a 1 * 2 ^ 256 % m = a := by
  have h := montMul_mul_radix odd big a 1
  rwa [mul_one, Nat.ModEq, Nat.mod_eq_of_lt reduced] at h

end

theorem fSub_zero {m a : Nat} (reduced : a < m) : fSub m 0 a = (m - a) % m := by
  have h := fSub_cast (m := m) (by omega) 0 a
  have shift : ((0 : Nat) : Int) - a + m = ((m - a : Nat) : Int) := by omega
  rw [← Int.add_emod_right, shift] at h
  exact_mod_cast h

/-! The modulus a command names -/

theorem badModulus_iff (s : State) : badModulus s.umod ↔ ¬ userModulusOk s := by
  have bit : s.umod.getLsbD 0 = decide (s.umod.toNat % 2 = 1) := by
    rw [BitVec.getLsbD, Nat.testBit_zero]
  rw [badModulus, userModulusOk, bit, decide_eq_false_iff_not]
  omega

/-- The modulus check of R121 lets the modulus through that the suffix names (R120). -/
theorem modulusOf_eq_ok {sel : ModSel} {s : State} (h : modulusOk sel s) : modulusOf sel s = .ok (modulus sel s) := by
  cases sel with
  | p => rfl
  | n => rfl
  | u => exact if_neg ((badModulus_iff s).not.mpr (not_not.mpr (h rfl)))

/-- A modulus that passes the check is odd and at least 3 (R120, R121). -/
theorem modulus_odd {sel : ModSel} {s : State} (h : modulusOk sel s) : modulus sel s % 2 = 1 ∧ 3 ≤ modulus sel s := by
  cases sel with
  | p => exact (by decide : fieldPrime % 2 = 1 ∧ 3 ≤ fieldPrime)
  | n => exact (by decide : groupOrder % 2 = 1 ∧ 3 ≤ groupOrder)
  | u => exact h rfl

theorem modulus_lt (sel : ModSel) (s : State) : modulus sel s < 2 ^ 256 := by
  cases sel with
  | p => exact (by decide : fieldPrime < 2 ^ 256)
  | n => exact (by decide : groupOrder < 2 ^ 256)
  | u => exact s.umod.isLt

theorem modulus_congr (sel : ModSel) {s t : State} (h : t.umod = s.umod) : modulus sel t = modulus sel s := by
  cases sel with
  | p => rfl
  | n => rfl
  | u => exact congrArg BitVec.toNat h

theorem modulusOk_congr {sel : ModSel} {s t : State} (h : t.umod = s.umod) : modulusOk sel t ↔ modulusOk sel s := by
  rw [modulusOk, modulusOk, userModulusOk, userModulusOk, h]

/-! A modular command whose checks pass -/

/-- With the modulus good and both operands below it, a modular command commits its result (R120–R122). -/
theorem modular_eq_ok {sel : ModSel} (op : Nat → Nat → Nat → Nat) (rd : Reg) {ra rb : Reg} {s : State} (ok : modulusOk sel s)
    (ha : (s.reg ra).toNat < modulus sel s) (hb : (s.reg rb).toNat < modulus sel s) :
    modular sel op rd ra rb s =
      .ok (.register rd (BitVec.ofNat 256 (op (modulus sel s) (s.reg ra).toNat (s.reg rb).toNat))) := by
  simp only [modular, modulusOf_eq_ok ok, if_neg (not_le.mpr ha), if_neg (not_le.mpr hb)]

/-- The completion of a command that writes `v` to rd (R186, R188). -/
theorem exec_register {i : Instr} {s : State} {rd : Reg} {v : Word256} (h : execute i s = .ok (.register rd v)) :
    exec i s = .next (s.setReg rd v).succeed := by
  rw [exec_eq_complete, h, complete_ok]
  rfl

theorem reg_succeed (s : State) (r : Reg) : s.succeed.reg r = s.reg r := rfl

/-- The register a completed command wrote holds the value below 2^256 that the command computed. -/
theorem reg_setReg_succeed_toNat (s : State) (rd : Reg) {n : Nat} (h : n < 2 ^ 256) :
    ((s.setReg rd (BitVec.ofNat 256 n)).succeed.reg rd).toNat = n := by
  rw [reg_succeed, reg_setReg_self, BitVec.toNat_ofNat, Nat.mod_eq_of_lt h]

/-- A list of one command runs as that command does. -/
theorem runs_of_exec {i : Instr} {s t : State} (h : exec i s = .next t) : runs [i] s t := ⟨t, h, rfl⟩

/-- A modular command whose checks pass completes without an error and leaves its result in rd, the other registers and UMOD as
they were. -/
theorem exec_modular {i : Instr} {sel : ModSel} {op : Nat → Nat → Nat → Nat} {rd ra rb : Reg} {s : State}
    (meaning : execute i s = modular sel op rd ra rb s) (ok : modulusOk sel s)
    (ha : (s.reg ra).toNat < modulus sel s) (hb : (s.reg rb).toNat < modulus sel s)
    (reduced : op (modulus sel s) (s.reg ra).toNat (s.reg rb).toNat < modulus sel s) :
    ∃ t, exec i s = .next t ∧ t.err = false ∧ (t.reg rd).toNat = op (modulus sel s) (s.reg ra).toNat (s.reg rb).toNat ∧
      (∀ r, rd ≠ r → t.reg r = s.reg r) ∧ t.umod = s.umod :=
  ⟨_, exec_register (meaning.trans (modular_eq_ok op rd ok ha hb)), rfl,
    reg_setReg_succeed_toNat s rd (reduced.trans (modulus_lt sel s)), fun _ other => reg_setReg_ne s _ other, rfl⟩

/-- LDROM alone runs without an error and leaves the entry in rd (R175). -/
theorem runs_ldrom (rd : Reg) (idx : Fin 16) (s : State) : ∃ t, runs [.ldrom rd idx] s t ∧ t.err = false ∧ t.reg rd = rom idx :=
  ⟨_, runs_of_exec (exec_register rfl), rfl, reg_setReg_self ..⟩

end Sys2Proof.Machine
end

section
/-! PROOF. The pseudo-instructions of R104 that are commands: what their expansions compute. -/

namespace Sys2Proof.Machine

open Claims

/-- Settles O13: the first MONTMUL leaves a·b·R⁻¹ in rd and, rd being another register than rt, R² mod m in rt; the second takes R⁻¹
away. -/
theorem modmulComputesTheProduct : Obligations.ModmulComputesTheProduct := by
  intro sel rd ra rb rt s ok distinct ha hb square
  obtain ⟨odd, big⟩ := modulus_odd ok
  have pos : 0 < modulus sel s := by omega
  obtain ⟨s1, first, -, half, others, umod⟩ := exec_modular (execute_montmulOf sel rd ra rb s) ok ha hb (montMul_lt pos _ _)
  have same := modulus_congr sel umod
  have square1 : (s1.reg rt).toNat = (2 ^ 256) ^ 2 % modulus sel s := by rw [others rt distinct, square]
  obtain ⟨s2, second, noErr, value, -, -⟩ := exec_modular (execute_montmulOf sel rd rd rt s1) ((modulusOk_congr umod).mpr ok)
    (by rw [same, half]; exact montMul_lt pos _ _) (by rw [same, square1]; exact Nat.mod_lt _ pos)
    (by rw [same]; exact montMul_lt pos _ _)
  refine ⟨_, _, s1, s2, rfl, first, second, noErr, ?_⟩
  rw [value, same, half, square1, montMul_montMul_radixSquare odd big]

/-- Settles O14: each expansion is one command, and its result is one of the identities of R129 or an entry of the ROM. -/
theorem pseudoCommandsComputeTheirResults : Obligations.PseudoCommandsComputeTheirResults := by
  intro sel rd ra rt s ok ha
  obtain ⟨odd, big⟩ := modulus_odd ok
  have pos : 0 < modulus sel s := by omega
  refine ⟨fun square => ?tomont, fun one => ?frommont, ?moddbl, fun zero => ?modneg, ?ldzero, ?ldone⟩
  case tomont =>
    obtain ⟨t, done, noErr, value, -, -⟩ := exec_modular (execute_montmulOf sel rd ra rt s) ok ha (square ▸ Nat.mod_lt _ pos)
      (montMul_lt pos _ _)
    exact ⟨t, runs_of_exec done, noErr, by rw [value, square, montMul_radixSquare odd big]⟩
  case frommont =>
    obtain ⟨t, done, noErr, value, -, -⟩ := exec_modular (execute_montmulOf sel rd ra rt s) ok ha (by omega) (montMul_lt pos _ _)
    rw [one] at value
    exact ⟨t, runs_of_exec done, noErr, value ▸ montMul_lt pos _ _, by rw [value, montMul_one_mul_radix odd big ha]⟩
  case moddbl =>
    obtain ⟨t, done, noErr, value, -, -⟩ := exec_modular (execute_modaddOf sel rd ra ra s) ok ha ha (fAdd_lt pos _ _)
    exact ⟨t, runs_of_exec done, noErr, by rw [value, fAdd, two_mul]⟩
  case modneg =>
    obtain ⟨t, done, noErr, value, -, -⟩ := exec_modular (execute_modsubOf sel rd rt ra s) ok (by omega) ha (fSub_lt pos _ _)
    exact ⟨t, runs_of_exec done, noErr, by rw [value, zero, fSub_zero ha]⟩
  case ldzero =>
    obtain ⟨t, run, noErr, value⟩ := runs_ldrom rd 2 s
    exact ⟨t, run, noErr, by rw [value]; rfl⟩
  case ldone =>
    obtain ⟨t, run, noErr, value⟩ := runs_ldrom rd 10 s
    exact ⟨t, run, noErr, by rw [value]; rfl⟩

end Sys2Proof.Machine
end

section
/-! SUPPORT. Runs of an idle block whose host moves alone: the steps of a CMD with its WAIT, and of an update of INF by a read and a
write back (R103, R104; logs 1 and 9). -/

namespace Sys2Proof.Machine

open Claims

/-- The reset input is released, no command is pending and no turn is scheduled, so the next step is the host's (log 1). -/
structure HostMovesAlone (s : State) : Prop where
  released : s.rstIn = false
  idle : s.busy = false
  unscheduled : s.schedule = []

section

variable {s : State} {rest : List HostOp}

/-- The host's program and the values it read do not matter. -/
theorem HostMovesAlone.withHost (alone : HostMovesAlone s) (p : List HostOp) (l : List Word32) :
    HostMovesAlone { s with program := p, reads := l } :=
  ⟨alone.released, alone.idle, alone.unscheduled⟩

theorem HostMovesAlone.step_eq_hostTurn (alone : HostMovesAlone s) : step s = hostTurn s := by
  rw [step_default alone.unscheduled, State.defaultTurn, alone.idle]
  rfl

theorem HostMovesAlone.step_write (alone : HostMovesAlone s) {off : Nat} {v : Word32} (hp : s.program = wrWord off v :: rest)
    (inside : off < 4096) (aligned : off % 4 = 0) : step s = .next (memWrite { s with program := rest } off v) :=
  step_idle_write alone.released alone.idle alone.unscheduled hp inside aligned

theorem HostMovesAlone.step_read (alone : HostMovesAlone s) {off : Nat} (hp : s.program = rdWord off :: rest)
    (inside : off < 4096) (aligned : off % 4 = 0) :
    step s = .next { s with program := rest, reads := regionWord s (regionOf off) :: s.reads } :=
  step_idle_read alone.released alone.idle alone.unscheduled hp inside aligned

/-- On an idle block WAIT reads BUSY = 0 once and is over (R103). -/
theorem HostMovesAlone.step_wait (alone : HostMovesAlone s) (hp : s.program = .wait :: rest) :
    step s = .next { s with program := rest, reads := s.statusWord :: s.reads } := by
  have notBusy : s.statusWord.getLsbD 0 = false := (statusWord_getLsbD s 0).trans alone.idle
  rw [alone.step_eq_hostTurn, hostTurn, hp]
  simp only [hostOp, hostRead, notBusy, Bool.false_eq_true, if_false]
  rw [admitAccess_aperture (by exact alone.released) (by decide) (by decide)]
  simp only [memRead_status]
  rfl

theorem HostMovesAlone.step_writeBack (alone : HostMovesAlone s) {off : Nat} {keep set : Word32}
    (hp : s.program = .writeBack (.aperture off) keep set :: rest) (inside : off < 4096) (aligned : off % 4 = 0) :
    step s = .next (memWrite { s with program := rest } off ((s.lastRead &&& keep) ||| set)) := by
  rw [alone.step_eq_hostTurn, hostTurn, hp]
  simp only [hostOp, hostWrite]
  rw [admitAccess_aperture (by exact alone.released) inside aligned]

/-- CMD and its WAIT take three steps: the acceptance, the completion by the engine's default turn, and one read of STATUS. They
leave what the command leaves, and the block idle again. -/
theorem HostMovesAlone.run_command (alone : HostMovesAlone s) {i : Instr} (wf : i.wellFormed = true)
    (hp : s.program = cmd i ++ rest) :
    ∃ t, (∀ n, Sys2Proof.core.run (n + 3) s = Sys2Proof.core.run n t) ∧ HostMovesAlone t ∧ t.program = rest ∧
      t.x = (complete s (execute i s)).x ∧ t.inf = (complete s (execute i s)).inf ∧
      t.umod = s.umod ∧ t.ua = s.ua ∧ t.ub = s.ub := by
  have accepted : step s = .next (accept { s with program := .wait :: rest } (encode i)) := by
    rw [alone.step_write hp (by decide) (by decide), memWrite_cmd, alone.idle]
    rfl
  generalize hu : accept { s with program := .wait :: rest } (encode i) = u at accepted
  have pending : executePending u = execute i s := by
    subst hu
    simp only [executePending, accept_cmdLast, decodeOfEncodeIsTheCommand i wf]
    exact execute_congr i rfl rfl rfl rfl rfl
  have completed : step u = .next (complete u (execute i s)) := by
    have busy : u.busy = true := hu ▸ rfl
    have unscheduled : u.schedule = [] := hu ▸ alone.unscheduled
    rw [step_default unscheduled, State.defaultTurn, busy, ← pending]
    exact engineTurn_completes busy
  have again : HostMovesAlone (complete u (execute i s)) :=
    ⟨by rw [complete_rstIn, ← hu]; exact alone.released, complete_busy .., by rw [complete_schedule, ← hu]; exact alone.unscheduled⟩
  have waited := again.step_wait (rest := rest) (by rw [complete_program, ← hu]; rfl)
  obtain ⟨x, inf, -, -⟩ := complete_congr (s := s) (t := u) (by rw [← hu]; rfl) (by rw [← hu]; rfl) (execute i s)
  refine ⟨_, fun n => (run_next accepted).trans ((run_next completed).trans (run_next waited)),
    again.withHost _ _, rfl, x, inf, ?_, ?_, ?_⟩
  all_goals
    subst hu
    simp

/-- A read of INF and a write back of it take two steps and replace INF by the word read, masked by `keep` and with `set` added. -/
theorem HostMovesAlone.run_updateInf (alone : HostMovesAlone s) {keep set : Word32}
    (hp : s.program = rdWord 0x010 :: .writeBack (.aperture 0x010) keep set :: rest) :
    Sys2Proof.core.run 2 s = .next { s with
      program := rest, reads := s.infWord :: s.reads, inf := ((s.infWord &&& keep) ||| set).extractLsb' 0 8 } := by
  have read := alone.step_read hp (by decide) (by decide)
  have written := (alone.withHost (.writeBack (.aperture 0x010) keep set :: rest) (s.infWord :: s.reads)).step_writeBack rfl
    (by decide) (by decide)
  rw [memWrite_idle (by exact alone.idle)] at written
  exact (run_next read).trans (run_next written)

end

/-- INF read, bit k masked away, and written back (R35, R104). -/
theorem infWord_clearBit (s : State) (k : Pair) :
    ((s.infWord &&& ~~~(1#32 <<< k.val)) ||| 0).extractLsb' 0 8 = setInfBit s.inf k false := by
  apply BitVec.eq_of_getLsbD_eq
  intro n hn
  have hn32 : n < 32 := by omega
  simp [State.infWord, setInfBit, hn, hn32]

/-- INF read, bit k added, and written back (R35, R104). -/
theorem infWord_setBit (s : State) (k : Pair) :
    ((s.infWord &&& BitVec.allOnes 32) ||| (1#32 <<< k.val)).extractLsb' 0 8 = setInfBit s.inf k true := by
  rw [BitVec.and_allOnes]
  apply BitVec.eq_of_getLsbD_eq
  intro n hn
  have hn32 : n < 32 := by omega
  simp [State.infWord, setInfBit, hn, hn32]

end Sys2Proof.Machine
end

section
/-! PROOF. LDG and LDINF leave the generator and the point at infinity in a pair (R104). -/

namespace Sys2Proof.Machine

open Claims

/-- A flag of an INF that differs from another in bit k alone. -/
theorem infFlag_of_setInfBit {s t : State} {k : Pair} {b : Bool} (h : t.inf = setInfBit s.inf k b) :
    t.infFlag k = b ∧ ∀ j, j ≠ k → t.infFlag j = s.infFlag j := by
  simp only [State.infFlag, h, setInfBit_getLsbD]
  exact ⟨if_pos trivial, fun j other => if_neg other.symm⟩

/-- Two registers written one after the other, as the vector holds them. -/
theorem reg_of_set_set {s t : State} {i j : Reg} {v w : Word256} (h : t.x = (s.x.set i.val v).set j.val w) (distinct : j ≠ i) :
    t.reg i = v ∧ t.reg j = w ∧ ∀ r, r ≠ i → r ≠ j → t.reg r = s.reg r := by
  have read (r : Reg) : t.reg r = ((s.setReg i v).setReg j w).reg r := by simp only [State.reg, h, setReg_x]
  simp only [read, reg_setReg]
  exact ⟨by simp [distinct], by simp, fun r hi hj => by simp [hi.symm, hj.symm]⟩

theorem add_one_ne_self : ∀ r : Reg, r + 1 ≠ r := by decide

/-- Settles O46: two LDROMs put GX and GY in the pair, and the update of INF moves the pair's flag alone. -/
theorem ldgAndLdinfLoadThePair : Obligations.LdgAndLdinfLoadThePair := by
  intro s rest rd _ idle released unscheduled
  have alone (p : List HostOp) : HostMovesAlone { s with program := p } := ⟨released, idle, unscheduled⟩
  refine ⟨?ldg, ?ldinf⟩
  case ldg =>
    obtain ⟨t1, run1, alone1, program1, x1, inf1, umod1, ua1, ub1⟩ :=
      (alone (pseudoLdg rd ++ rest)).run_command (i := .ldrom rd 4) rfl rfl
    obtain ⟨t2, run2, alone2, program2, x2, inf2, umod2, ua2, ub2⟩ := alone1.run_command (i := .ldrom (rd + 1) 5) rfl program1
    have run3 := alone2.run_updateInf program2
    have inf : t2.inf = s.inf := inf2.trans inf1
    have cleared := (infWord_clearBit t2 (pairOf rd)).trans (congrArg (setInfBit · (pairOf rd) false) inf)
    have x : t2.x = (s.x.set rd.val (rom 4)).set (rd + 1).val (rom 5) :=
      x2.trans (congrArg (·.set (rd + 1).val (rom 5)) x1)
    obtain ⟨gx, gy, others⟩ := reg_of_set_set x (add_one_ne_self rd)
    obtain ⟨flag, flags⟩ := infFlag_of_setInfBit (t := { t2 with inf := _ }) cleared
    exact ⟨_, (run1 5).trans ((run2 2).trans run3), rfl, alone2.idle, gx, gy, flag, others, flags, umod2.trans umod1,
      ua2.trans ua1, ub2.trans ub1⟩
  case ldinf =>
    have run := (alone (pseudoLdinf rd ++ rest)).run_updateInf rfl
    obtain ⟨flag, flags⟩ := infFlag_of_setInfBit (t := { s with inf := _ }) (infWord_setBit s (pairOf rd))
    exact ⟨_, run, rfl, idle, flag, rfl, flags, rfl, rfl, rfl⟩

end Sys2Proof.Machine
end

section
/-! SUPPORT. A 256-bit value word by word: the value its words spell, and a value whose words are replaced one after the other (R63,
R103). -/

namespace Sys2Proof.Machine

open Claims

/-- A 256-bit value is determined by its eight words (R63). -/
theorem eq_of_getWord_eq {u v : Word256} (h : ∀ j, getWord u j = getWord v j) : u = v := by
  apply BitVec.eq_of_getLsbD_eq
  intro n hn
  have bit (w : Word256) : w.getLsbD n = (getWord w ⟨7 - n / 32, by omega⟩).getLsbD (n % 32) := by
    have place : 224 - 32 * (7 - n / 32) + n % 32 = n := by omega
    rw [getWord_getLsbD, place, decide_eq_true (Nat.mod_lt n (by decide)), Bool.true_and]
  rw [bit, bit, h]

/-- `u` with the words of a list replaced, in its order, by those of `v`. -/
def copyWords (v : Word256) (js : List (Fin 8)) (u : Word256) : Word256 :=
  js.foldl (fun u j => setWord u j (getWord v j)) u

theorem getWord_copyWords (v : Word256) (js : List (Fin 8)) (u : Word256) (k : Fin 8) :
    getWord (copyWords v js u) k = if k ∈ js then getWord v k else getWord u k := by
  induction js generalizing u with
  | nil => rfl
  | cons j js ih =>
    rw [copyWords, List.foldl_cons, ← copyWords, ih]
    by_cases later : k ∈ js
    · simp [later]
    · by_cases now : j = k
      · simp [now, getWord_setWord_self]
      · simp [later, Ne.symm now, getWord_setWord_ne _ _ now]

/-- Replacing all eight words replaces the value. -/
theorem copyWords_finRange (v u : Word256) : copyWords v (List.finRange 8) u = v :=
  eq_of_getWord_eq fun k => (getWord_copyWords v _ u k).trans (if_pos (List.mem_finRange k))

/-- The first n words of a value spell its top 32·n bits (R103 RD256). -/
theorem foldl_wordOf (v : Word256) {n : Nat} (hn : n ≤ 8) :
    (List.range n).foldl (fun acc j => acc * 2 ^ 32 + (wordOf v j).toNat) 0 = v.toNat / 2 ^ (256 - 32 * n) := by
  induction n with
  | zero => exact (Nat.div_eq_of_lt v.isLt).symm
  | succ n ih =>
    have width : 256 - 32 * n = (224 - 32 * n) + 32 := by omega
    rw [List.range_succ, List.foldl_append, ih (by omega), List.foldl_cons, List.foldl_nil, wordOf, BitVec.toNat_ofNat, width,
      pow_add, ← Nat.div_div_eq_div_mul, Nat.div_add_mod', show 256 - 32 * (n + 1) = 224 - 32 * n by omega]

/-- The eight words of a value, read last and most significant first, spell it (R103 RD256). -/
theorem assembled_words (v : Word256) (l : List Word32) :
    assembled (((List.finRange 8).map (getWord v)).reverse ++ l) = v.toNat := by
  have words : (List.finRange 8).map (getWord v) = (List.range 8).map (wordOf v) := by
    rw [← List.map_coe_finRange_eq_range, List.map_map]
    exact List.map_congr_left fun j _ => getWord_eq_wordOf v j
  rw [assembled, List.take_left' (by simp), List.reverse_reverse, words, List.foldl_map, foldl_wordOf v le_rfl]
  exact Nat.div_one _

end Sys2Proof.Machine
end

section
/-! PROOF. WR256 and RD256 move all 256 bits (R103): any list of word accesses first, then all eight. -/

namespace Sys2Proof.Machine

open Claims

/-- The state with another host program to come. -/
def State.setProgram (s : State) (p : List HostOp) : State := { s with program := p }

theorem setProgram_setProgram (s : State) (p q : List HostOp) : (s.setProgram p).setProgram q = s.setProgram q := rfl

theorem HostMovesAlone.setProgram {s : State} (alone : HostMovesAlone s) (p : List HostOp) : HostMovesAlone (s.setProgram p) :=
  alone.withHost p s.reads

/-- The 256-bit registers a host can write (R62): an operand register or one of the user curve. -/
inductive WideReg where
  | operand (i : Reg)
  | umod
  | ua
  | ub

/-- The first offset of the register's region (R62, R63). -/
def WideReg.start : WideReg → Nat
  | .operand i => regOffset i
  | .umod => 0x300
  | .ua => 0x320
  | .ub => 0x340

/-- The region of word j of the register (R62). -/
def WideReg.region : WideReg → Fin 8 → Region
  | .operand i => .reg i
  | .umod => .umod
  | .ua => .ua
  | .ub => .ub

/-- What the register holds. -/
def WideReg.get (s : State) : WideReg → Word256
  | .operand i => s.reg i
  | .umod => s.umod
  | .ua => s.ua
  | .ub => s.ub

/-- The state with the register's value replaced. -/
def WideReg.put (s : State) (v : Word256) : WideReg → State
  | .operand i => s.setReg i v
  | .umod => { s with umod := v }
  | .ua => { s with ua := v }
  | .ub => { s with ub := v }

namespace WideReg

variable (r : WideReg)

theorem regionOf_word (j : Fin 8) : regionOf (r.start + 4 * j.val) = r.region j := by
  cases r with
  | operand i => exact regionOf_reg_word i j
  | umod => exact regionOf_umod_word j
  | ua => exact regionOf_ua_word j
  | ub => exact regionOf_ub_word j

theorem start_bound : r.start + 32 ≤ 4096 ∧ r.start % 4 = 0 := by
  cases r with
  | operand i =>
    simp only [start, regOffset]
    omega
  | _ => decide

theorem get_put (s : State) (v : Word256) : r.get (r.put s v) = v := by
  cases r with
  | operand i => exact reg_setReg_self s i v
  | _ => rfl

theorem put_put (s : State) (v w : Word256) : r.put (r.put s v) w = r.put s w := by
  cases r with
  | operand i => simp only [put, State.setReg, Vector.set_set]
  | _ => rfl

theorem put_get (s : State) : r.put s (r.get s) = s := by
  cases r with
  | operand i => simp only [put, get, State.setReg, State.reg, Vector.set_getElem_self]
  | _ => rfl

theorem get_setProgram (s : State) (p : List HostOp) : r.get (s.setProgram p) = r.get s := by cases r <;> rfl

theorem get_withHost (s : State) (p : List HostOp) (l : List Word32) : r.get { s with program := p, reads := l } = r.get s := by
  cases r <;> rfl

theorem put_setProgram (s : State) (v : Word256) (p : List HostOp) : r.put (s.setProgram p) v = (r.put s v).setProgram p := by
  cases r <;> rfl

theorem regionWord_word (s : State) (j : Fin 8) : regionWord s (r.region j) = getWord (r.get s) j := by
  cases r <;> rfl

theorem regionWrite_word (s : State) (w : Word32) (j : Fin 8) : regionWrite s w (r.region j) = r.put s (setWord (r.get s) j w) := by
  cases r <;> rfl

theorem hostMovesAlone_put {s : State} (alone : HostMovesAlone s) (v : Word256) : HostMovesAlone (r.put s v) := by
  cases r <;> exact ⟨alone.released, alone.idle, alone.unscheduled⟩

/-- The host's write of one word of a register (R63, R69). -/
theorem step_writeWord {s : State} (alone : HostMovesAlone s) {j : Fin 8} {w : Word32} {p : List HostOp}
    (hp : s.program = wrWord (r.start + 4 * j.val) w :: p) :
    step s = .next ((r.put s (setWord (r.get s) j w)).setProgram p) := by
  obtain ⟨bound, aligned⟩ := r.start_bound
  have hj := j.isLt
  rw [alone.step_write hp (by omega) (by omega), memWrite_idle (by exact alone.idle), regionOf_word, regionWrite_word]
  exact congrArg Host.Outcome.next (r.put_setProgram s _ p)

/-- Writes of some words of `v` to a register, one step for each. -/
theorem run_writeWords (v : Word256) (rest : List HostOp) (js : List (Fin 8)) {s : State} (alone : HostMovesAlone s)
    (hp : s.program = js.map (fun j => wrWord (r.start + 4 * j.val) (getWord v j)) ++ rest) :
    Sys2Proof.core.run js.length s = .next ((r.put s (copyWords v js (r.get s))).setProgram rest) := by
  induction js generalizing s with
  | nil =>
    obtain rfl : s.program = rest := hp
    exact congrArg (fun t : State => Host.Outcome.next (t.setProgram s.program)) (r.put_get s).symm
  | cons j js ih =>
    refine (run_next (r.step_writeWord alone hp)).trans ((ih ((r.hostMovesAlone_put alone _).setProgram _) rfl).trans
      (congrArg Host.Outcome.next ?_))
    rw [put_setProgram, get_setProgram, get_put, put_put, setProgram_setProgram]
    rfl

/-- WR256 of a register takes eight steps and stores the value (R103). -/
theorem run_wr256 {s : State} (v : Word256) (rest : List HostOp) (alone : HostMovesAlone s)
    (hp : s.program = wr256 r.start v ++ rest) : Sys2Proof.core.run 8 s = .next ((r.put s v).setProgram rest) := by
  have run := r.run_writeWords v rest (List.finRange 8) alone hp
  rwa [copyWords_finRange] at run

end WideReg

/-- Reads of some words of a value that stays at its place in the aperture, one step for each. -/
theorem HostMovesAlone.run_readWords {s : State} (alone : HostMovesAlone s) {start : Nat} {v : Word256}
    (bound : start + 32 ≤ 4096) (aligned : start % 4 = 0)
    (holds : ∀ (j : Fin 8) p l, regionWord { s with program := p, reads := l } (regionOf (start + 4 * j.val)) = getWord v j)
    (rest : List HostOp) (js : List (Fin 8)) (l : List Word32) :
    Sys2Proof.core.run js.length { s with program := js.map (fun j => rdWord (start + 4 * j.val)) ++ rest, reads := l } =
      .next { s with program := rest, reads := (js.map (getWord v)).reverse ++ l } := by
  induction js generalizing l with
  | nil => rfl
  | cons j js ih =>
    have hj := j.isLt
    have read := (alone.withHost (rdWord (start + 4 * j.val) :: (js.map fun j => rdWord (start + 4 * j.val)) ++ rest) l).step_read
      rfl (by omega) (by omega)
    rw [holds] at read
    have order : (js.map (getWord v)).reverse ++ getWord v j :: l = ((j :: js).map (getWord v)).reverse ++ l := by simp
    exact (run_next read).trans ((ih (getWord v j :: l)).trans
      (congrArg (fun l => Host.Outcome.next { s with program := rest, reads := l }) order))

/-- RD256 of a value that stays at its place takes eight steps and reads words that spell it (R103). -/
theorem HostMovesAlone.run_rd256 {s : State} (alone : HostMovesAlone s) {start : Nat} {v : Word256}
    (bound : start + 32 ≤ 4096) (aligned : start % 4 = 0)
    (holds : ∀ (j : Fin 8) p l, regionWord { s with program := p, reads := l } (regionOf (start + 4 * j.val)) = getWord v j)
    (rest : List HostOp) :
    ∃ l, Sys2Proof.core.run 8 { s with program := rd256 start ++ rest } = .next { s with program := rest, reads := l } ∧
      assembled l = v.toNat :=
  ⟨_, alone.run_readWords bound aligned holds rest (List.finRange 8) s.reads, assembled_words v s.reads⟩

theorem WideReg.run_rd256 (r : WideReg) {s : State} (alone : HostMovesAlone s) (rest : List HostOp) :
    ∃ l, Sys2Proof.core.run 8 { s with program := rd256 r.start ++ rest } = .next { s with program := rest, reads := l } ∧
      assembled l = (r.get s).toNat := by
  refine alone.run_rd256 r.start_bound.1 r.start_bound.2 (fun j p l => ?_) rest
  rw [r.regionOf_word, r.regionWord_word, r.get_withHost]

/-- Settles O45: each register is a WideReg, and a ROM entry's words are read as a register's are. -/
theorem wideTransfersMoveAllBits : Obligations.WideTransfersMoveAllBits := by
  intro s rest i e v idle released unscheduled
  have alone (p : List HostOp) : HostMovesAlone { s with program := p } := ⟨released, idle, unscheduled⟩
  refine ⟨(WideReg.operand i).run_wr256 v rest (alone _) rfl, WideReg.umod.run_wr256 v rest (alone _) rfl,
    WideReg.ua.run_wr256 v rest (alone _) rfl, WideReg.ub.run_wr256 v rest (alone _) rfl,
    (WideReg.operand i).run_rd256 (alone s.program) rest, WideReg.umod.run_rd256 (alone s.program) rest,
    WideReg.ua.run_rd256 (alone s.program) rest, WideReg.ub.run_rd256 (alone s.program) rest, ?rom⟩
  case rom =>
    refine (alone s.program).run_rd256 (by simp only [romOffset]; omega) (by simp only [romOffset]; omega) (fun j p l => ?_) rest
    rw [romOffset, regionOf_rom_word]
    rfl

end Sys2Proof.Machine
end

section
/-! SUPPORT. The inverse of the radix and the maps of R123–R126 as facts about residues, and a modular command whose checks fail
(R121, R122, R184). -/

namespace Sys2Proof.Machine

open Claims

/-! The inverse of the radix and the Montgomery map -/

section

variable {m : Nat} (odd : m % 2 = 1) (big : 3 ≤ m)

include odd big

/-- `rInv` meets R125's definition of Rinv. -/
theorem rInv_spec : 1 ≤ rInv m ∧ rInv m < m ∧ 2 ^ 256 * rInv m % m = 1 := by
  have inverse : 2 ^ 256 * rInv m % m = 1 := Nat.mod_eq_of_modEq (radix_mul_rInv odd big) (by omega)
  refine ⟨Nat.one_le_iff_ne_zero.mpr fun zero => ?_, powMod_lt (by omega) _ _, inverse⟩
  rw [zero, mul_zero, Nat.zero_mod] at inverse
  exact zero_ne_one inverse

/-- R has only one inverse below m: another one is a product of both with R. -/
theorem eq_rInv_of_inverse {r : Nat} (reduced : r < m) (inverse : 2 ^ 256 * r % m = 1) : r = rInv m := by
  have one : 2 ^ 256 * r ≡ 1 [MOD m] := inverse.trans (Nat.mod_eq_of_lt (by omega)).symm
  have congruent : r ≡ rInv m [MOD m] :=
    calc r = r * 1 := (mul_one _).symm
      _ ≡ r * (2 ^ 256 * rInv m) [MOD m] := (radix_mul_rInv odd big).symm.mul_left _
      _ = 2 ^ 256 * r * rInv m := by rw [mul_left_comm, mul_assoc]
      _ ≡ 1 * rInv m [MOD m] := one.mul_right _
      _ = rInv m := one_mul _
  exact congruent.eq_of_lt_of_lt reduced (powMod_lt (by omega) _ _)

/-- The product with 1 takes a value out of Montgomery form (R129). -/
theorem montMul_montgomery_one {a : Nat} (reduced : a < m) : montMul m (a * 2 ^ 256 % m) 1 = a :=
  montMul_eq_of_modEq odd big reduced (by rw [mul_one]; exact Nat.mod_modEq _ m)

/-- The Montgomery map takes the ordinary product to the Montgomery product (R129). -/
theorem montMul_montgomery (a b : Nat) : montMul m (a * 2 ^ 256 % m) (b * 2 ^ 256 % m) = a * b * 2 ^ 256 % m := by
  refine montMul_eq_of_modEq odd big (Nat.mod_lt _ (by omega)) ?_
  calc a * 2 ^ 256 % m * (b * 2 ^ 256 % m)
      ≡ a * 2 ^ 256 * (b * 2 ^ 256) [MOD m] := (Nat.mod_modEq _ m).mul (Nat.mod_modEq _ m)
    _ = a * b * 2 ^ 256 * 2 ^ 256 := by rw [mul_mul_mul_comm, ← mul_assoc (a * b)]
    _ ≡ a * b * 2 ^ 256 % m * 2 ^ 256 [MOD m] := ((Nat.mod_modEq _ m).mul_right _).symm

end

/-! Sum, difference and quotient -/

/-- Multiplication by a constant, reduced, commutes with the reduced sum. -/
theorem fAdd_mul_mod (m a b k : Nat) : fAdd m (a * k % m) (b * k % m) = fAdd m a b * k % m := by
  rw [fAdd, fAdd, ← Nat.add_mod, ← add_mul, Nat.mod_mul_mod]

/-- Multiplication by a constant, reduced, commutes with the floor difference. -/
theorem fSub_mul_mod {m : Nat} (pos : 0 < m) (a b k : Nat) : fSub m (a * k % m) (b * k % m) = fSub m a b * k % m := by
  have cast : (fSub m (a * k % m) (b * k % m) : Int) = (fSub m a b * k % m : Nat) := by
    rw [fSub_cast pos]
    push_cast
    rw [fSub_cast pos, ← Int.sub_emod, ← sub_mul]
    exact ((Int.mod_modEq _ _).mul_right _).symm
  exact_mod_cast cast

/-- The floor difference of reduced values: a borrow adds m once (R124). -/
theorem fSub_eq_ite {m u v : Nat} (hu : u < m) (hv : v < m) : fSub m u v = if v ≤ u then u - v else u + m - v := by
  have cast := fSub_cast (by omega : 0 < m) u v
  split_ifs with le
  · rw [Int.emod_eq_of_lt (by omega) (by omega)] at cast
    omega
  · rw [← Int.add_emod_right, Int.emod_eq_of_lt (by omega) (by omega)] at cast
    omega

/-- FieldDiv is R126's formula, the power of a modulus of 256 bits being the exact one. -/
theorem fieldDiv_eq {m : Nat} (u v : Nat) (pos : 0 < m) (bound : m < 2 ^ 256) : fieldDiv m u v = u * v ^ (m - 2) % m := by
  rw [fieldDiv, powMod_eq pos v (by omega), Nat.mul_mod_mod]

/-- For a prime modulus FieldDiv is the quotient, by Fermat's little theorem. -/
theorem fieldDiv_mul_cancel {m u v : Nat} (prime : m.Prime) (bound : m < 2 ^ 256) (hu : u < m) (hv : v < m) (nonzero : v ≠ 0) :
    fieldDiv m u v * v % m = u := by
  have two := prime.two_le
  have coprime : v.Coprime m := (Nat.coprime_of_lt_prime nonzero hv prime).symm
  have fermat : v ^ (m - 1) ≡ 1 [MOD m] := Nat.totient_prime prime ▸ Nat.ModEq.pow_totient coprime
  have exponent : m - 2 + 1 = m - 1 := by omega
  rw [fieldDiv_eq u v prime.pos bound]
  refine Nat.mod_eq_of_modEq ?_ hu
  calc u * v ^ (m - 2) % m * v
      ≡ u * v ^ (m - 2) * v [MOD m] := (Nat.mod_modEq _ m).mul_right _
    _ = u * v ^ (m - 1) := by rw [mul_assoc, ← pow_succ, exponent]
    _ ≡ u * 1 [MOD m] := fermat.mul_left _
    _ = u := mul_one _

/-! The checks of a modular command -/

section

variable {sel : ModSel} {s : State} {op : Nat → Nat → Nat → Nat} {rd ra rb : Reg}

/-- Only `.U` can fail the modulus check (R121). -/
theorem modulusOf_eq_error (bad : ¬ modulusOk sel s) : modulusOf sel s = .error .badMod := by
  cases sel with
  | p => exact absurd (fun h => nomatch h) bad
  | n => exact absurd (fun h => nomatch h) bad
  | u => exact if_pos ((badModulus_iff s).mpr fun good => bad fun _ => good)

theorem modular_badMod (bad : ¬ modulusOk sel s) : modular sel op rd ra rb s = .error .badMod := by
  rw [modular, modulusOf_eq_error bad]

theorem modular_range_first (ok : modulusOk sel s) (ha : modulus sel s ≤ (s.reg ra).toNat) :
    modular sel op rd ra rb s = .error .range := by
  simp only [modular, modulusOf_eq_ok ok, if_pos ha]

theorem modular_range_second (ok : modulusOk sel s) (ha : (s.reg ra).toNat < modulus sel s)
    (hb : modulus sel s ≤ (s.reg rb).toNat) : modular sel op rd ra rb s = .error .range := by
  simp only [modular, modulusOf_eq_ok ok, if_neg (not_le.mpr ha), if_pos hb]

end

/-- MODADD, MODSUB and MONTMUL are the modular commands, one for each operation (R123–R125). -/
theorem execute_modularCommand {sel : ModSel} {rd ra rb : Reg} {i : Instr} (s : State)
    (hi : i = modaddOf sel rd ra rb ∨ i = modsubOf sel rd ra rb ∨ i = montmulOf sel rd ra rb) :
    ∃ op, execute i s = modular sel op rd ra rb s := by
  rcases hi with rfl | rfl | rfl
  · exact ⟨_, execute_modaddOf ..⟩
  · exact ⟨_, execute_modsubOf ..⟩
  · exact ⟨_, execute_montmulOf ..⟩

/-- The completion of a command that raises an error (R183, R186). -/
theorem exec_raise {i : Instr} {s : State} {e : ErrorCode} (h : execute i s = .error e) : exec i s = .next (s.raise e) := by
  rw [exec_eq_complete, h, complete_error]

/-- The next state of a modular command whose checks pass: its result in rd and the completion status (R186, R187). -/
theorem exec_modular_next {i : Instr} {sel : ModSel} {op : Nat → Nat → Nat → Nat} {rd ra rb : Reg} {s : State}
    (meaning : execute i s = modular sel op rd ra rb s) (ok : modulusOk sel s)
    (ha : (s.reg ra).toNat < modulus sel s) (hb : (s.reg rb).toNat < modulus sel s) :
    exec i s = .next
      (s.setReg rd (BitVec.ofNat 256 (op (modulus sel s) (s.reg ra).toNat (s.reg rb).toNat))).succeed :=
  exec_register (meaning.trans (modular_eq_ok op rd ok ha hb))

end Sys2Proof.Machine
end

section
/-! PROOF. The modular commands and their arithmetic (spec/40_modular.md R121–R126, R129). -/

namespace Sys2Proof.Machine

open Claims

/-- Settles O7: the operation of MODADD is the reduced sum. -/
theorem modaddWritesTheReducedSum : Obligations.ModaddWritesTheReducedSum := by
  intro sel rd ra rb s ok ha hb
  exact exec_modular_next (execute_modaddOf sel rd ra rb s) ok ha hb

/-- Settles O8: the floor difference of two reduced values needs at most one borrow. -/
theorem modsubWritesTheFloorDifference : Obligations.ModsubWritesTheFloorDifference := by
  intro sel rd ra rb s ok ha hb
  rw [← fSub_eq_ite ha hb]
  exact exec_modular_next (execute_modsubOf sel rd ra rb s) ok ha hb

/-- Settles O9, with the model's `rInv` as the inverse. -/
theorem montmulWritesTheMontgomeryProduct : Obligations.MontmulWritesTheMontgomeryProduct := by
  intro sel rd ra rb s ok ha hb
  obtain ⟨odd, big⟩ := modulus_odd ok
  obtain ⟨positive, reduced, inverse⟩ := rInv_spec odd big
  have done := exec_modular_next (execute_montmulOf sel rd ra rb s) ok ha hb
  exact ⟨rInv (modulus sel s), positive, reduced, inverse, done⟩

/-- Settles O10: the 256th power of the inverse of 2 is an inverse of R, and R has one below m. -/
theorem inverseOfRadixIsUnique : Obligations.InverseOfRadixIsUnique := by
  intro m odd big
  exact ⟨rInv_spec odd big, fun r _ reduced inverse => eq_rInv_of_inverse odd big reduced inverse⟩

/-- Settles O11: the three commands differ in the operation only, which no check reads. -/
theorem modularChecksInOrder : Obligations.ModularChecksInOrder := by
  intro sel rd ra rb s i hi
  obtain ⟨op, meaning⟩ := execute_modularCommand s hi
  exact ⟨fun bad => exec_raise (meaning.trans (modular_badMod bad)),
    fun ok ha => exec_raise (meaning.trans (modular_range_first ok ha)),
    fun ok ha hb => exec_raise (meaning.trans (modular_range_second ok ha hb)),
    fun ok ha hb => ⟨_, exec_modular_next meaning ok ha hb⟩⟩

/-- Settles O12: each identity of R129 is a lemma about the product, the sum or the difference. -/
theorem montgomeryIdentities : Obligations.MontgomeryIdentities := by
  intro m a b odd big _ ha _
  exact ⟨montMul_radixSquare odd big a, montMul_montgomery_one odd big ha, montMul_montgomery odd big a b,
    montMul_montMul_radixSquare odd big a b, montMul_montMul_radixSquare odd big a b, fAdd_mul_mod m a b _,
    fSub_mul_mod (by omega) a b _⟩

/-- Settles O26: the formula for every modulus, the quotient by Fermat's little theorem for a prime one. -/
theorem fieldDivIsFermatDivision : Obligations.FieldDivIsFermatDivision := by
  intro m u v two bound
  exact ⟨fieldDiv_eq u v (by omega) bound, fun prime hu hv nonzero => fieldDiv_mul_cancel prime bound hu hv nonzero⟩

end Sys2Proof.Machine
end

section
/-! SUPPORT. The arithmetic of R126 and R127 as residues: what each operation is in `ZMod m`, and how an equation there says
what a reduced value is as an integer. -/

namespace Sys2Proof.Machine

/-! The operations as residues -/

@[simp] theorem fAdd_residue (m u v : Nat) : (fAdd m u v : ZMod m) = u + v := by
  rw [fAdd, ZMod.natCast_mod, Nat.cast_add]

@[simp] theorem fMul_residue (m u v : Nat) : (fMul m u v : ZMod m) = u * v := by
  rw [fMul, ZMod.natCast_mod, Nat.cast_mul]

@[simp] theorem fMulk_residue (m u k : Nat) : (fMulk m u k : ZMod m) = u * k := fMul_residue m u k

theorem fSub_residue {m : Nat} (pos : 0 < m) (u v : Nat) : (fSub m u v : ZMod m) = u - v := by
  rw [← Int.cast_natCast, fSub_cast pos, ZMod.intCast_mod]
  push_cast
  rfl

theorem fieldDiv_residue {m : Nat} (pos : 0 < m) (bound : m < 2 ^ 256) (u v : Nat) :
    (fieldDiv m u v : ZMod m) = u * v ^ (m - 2) := by
  rw [fieldDiv_eq u v pos bound, ZMod.natCast_mod, Nat.cast_mul, Nat.cast_pow]

/-! Residues as integers -/

theorem natCast_zmod_inj {m u v : Nat} (hu : u < m) (hv : v < m) : (u : ZMod m) = v ↔ u = v := by
  rw [ZMod.natCast_eq_natCast_iff', Nat.mod_eq_of_lt hu, Nat.mod_eq_of_lt hv]

/-- A reduced value is the floor modulus of every integer with its residue. -/
theorem eq_emod_of_residue {m n : Nat} {e : Int} (reduced : n < m) (h : (n : ZMod m) = e) : (n : Int) = e % m := by
  rw [← Int.cast_natCast, ZMod.intCast_eq_intCast_iff', Int.emod_eq_of_lt (by omega) (by omega)] at h
  exact h

/-! Division: a denominator of the chord or the tangent is no multiple of the modulus -/

/-- The chord's denominator is not 0 (R144, case 4). -/
theorem fSub_ne_zero {m u v : Nat} (hu : u < m) (hv : v < m) (ne : v ≠ u) : fSub m u v ≠ 0 := by
  rw [fSub_eq_ite hu hv]
  split_ifs <;> omega

/-- The tangent's denominator is not 0: 2 is a unit modulo an odd m (R144, case 6). -/
theorem fMulk_two_ne_zero {m y : Nat} (odd : m % 2 = 1) (hy : y < m) (ne : y ≠ 0) : fMulk m y 2 ≠ 0 := by
  intro zero
  have coprime : m.Coprime 2 := Nat.coprime_two_right.mpr (Nat.odd_iff.mpr odd)
  exact ne (Nat.eq_zero_of_dvd_of_lt (coprime.dvd_of_dvd_mul_right (Nat.dvd_of_mod_eq_zero zero)) hy)

/-- Modulo a prime the power m − 2 is the inverse, so the spec's division is the field's. -/
theorem mul_pow_sub_two_eq_div {p : Nat} [Fact p.Prime] (u : ZMod p) {v : ZMod p} (nonzero : v ≠ 0) :
    u * v ^ (p - 2) = u / v := by
  have two : 2 ≤ p := (Fact.out : p.Prime).two_le
  have exponent : p - 2 + 1 = p - 1 := by omega
  rw [eq_div_iff nonzero, mul_assoc, ← pow_succ, exponent, ZMod.pow_card_sub_one_eq_one nonzero, mul_one]

end Sys2Proof.Machine
end

section
/-! SUPPORT. The group law of R144 as the chord and the tangent in residues, and its closure on a curve over a prime modulus
(R156): there the formulas are those of Mathlib's Weierstrass curves. -/

namespace Sys2Proof.Machine

open Claims

@[simp] theorem groupAdd_infinity_left (c : Curve) (q : Point) : groupAdd c .infinity q = q := rfl

@[simp] theorem groupAdd_infinity_right (c : Curve) (p : Point) : groupAdd c p .infinity = p := by cases p <;> rfl

/-! Cases 3 to 6 of R144 -/

section

variable (c : Curve) {x1 y1 x2 y2 : Nat}

theorem groupAdd_opposite (hx : x1 = x2) (hy : y1 ≠ y2) : groupAdd c (.affine x1 y1) (.affine x2 y2) = .infinity :=
  if_pos ⟨hx, hy⟩

theorem groupAdd_chord (hx : x1 ≠ x2) : groupAdd c (.affine x1 y1) (.affine x2 y2) = chord c.m x1 y1 x2 y2 := by
  rw [groupAdd, if_neg (fun h => hx h.1), if_pos hx]

theorem groupAdd_self_zero : groupAdd c (.affine x1 0) (.affine x1 0) = .infinity := by
  simp [groupAdd]

theorem groupAdd_tangent (hy : y1 ≠ 0) : groupAdd c (.affine x1 y1) (.affine x1 y1) = tangent c.m c.a x1 y1 := by
  simp [groupAdd, hy]

end

/-! The chord and the tangent in residues -/

/-- `(x3, y3)` is reduced, and is the mirror image of the third point that the line of slope `l` through `(x1, y1)` and a point
with first coordinate `x2` has in common with the curve (R144, cases 4 and 6). -/
structure IsLineSum (m l x1 x2 y1 x3 y3 : Nat) : Prop where
  x_lt : x3 < m
  y_lt : y3 < m
  x_eq : (x3 : ZMod m) = l ^ 2 - x1 - x2
  y_eq : (y3 : ZMod m) = l * (x1 - x3) - y1

theorem chord_residue {m : Nat} (pos : 0 < m) (bound : m < 2 ^ 256) (x1 y1 x2 y2 : Nat) : ∃ l x3 y3, l < m ∧
    (l : ZMod m) = (y2 - y1) * (x2 - x1) ^ (m - 2) ∧ IsLineSum m l x1 x2 y1 x3 y3 ∧ chord m x1 y1 x2 y2 = .affine x3 y3 := by
  refine ⟨fieldDiv m (fSub m y2 y1) (fSub m x2 x1), _, _, fieldDiv_lt pos _ _, ?_,
    ⟨fSub_lt pos _ _, fSub_lt pos _ _, ?_, ?_⟩, rfl⟩
  · simp only [fieldDiv_residue pos bound, fSub_residue pos]
  · simp only [fSub_residue pos, fMul_residue, pow_two]
  · rw [fSub_residue pos, fMul_residue, fSub_residue pos x1]

theorem tangent_residue {m : Nat} (pos : 0 < m) (bound : m < 2 ^ 256) (a x1 y1 : Nat) : ∃ l x3 y3, l < m ∧
    (l : ZMod m) = (3 * x1 ^ 2 + a) * (2 * y1) ^ (m - 2) ∧ IsLineSum m l x1 x1 y1 x3 y3 ∧
    tangent m a x1 y1 = .affine x3 y3 := by
  refine ⟨fieldDiv m (fAdd m (fMulk m (fMul m x1 x1) 3) a) (fMulk m y1 2), _, _, fieldDiv_lt pos _ _, ?_,
    ⟨fSub_lt pos _ _, fSub_lt pos _ _, ?_, ?_⟩, rfl⟩
  · simp only [fieldDiv_residue pos bound, fAdd_residue, fMulk_residue, fMul_residue]
    push_cast
    ring
  · simp only [fSub_residue pos, fMulk_residue, fMul_residue]
    push_cast
    ring
  · rw [fSub_residue pos, fMul_residue, fSub_residue pos x1]

/-! Closure on a curve over a prime modulus -/

/-- The curve `y² = x³ + a·x + b` over the residues modulo m, as one of Mathlib's Weierstrass curves. -/
abbrev residueCurve (c : Curve) : WeierstrassCurve.Affine (ZMod c.m) := ⟨0, 0, 0, c.a, c.b⟩

/-- A valid affine point is a reduced one whose residues satisfy the curve's equation (R13). -/
theorem validPoint_affine_iff (c : Curve) (x y : Nat) :
    validPoint c (.affine x y) ↔ x < c.m ∧ y < c.m ∧ (residueCurve c).Equation x y := by
  have equation : ((y : Int) ^ 2 - ((x : Int) ^ 3 + c.a * x + c.b)) % c.m = 0 ↔ (residueCurve c).Equation x y := by
    rw [← Int.dvd_iff_emod_eq_zero, ← ZMod.intCast_zmod_eq_zero_iff_dvd, WeierstrassCurve.Affine.equation_iff']
    push_cast
    simp only [zero_mul, add_zero]
  rw [validPoint, equation]

section

variable {c : Curve} (prime : c.m.Prime) (odd : c.m % 2 = 1) (bound : c.m < 2 ^ 256)

/-- Mathlib's closure of the addition formulas, for the line of the slope it names. -/
theorem validPoint_of_isLineSum [Fact c.m.Prime] {l x1 y1 x2 y2 x3 y3 : Nat} (h1 : (residueCurve c).Equation x1 y1)
    (h2 : (residueCurve c).Equation x2 y2) (notOpposite : ¬((x1 : ZMod c.m) = x2 ∧ (y1 : ZMod c.m) = -y2))
    (slope : (l : ZMod c.m) = (residueCurve c).slope x1 x2 y1 y2) (sum : IsLineSum c.m l x1 x2 y1 x3 y3) :
    validPoint c (.affine x3 y3) := by
  have neg : ∀ x y : ZMod c.m, (residueCurve c).negY x y = -y := fun x y => by
    simp only [WeierstrassCurve.Affine.negY, zero_mul, sub_zero]
  have addX : (residueCurve c).addX x1 x2 l = x3 := by
    simp only [WeierstrassCurve.Affine.addX, sum.x_eq, zero_mul, add_zero, sub_zero]
  have addY : (residueCurve c).addY x1 x2 y1 l = y3 := by
    rw [WeierstrassCurve.Affine.addY, WeierstrassCurve.Affine.negAddY, neg, addX, sum.y_eq]
    ring
  have closed := WeierstrassCurve.Affine.equation_add h1 h2 (by rwa [neg])
  rw [← slope, addX, addY] at closed
  exact (validPoint_affine_iff c x3 y3).mpr ⟨sum.x_lt, sum.y_lt, closed⟩

include prime bound

theorem chord_valid {x1 y1 x2 y2 : Nat} (h1 : validPoint c (.affine x1 y1)) (h2 : validPoint c (.affine x2 y2))
    (hx : x1 ≠ x2) : validPoint c (chord c.m x1 y1 x2 y2) := by
  have := Fact.mk prime
  obtain ⟨x1_lt, -, eq1⟩ := (validPoint_affine_iff c x1 y1).mp h1
  obtain ⟨x2_lt, -, eq2⟩ := (validPoint_affine_iff c x2 y2).mp h2
  obtain ⟨l, x3, y3, -, slope, sum, result⟩ := chord_residue prime.pos bound x1 y1 x2 y2
  have ne : (x1 : ZMod c.m) ≠ x2 := (natCast_zmod_inj x1_lt x2_lt).not.mpr hx
  rw [result]
  refine validPoint_of_isLineSum eq1 eq2 (fun h => ne h.1) ?_ sum
  rw [slope, mul_pow_sub_two_eq_div _ (sub_ne_zero.mpr ne.symm), WeierstrassCurve.Affine.slope_of_X_ne ne,
    ← neg_div_neg_eq, neg_sub, neg_sub]

include odd

theorem tangent_valid {x1 y1 : Nat} (h1 : validPoint c (.affine x1 y1)) (hy : y1 ≠ 0) :
    validPoint c (tangent c.m c.a x1 y1) := by
  have := Fact.mk prime
  obtain ⟨-, y1_lt, eq1⟩ := (validPoint_affine_iff c x1 y1).mp h1
  obtain ⟨l, x3, y3, -, slope, sum, result⟩ := tangent_residue prime.pos bound c.a x1 y1
  have double_ne : (2 * y1 : ZMod c.m) ≠ 0 := by
    have h := (natCast_zmod_inj (fMulk_lt prime.pos y1 2) prime.pos).not.mpr (fMulk_two_ne_zero odd y1_lt hy)
    rwa [fMulk_residue, Nat.cast_zero, mul_comm] at h
  have ne_neg : (y1 : ZMod c.m) ≠ -y1 := fun h => double_ne (by linear_combination h)
  rw [result]
  refine validPoint_of_isLineSum eq1 eq1 (fun h => ne_neg h.2) ?_ sum
  rw [slope, mul_pow_sub_two_eq_div _ double_ne, WeierstrassCurve.Affine.slope_of_Y_ne rfl (by simpa using ne_neg)]
  simp only [WeierstrassCurve.Affine.negY]
  ring

/-- R156 for one addition: GroupAdd keeps to the curve. -/
theorem groupAdd_valid {p q : Point} (hp : validPoint c p) (hq : validPoint c q) : validPoint c (groupAdd c p q) := by
  cases p with
  | infinity => exact hq
  | affine x1 y1 =>
    cases q with
    | infinity => exact hp
    | affine x2 y2 =>
      by_cases hx : x1 = x2
      · subst hx
        by_cases hy : y1 = y2
        · subst hy
          by_cases zero : y1 = 0
          · subst zero
            rw [groupAdd_self_zero]
            trivial
          · rw [groupAdd_tangent c zero]
            exact tangent_valid prime odd bound hp zero
        · rw [groupAdd_opposite c rfl hy]
          trivial
      · rw [groupAdd_chord c hx]
        exact chord_valid prime bound hp hq hx

/-- Double-and-add only adds, so it keeps to the curve as well. -/
theorem doubleAndAddLoop_valid (n k : Nat) {result current : Point} (hr : validPoint c result) (hc : validPoint c current) :
    validPoint c (doubleAndAddLoop c n k result current) := by
  induction n generalizing k result current with
  | zero => exact hr
  | succ n ih =>
    rw [doubleAndAddLoop]
    split_ifs
    · exact hr
    · exact ih _ (groupAdd_valid prime odd bound hr hc) (groupAdd_valid prime odd bound hc hc)
    · exact ih _ hr (groupAdd_valid prime odd bound hc hc)

end

/-! The loop of R150 -/

theorem whileLoop_zero (c : Curve) (r q : Point) : whileLoop c 0 r q = r := by
  rw [whileLoop, dif_pos rfl]

theorem whileLoop_pos (c : Curve) {k : Nat} (pos : k ≠ 0) (r q : Point) :
    whileLoop c k r q = whileLoop c (k / 2) (if k % 2 = 1 then groupAdd c r q else r) (groupAdd c q q) := by
  rw [whileLoop, dif_neg pos]

/-- The bounded loop is the unbounded one once its bound lets the scalar run out (log 12). -/
theorem doubleAndAddLoop_eq_whileLoop (c : Curve) (n k : Nat) (r q : Point) (fits : k < 2 ^ n) :
    doubleAndAddLoop c n k r q = whileLoop c k r q := by
  induction n generalizing k r q with
  | zero =>
    obtain rfl : k = 0 := by omega
    rw [whileLoop_zero, doubleAndAddLoop]
  | succ n ih =>
    rw [doubleAndAddLoop]
    by_cases zero : k = 0
    · rw [if_pos zero, zero, whileLoop_zero]
    · rw [if_neg zero, ih _ _ _ (by omega), whileLoop_pos c zero]

/-- No multiple of ∞ is another point (R149). -/
theorem whileLoop_infinity (c : Curve) (k : Nat) : whileLoop c k .infinity .infinity = .infinity := by
  induction k using Nat.strongRec with
  | _ k ih =>
    by_cases zero : k = 0
    · rw [zero, whileLoop_zero]
    · rw [whileLoop_pos c zero, groupAdd_infinity_left, ite_self]
      exact ih _ (by omega)

theorem whileLoop_one (c : Curve) (q : Point) : whileLoop c 1 .infinity q = q := by
  rw [whileLoop_pos c one_ne_zero]
  exact whileLoop_zero c q (groupAdd c q q)

theorem whileLoop_two (c : Curve) (q : Point) : whileLoop c 2 .infinity q = groupAdd c q q := by
  rw [whileLoop_pos c two_ne_zero]
  exact whileLoop_one c (groupAdd c q q)

end Sys2Proof.Machine
end

section
/-! SUPPORT. The point commands by what they read and write: the curve they name (R140, R142), the pair they read (R143), the pair
they write (R145), and their completion (R186). -/

namespace Sys2Proof.Machine

open Claims

/-! The curve a point command names -/

/-- The checks of R142 let exactly the good curves through, and the curve that the suffix names (R140). -/
theorem curveOf_eq_ok_iff {sel : CurveSel} {s : State} {c : Curve} :
    curveOf sel s = .ok c ↔ curveOk sel s ∧ c = curve sel s := by
  constructor
  · intro h
    cases sel with
    | k =>
      cases h
      exact ⟨fun hu => (nomatch hu), rfl⟩
    | u =>
      unfold curveOf at h
      split_ifs at h with bad ha hb
      cases h
      exact ⟨fun _ => ⟨not_not.mp (mt (badModulus_iff s).mpr bad), not_le.mp ha, not_le.mp hb⟩, rfl⟩
  · rintro ⟨ok, rfl⟩
    cases sel with
    | k => rfl
    | u =>
      obtain ⟨good, ha, hb⟩ := ok rfl
      simp only [curveOf, if_neg (mt (badModulus_iff s).mp (not_not.mpr good)), if_neg (not_le.mpr ha), if_neg (not_le.mpr hb)]
      rfl

theorem curve_congr (sel : CurveSel) {s t : State} (hm : t.umod = s.umod) (ha : t.ua = s.ua) (hb : t.ub = s.ub) :
    curve sel t = curve sel s := by
  cases sel <;> simp only [curve, hm, ha, hb]

theorem curveOk_congr {sel : CurveSel} {s t : State} (hm : t.umod = s.umod) (ha : t.ua = s.ua) (hb : t.ub = s.ub) :
    curveOk sel t ↔ curveOk sel s := by
  simp only [curveOk, userModulusOk, hm, ha, hb]

/-- The field modulus of a curve that passes the checks: odd, at least 3 and of 256 bits (R121, R140, R142). -/
theorem curve_modulus {sel : CurveSel} {s : State} (ok : curveOk sel s) :
    (curve sel s).m % 2 = 1 ∧ 3 ≤ (curve sel s).m ∧ (curve sel s).m < 2 ^ 256 := by
  cases sel with
  | k => exact (by decide : fieldPrime % 2 = 1 ∧ 3 ≤ fieldPrime ∧ fieldPrime < 2 ^ 256)
  | u =>
    obtain ⟨⟨odd, big⟩, -⟩ := ok rfl
    exact ⟨odd, big, s.umod.isLt⟩

/-! The registers of a pair -/

theorem xReg_pairOf {r : Reg} (even : Reg.even r = true) : xReg (pairOf r) = r := by
  revert r
  decide

theorem yReg_pairOf {r : Reg} (even : Reg.even r = true) : yReg (pairOf r) = r + 1 := by
  revert r
  decide

theorem xReg_injective : Function.Injective xReg := by decide

theorem yReg_injective : Function.Injective yReg := by decide

/-! Reading a pair -/

theorem onCurve_iff (c : Curve) (x y : Nat) :
    onCurve c x y ↔ ((y : Int) ^ 2 - ((x : Int) ^ 3 + c.a * x + c.b)) % c.m = 0 := by
  rw [onCurve, ← pow_two, pow_three', mul_assoc]

section

variable {c : Curve} {k : Pair} {s : State}

theorem readPoint_infinity (flag : s.infFlag k = true) : readPoint c k s = .ok .infinity := if_pos flag

variable (flag : s.infFlag k = false)

include flag

theorem readPoint_range_x (hx : c.m ≤ (s.reg (xReg k)).toNat) : readPoint c k s = .error .range := by
  simp only [readPoint, flag, Bool.false_eq_true, if_false, if_pos hx]

variable (hx : (s.reg (xReg k)).toNat < c.m)

include hx

theorem readPoint_range_y (hy : c.m ≤ (s.reg (yReg k)).toNat) : readPoint c k s = .error .range := by
  simp only [readPoint, flag, Bool.false_eq_true, if_false, if_neg (not_le.mpr hx), if_pos hy]

variable (hy : (s.reg (yReg k)).toNat < c.m)

include hy

theorem readPoint_notOnCurve (off : ¬ onCurve c (s.reg (xReg k)).toNat (s.reg (yReg k)).toNat) :
    readPoint c k s = .error .notOnCurve := by
  simp only [readPoint, flag, Bool.false_eq_true, if_false, if_neg (not_le.mpr hx), if_neg (not_le.mpr hy), if_neg off]

theorem readPoint_affine (on : onCurve c (s.reg (xReg k)).toNat (s.reg (yReg k)).toNat) :
    readPoint c k s = .ok (.affine (s.reg (xReg k)).toNat (s.reg (yReg k)).toNat) := by
  simp only [readPoint, flag, Bool.false_eq_true, if_false, if_neg (not_le.mpr hx), if_neg (not_le.mpr hy), if_pos on]

end

/-- ReadPoint answers exactly the valid point that the pair holds (R143). -/
theorem readPoint_eq_ok_iff {c : Curve} {r : Reg} {s : State} {q : Point} :
    readPoint c (pairOf r) s = .ok q ↔ holdsPoint s r q ∧ validPoint c q := by
  constructor
  · intro h
    unfold readPoint at h
    split_ifs at h with flag hx hy on <;> cases h
    · exact ⟨flag, trivial⟩
    · exact ⟨⟨eq_false_of_ne_true flag, rfl, rfl⟩, not_le.mp hx, not_le.mp hy, (onCurve_iff ..).mp on⟩
  · rintro ⟨holds, valid⟩
    cases q with
    | infinity => exact readPoint_infinity holds
    | affine x y =>
      obtain ⟨flag, rfl, rfl⟩ := holds
      obtain ⟨hx, hy, on⟩ := valid
      exact readPoint_affine flag hx hy ((onCurve_iff ..).mpr on)

/-! Writing a pair -/

theorem writePoint_infinity (s : State) (k : Pair) : (s.writePoint k .infinity).reg (xReg k) = 0 ∧
    (s.writePoint k .infinity).reg (yReg k) = 0 ∧ (s.writePoint k .infinity).infFlag k = true := by
  simp [State.writePoint, reg_setReg_ne _ _ (xReg_ne_yReg k k).symm]

theorem writePoint_affine (s : State) (k : Pair) {x y : Nat} (hx : x < 2 ^ 256) (hy : y < 2 ^ 256) :
    ((s.writePoint k (.affine x y)).reg (xReg k)).toNat = x ∧ ((s.writePoint k (.affine x y)).reg (yReg k)).toNat = y ∧
      (s.writePoint k (.affine x y)).infFlag k = false := by
  simp only [State.writePoint, reg_setInf, reg_setReg_self, reg_setReg_ne _ _ (xReg_ne_yReg k k).symm, BitVec.toNat_ofNat,
    Nat.mod_eq_of_lt hx, Nat.mod_eq_of_lt hy, infFlag_setInf, if_true, and_self]

/-- The pair written with a valid point holds that point (R145). -/
theorem holdsPoint_writePoint (s : State) (r : Reg) {c : Curve} {q : Point} (bound : c.m < 2 ^ 256) (valid : validPoint c q) :
    holdsPoint (s.writePoint (pairOf r) q) r q := by
  cases q with
  | infinity =>
    obtain ⟨-, -, flag⟩ := writePoint_infinity s (pairOf r)
    exact flag
  | affine x y =>
    obtain ⟨x_lt, y_lt, -⟩ := valid
    obtain ⟨hx, hy, flag⟩ := writePoint_affine s (pairOf r) (x_lt.trans bound) (y_lt.trans bound)
    exact ⟨flag, hx.symm, hy.symm⟩

/-! What a point command executes to -/

section

variable {sel : CurveSel} {s : State} {w : Writes}

/-- A command of one point operand goes on exactly when the curve passes its checks and the pair holds a point of it. -/
theorem withPoint_eq_ok_iff {r : Reg} {next : Curve → Point → Writes} : withPoint sel r s next = .ok w ↔
    curveOk sel s ∧ ∃ q, holdsPoint s r q ∧ validPoint (curve sel s) q ∧ w = next (curve sel s) q := by
  constructor
  · intro h
    rcases withPoint_cases sel r s next with ⟨e, -, h'⟩ | ⟨c, q, hc, hq, h'⟩ <;> rw [h'] at h <;> cases h
    obtain ⟨ok, rfl⟩ := curveOf_eq_ok_iff.mp hc
    obtain ⟨holds, valid⟩ := readPoint_eq_ok_iff.mp hq
    exact ⟨ok, q, holds, valid, rfl⟩
  · rintro ⟨ok, q, holds, valid, rfl⟩
    simp only [withPoint, curveOf_eq_ok_iff.mpr ⟨ok, rfl⟩, readPoint_eq_ok_iff.mpr ⟨holds, valid⟩]

/-- The same for a command of two point operands. -/
theorem withPoints_eq_ok_iff {ra rb : Reg} {next : Curve → Point → Point → Writes} : withPoints sel ra rb s next = .ok w ↔
    curveOk sel s ∧ ∃ p q, holdsPoint s ra p ∧ validPoint (curve sel s) p ∧ holdsPoint s rb q ∧
      validPoint (curve sel s) q ∧ w = next (curve sel s) p q := by
  constructor
  · intro h
    rcases withPoints_cases sel ra rb s next with ⟨e, -, h'⟩ | ⟨c, p, q, hc, hp, hq, h'⟩ <;> rw [h'] at h <;> cases h
    obtain ⟨ok, rfl⟩ := curveOf_eq_ok_iff.mp hc
    obtain ⟨holdsP, validP⟩ := readPoint_eq_ok_iff.mp hp
    obtain ⟨holdsQ, validQ⟩ := readPoint_eq_ok_iff.mp hq
    exact ⟨ok, p, q, holdsP, validP, holdsQ, validQ, rfl⟩
  · rintro ⟨ok, p, q, holdsP, validP, holdsQ, validQ, rfl⟩
    simp only [withPoints, curveOf_eq_ok_iff.mpr ⟨ok, rfl⟩, readPoint_eq_ok_iff.mpr ⟨holdsP, validP⟩,
      readPoint_eq_ok_iff.mpr ⟨holdsQ, validQ⟩]

/-- Two operands in one pair are one operand. -/
theorem withPoints_self (r : Reg) (next : Curve → Point → Point → Writes) :
    withPoints sel r r s next = withPoint sel r s fun c q => next c q q := by
  unfold withPoints withPoint
  cases curveOf sel s with
  | error e => rfl
  | ok c => cases h : readPoint c (pairOf r) s <;> simp only [h]

/-- SMUL of a scalar and a point of the curve commits its value (R149). -/
theorem execute_smulOf_eq_ok {rd ra rb : Reg} {q : Point} (ok : curveOk sel s) (holds : holdsPoint s rb q)
    (valid : validPoint (curve sel s) q) : execute (smulOf sel rd ra rb) s =
      .ok (.point (pairOf rd) (smulValue sel (curve sel s) (s.reg ra).toNat q)) := by
  rw [execute_smulOf]
  exact withPoint_eq_ok_iff.mpr ⟨ok, q, holds, valid, rfl⟩

end

/-! Completion -/

/-- The completion of a command that writes a point (R186, R188). -/
theorem exec_point {i : Instr} {s : State} {k : Pair} {q : Point} (h : execute i s = .ok (.point k q)) :
    exec i s = .next (s.writePoint k q).succeed := by
  rw [exec_eq_complete, h, complete_ok]
  rfl

/-- A command that completed with ERR = 0 raised nothing. -/
theorem execute_ok_of_complete_err {s : State} {r : Except ErrorCode Writes} (h : (complete s r).err = false) :
    ∃ w, r = .ok w := by
  cases r with
  | error e => exact nomatch h
  | ok w => exact ⟨w, rfl⟩

/-! The value of SMUL (R149–R151) -/

theorem doubleAndAdd_eq_whileLoop (c : Curve) {k : Nat} (q : Point) (bound : k < 2 ^ 256) :
    doubleAndAdd c k q = whileLoop c k .infinity q :=
  doubleAndAddLoop_eq_whileLoop c 256 k .infinity q bound

theorem smulValue_k (c : Curve) (k : Nat) (q : Point) : smulValue .k c k q = whileLoop c (k % groupOrder) .infinity q :=
  doubleAndAdd_eq_whileLoop c q ((Nat.mod_lt k (by decide)).trans (by decide : groupOrder < 2 ^ 256))

/-- A 256-bit scalar is below 2·N, so one subtraction reduces it (R151). -/
theorem mod_groupOrder {k : Nat} (bound : k < 2 ^ 256) :
    k % groupOrder = if k < groupOrder then k else k - groupOrder := by
  have double : 2 ^ 256 < 2 * groupOrder := by decide
  split_ifs with lt
  · exact Nat.mod_eq_of_lt lt
  · rw [Nat.mod_eq_sub_mod (by omega), Nat.mod_eq_of_lt (by omega)]

theorem wellFormedCurve_iff (c : Curve) : wellFormedCurve c ↔ Nat.Prime c.m ∧ (4 * c.a ^ 3 + 27 * c.b ^ 2) % c.m ≠ 0 := by
  rw [wellFormedCurve, isPrime_iff]

theorem smulValue_u_wellFormed {c : Curve} (wf : wellFormedCurve c) (k : Nat) (q : Point) :
    smulValue .u c k q = doubleAndAdd c k q := if_pos wf

theorem smulValue_u_illFormed {c : Curve} (ill : ¬ wellFormedCurve c) (k : Nat) (q : Point) :
    smulValue .u c k q = smulUndef c k q := if_neg ill

/-- The open point of R153 has reduced coordinates. -/
theorem smulUndef_lt {c : Curve} {k x y : Nat} {q : Point} (pos : 0 < c.m) (h : smulUndef c k q = .affine x y) :
    x < c.m ∧ y < c.m := by
  unfold smulUndef at h
  cases hv : Config.smulUndefValue c k q with
  | infinity => rw [hv] at h; cases h
  | affine x' y' =>
    rw [hv] at h
    cases h
    exact ⟨Nat.mod_lt _ pos, Nat.mod_lt _ pos⟩

end Sys2Proof.Machine
end

section
/-! PROOF. The group law, the reading and the writing of a pair (R143–R145, R150). -/

namespace Sys2Proof.Machine

open Claims

/-- Settles O20, from what WritePoint does to its own pair and to the others. -/
theorem writePointWritesOnePair : Obligations.WritePointWritesOnePair := by
  intro s k q
  refine ⟨?_, ?_, fun r => reg_writePoint_ne s k q, fun j => infFlag_writePoint_ne s q⟩
  · rintro rfl
    obtain ⟨hx, hy, flag⟩ := writePoint_infinity s k
    exact ⟨congrArg BitVec.toNat hx, congrArg BitVec.toNat hy, flag⟩
  · rintro x y rfl hx hy
    exact writePoint_affine s k hx hy

/-- Settles O21: an even register is the first of its pair, and ReadPoint checks in the order of R143. -/
theorem readPointChecksInOrder : Obligations.ReadPointChecksInOrder := by
  intro c r s even
  rw [← yReg_pairOf even]
  nth_rw 1 [← xReg_pairOf even]
  exact ⟨readPoint_infinity, fun flag => ⟨readPoint_range_x flag, readPoint_range_y flag, readPoint_notOnCurve flag,
    readPoint_affine flag⟩⟩

/-- Settles O22: the residues of the chord and the tangent are those of the source's formulas, and the values are reduced. -/
theorem groupAddSixCases : Obligations.GroupAddSixCases := by
  intro c odd big bound
  have pos : 0 < c.m := by omega
  refine ⟨groupAdd_infinity_left c, groupAdd_infinity_right c, fun x1 y1 x2 y2 hx1 hy1 hx2 hy2 => ?_⟩
  refine ⟨groupAdd_opposite c, ?_, ?_, ?_⟩
  · intro hx
    obtain ⟨l, x3, y3, l_lt, slope, sum, result⟩ := chord_residue pos bound x1 y1 x2 y2
    refine ⟨fSub_ne_zero hx2 hx1 hx, l, x3, y3, eq_emod_of_residue l_lt ?_, eq_emod_of_residue sum.x_lt ?_,
      eq_emod_of_residue sum.y_lt ?_, (groupAdd_chord c hx).trans result⟩
    · exact_mod_cast slope
    · exact_mod_cast sum.x_eq
    · exact_mod_cast sum.y_eq
  · rintro rfl rfl rfl
    exact groupAdd_self_zero c
  · rintro rfl rfl hy
    obtain ⟨l, x3, y3, l_lt, slope, sum, result⟩ := tangent_residue pos bound c.a x1 y1
    refine ⟨fMulk_two_ne_zero odd hy1 hy, l, x3, y3, eq_emod_of_residue l_lt ?_, eq_emod_of_residue sum.x_lt ?_,
      eq_emod_of_residue sum.y_lt ?_, (groupAdd_tangent c hy).trans result⟩
    · exact_mod_cast slope
    · rw [sum.x_eq]
      push_cast
      ring
    · exact_mod_cast sum.y_eq

/-- Settles O23, by induction on the bound. -/
theorem doubleAndAddIsTheWhileLoop : Obligations.DoubleAndAddIsTheWhileLoop :=
  fun c _ q bound => doubleAndAdd_eq_whileLoop c q bound

end Sys2Proof.Machine
end

section
/-! PROOF. The point commands (R146–R149, R151, R153). -/

namespace Sys2Proof.Machine

open Claims

/-- Settles O15: the checks pass and nothing is committed. -/
theorem pchkAcceptsPointsOfTheCurve : Obligations.PchkAcceptsPointsOfTheCurve := by
  intro sel ra q s ok holds valid
  have checked : pointCheck sel ra s = .ok .nothing := withPoint_eq_ok_iff.mpr ⟨ok, q, holds, valid, rfl⟩
  rw [exec_eq_complete, execute_pchkOf, checked]
  rfl

/-- Settles O16: the checks pass and the sum is committed. -/
theorem paddWritesTheGroupSum : Obligations.PaddWritesTheGroupSum := by
  intro sel rd ra rb p q s ok holdsP holdsQ validP validQ
  refine exec_point ((execute_paddOf sel rd ra rb s).trans ?_)
  exact withPoints_eq_ok_iff.mpr ⟨ok, p, q, holdsP, validP, holdsQ, validQ, rfl⟩

/-- Settles O17: the checks pass and the double is committed; ∞ and the points with y = 0 double to ∞. -/
theorem pdblWritesTheDouble : Obligations.PdblWritesTheDouble := by
  intro sel rd ra q s ok holds valid
  refine ⟨exec_point ((execute_pdblOf sel rd ra s).trans ?_), ?_, ?_⟩
  · exact withPoint_eq_ok_iff.mpr ⟨ok, q, holds, valid, rfl⟩
  · rintro rfl
    rfl
  · rintro x rfl
    exact groupAdd_self_zero _

/-- Settles O25: a pair read twice is read once. -/
theorem pdblEqualsPaddOfThePairWithItself : Obligations.PdblEqualsPaddOfThePairWithItself := by
  intro sel rd ra s
  rw [exec_eq_complete, exec_eq_complete, execute_pdblOf, execute_paddOf, pointAdd, withPoints_self]
  rfl

/-- SMUL.K of a point of K (R149, R151). -/
theorem exec_smulK {rd ra rb : Reg} {q : Point} {s : State} (holds : holdsPoint s rb q) (valid : validPoint (curve .k s) q) :
    exec (.smulK rd ra rb) s = .next
      (s.writePoint (pairOf rd) (whileLoop (curve .k s) ((s.reg ra).toNat % groupOrder) .infinity q)).succeed := by
  rw [← smulValue_k]
  exact exec_point (execute_smulOf_eq_ok (sel := .k) (fun h => nomatch h) holds valid)

/-- Settles O18: on K the scalar is reduced by one subtraction at most, on a well-formed user curve it is taken as it is. -/
theorem smulWritesTheMultiple : Obligations.SmulWritesTheMultiple := by
  constructor
  · intro rd ra rb q s holds valid
    rw [← mod_groupOrder (s.reg ra).isLt]
    exact exec_smulK holds valid
  · intro rd ra rb q s ok holds valid prime discriminant
    have wf : wellFormedCurve (curve .u s) := (wellFormedCurve_iff _).mpr ⟨prime, discriminant⟩
    rw [← doubleAndAdd_eq_whileLoop _ _ (s.reg ra).isLt, ← smulValue_u_wellFormed wf]
    exact exec_point (execute_smulOf_eq_ok ok holds valid)

/-- Settles O19 with the model's open function. -/
theorem smulOnIllFormedCurveCompletes : Obligations.SmulOnIllFormedCurveCompletes := by
  refine ⟨smulUndef, fun rd ra rb q s ok holds valid ill => ⟨fun x y h => ?_, ?_⟩⟩
  · obtain ⟨-, big, -⟩ := curve_modulus ok
    exact smulUndef_lt (by omega) h
  · rw [← smulValue_u_illFormed (mt (wellFormedCurve_iff _).mp ill)]
    exact exec_point (execute_smulOf_eq_ok ok holds valid)

/-- Settles O24: the loop of R150 does not run for 0, and runs once or twice for 1 and 2. -/
theorem smulCornerCases : Obligations.SmulCornerCases := by
  intro rd ra rb q s holds valid
  refine ⟨_, exec_smulK holds valid, ?_, ?_, ?_, ?_⟩
  · intro zero
    rw [zero, whileLoop_zero]
  · intro one
    rw [one, whileLoop_one]
  · intro two
    rw [two, whileLoop_two]
  · rintro rfl
    exact whileLoop_infinity _ _

end Sys2Proof.Machine
end

section
/-! PROOF. On K and on a well-formed user curve the results of the point commands are points of the curve (R156). -/

namespace Sys2Proof.Machine

open Claims

/-- The modulus of K is the ROM's P, which is prime (R154, R171). -/
theorem fieldPrime_prime : Nat.Prime fieldPrime := primeP_prime

theorem curve_prime {sel : CurveSel} {s : State} (prime : sel = .u → Nat.Prime s.umod.toNat) : (curve sel s).m.Prime := by
  cases sel with
  | k => exact fieldPrime_prime
  | u => exact prime rfl

/-- PADD, PDBL and SMUL commit a point of the curve they name. -/
theorem execute_pointCommand_valid {sel : CurveSel} {rd ra rb : Reg} {i : Instr} {s : State} {w : Writes}
    (hi : i = paddOf sel rd ra rb ∨ i = pdblOf sel rd ra ∨ i = smulOf sel rd ra rb)
    (wf : sel = .u → Nat.Prime s.umod.toNat ∧ (4 * s.ua.toNat ^ 3 + 27 * s.ub.toNat ^ 2) % s.umod.toNat ≠ 0)
    (h : execute i s = .ok w) :
    curveOk sel s ∧ ∃ q, w = .point (pairOf rd) q ∧ validPoint (curve sel s) q := by
  have prime := curve_prime fun hu => (wf hu).1
  rcases hi with rfl | rfl | rfl
  · rw [execute_paddOf] at h
    obtain ⟨ok, p, q, -, validP, -, validQ, rfl⟩ := withPoints_eq_ok_iff.mp h
    obtain ⟨odd, -, bound⟩ := curve_modulus ok
    exact ⟨ok, _, rfl, groupAdd_valid prime odd bound validP validQ⟩
  · rw [execute_pdblOf] at h
    obtain ⟨ok, q, -, valid, rfl⟩ := withPoint_eq_ok_iff.mp h
    obtain ⟨odd, -, bound⟩ := curve_modulus ok
    exact ⟨ok, _, rfl, groupAdd_valid prime odd bound valid valid⟩
  · rw [execute_smulOf] at h
    obtain ⟨ok, q, -, valid, rfl⟩ := withPoint_eq_ok_iff.mp h
    obtain ⟨odd, -, bound⟩ := curve_modulus ok
    have multiple : ∀ k, validPoint (curve sel s) (doubleAndAdd (curve sel s) k q) := fun k =>
      doubleAndAddLoop_valid prime odd bound 256 k trivial valid
    refine ⟨ok, _, rfl, ?_⟩
    cases sel with
    | k => exact multiple _
    | u =>
      rw [smulValue_u_wellFormed ((wellFormedCurve_iff _).mpr (wf rfl))]
      exact multiple _

/-- Settles O27: the command commits a point of the curve, the pair then holds it, and PCHK accepts it. -/
theorem pointResultsStayOnTheCurve : Obligations.PointResultsStayOnTheCurve := by
  intro sel rd ra rb i s t hi wf h success
  obtain rfl := exec_next h
  obtain ⟨w, hw⟩ := execute_ok_of_complete_err success
  obtain ⟨ok, q, rfl, valid⟩ := execute_pointCommand_valid hi wf hw
  obtain ⟨-, -, bound⟩ := curve_modulus ok
  have sameCurve := curve_congr sel (complete_umod s (execute i s)) (complete_ua ..) (complete_ub ..)
  have okAfter := (curveOk_congr (complete_umod s (execute i s)) (complete_ua ..) (complete_ub ..)).mpr ok
  have holds : holdsPoint (complete s (execute i s)) rd q := hw ▸ holdsPoint_writePoint s rd bound valid
  exact ⟨_, pchkAcceptsPointsOfTheCurve sel rd q _ okAfter holds (sameCurve ▸ valid), rfl⟩

end Sys2Proof.Machine
end

section
/-! PROOF. The coordinates of a pair whose INF bit is 1 have no influence (R143, I14). -/

namespace Sys2Proof.Machine

open Claims

/-- Another pair's read does not depend on pair k, and neither does a read of pair k itself while it holds ∞. -/
theorem readPoint_setCoordinates {c : Curve} {k : Pair} (j : Pair) {s : State} (vx vy : Word256) (flag : s.infFlag k = true) :
    readPoint c j ((s.setReg (xReg k) vx).setReg (yReg k) vy) = readPoint c j s := by
  by_cases same : j = k
  · subst same
    rw [readPoint_infinity flag, readPoint_infinity (by simpa using flag)]
  · have other : k ≠ j := fun h => same h.symm
    have regX : ((s.setReg (xReg k) vx).setReg (yReg k) vy).reg (xReg j) = s.reg (xReg j) := by
      rw [reg_setReg_ne _ _ (xReg_ne_yReg j k).symm, reg_setReg_ne _ _ (xReg_injective.ne other)]
    have regY : ((s.setReg (xReg k) vx).setReg (yReg k) vy).reg (yReg j) = s.reg (yReg j) := by
      rw [reg_setReg_ne _ _ (yReg_injective.ne other), reg_setReg_ne _ _ (xReg_ne_yReg k j)]
    simp only [readPoint, infFlag_setReg, regX, regY]

/-- PCHK, PADD and PDBL execute the same whatever the coordinates of a pair that holds ∞. -/
theorem execute_setCoordinates {sel : CurveSel} {rd ra rb : Reg} {k : Pair} {i : Instr} {s : State} (vx vy : Word256)
    (flag : s.infFlag k = true) (hi : i = pchkOf sel ra ∨ i = paddOf sel rd ra rb ∨ i = pdblOf sel rd ra) :
    execute i ((s.setReg (xReg k) vx).setReg (yReg k) vy) = execute i s := by
  have sameCurve : curveOf sel ((s.setReg (xReg k) vx).setReg (yReg k) vy) = curveOf sel s := curveOf_congr rfl rfl rfl
  rcases hi with rfl | rfl | rfl
  · simp only [execute_pchkOf, pointCheck, withPoint, sameCurve, readPoint_setCoordinates _ vx vy flag]
  · simp only [execute_paddOf, pointAdd, withPoints, sameCurve, readPoint_setCoordinates _ vx vy flag]
  · simp only [execute_pdblOf, pointDouble, withPoint, sameCurve, readPoint_setCoordinates _ vx vy flag]

/-- What a completion leaves in a register depends on that register and on what is committed. -/
theorem reg_complete_congr {s s' : State} {r : Reg} (h : s'.reg r = s.reg r) (result : Except ErrorCode Writes) :
    (complete s' result).reg r = (complete s result).reg r := by
  rcases result with e | (_ | ⟨rd, v⟩ | ⟨k, _ | ⟨x, y⟩⟩)
  · exact h
  · exact h
  · simp only [complete_ok, reg_succeed, State.commit, reg_setReg, h]
  · simp only [complete_ok, reg_succeed, State.commit, State.writePoint, reg_setInf, reg_setReg, h]
  · simp only [complete_ok, reg_succeed, State.commit, State.writePoint, reg_setInf, reg_setReg, h]

/-- What a completion leaves in INF, ERR and ERRCODE depends on INF and on what is committed. -/
theorem flags_complete_congr {s s' : State} (h : s'.inf = s.inf) (result : Except ErrorCode Writes) :
    (complete s' result).err = (complete s result).err ∧ (complete s' result).errcode = (complete s result).errcode ∧
      (complete s' result).inf = (complete s result).inf := by
  rcases result with e | (_ | ⟨rd, v⟩ | ⟨k, _ | ⟨x, y⟩⟩)
  · exact ⟨rfl, rfl, h⟩
  · exact ⟨rfl, rfl, h⟩
  · exact ⟨rfl, rfl, h⟩
  · exact ⟨rfl, rfl, congrArg (setInfBit · k true) h⟩
  · exact ⟨rfl, rfl, congrArg (setInfBit · k false) h⟩

/-- Settles O28: the command commits the same on both states, which differ in the two coordinates only. -/
theorem coordinatesOfInfinityAreIgnored : Obligations.CoordinatesOfInfinityAreIgnored := by
  intro sel rd ra rb k vx vy i s t t' flag hi h h'
  obtain rfl := exec_next h
  obtain rfl := exec_next h'
  rw [execute_setCoordinates vx vy flag hi]
  have sameInf : ((s.setReg (xReg k) vx).setReg (yReg k) vy).inf = s.inf := rfl
  obtain ⟨err, errcode, inf⟩ := flags_complete_congr sameInf (execute i s)
  refine ⟨err, errcode, inf, fun r hx hy => reg_complete_congr ?_ _⟩
  rw [reg_setReg_ne _ _ hy.symm, reg_setReg_ne _ _ hx.symm]

end Sys2Proof.Machine
end

section
/-! PROOF. The parameter ROM: its entries, LDROM, and its window on the bus (R98, R170–R176). -/

namespace Sys2Proof.Machine

open Claims

/-! The reserved entries, in the ROM and as LDROM's operand -/

/-- Entries 11–15 hold 0 (R170). -/
theorem rom_reserved : ∀ e : Fin 16, 11 ≤ e.val → rom e = 0 := by decide

theorem decode_eq_decodeLdrom {w : Word32} (rsv : rsvField w = 0) (op : opField w = 8) : decode w = decodeLdrom w := by
  rw [decode, if_neg (not_not.mpr rsv), op]
  rfl

/-- The LDROM word of an entry is a command for the defined entries only (R95, R97). -/
theorem decode_commandWord_ldrom (rd : Reg) (e : Fin 16) :
    decode (commandWord 8 rd e 0 0) = if 10 < e.val then .error .romIndex else .ok (.ldrom rd e) := by
  rw [decode_eq_decodeLdrom (rsvField_commandWord ..) (opField_commandWord ..), decodeLdrom, rbField_commandWord,
    mselField_commandWord, raField_commandWord, rdField_commandWord, if_neg (by decide)]

/-! The window on the bus, whatever BUSY is (R68) -/

theorem memRead_romWord (s : State) (e : Fin 16) (j : Fin 8) :
    memRead s (0x400 + 32 * e.val + 4 * j.val) = (wordOf (rom e) j.val, s) := by
  rw [memRead_unlocked (by rw [regionOf_rom_word]; rfl), regionOf_rom_word, regionWord, getWord_eq_wordOf]

theorem memWrite_romWord (s : State) (e : Fin 16) (j : Fin 8) (v : Word32) :
    memWrite s (0x400 + 32 * e.val + 4 * j.val) v = s :=
  memWrite_ignored (by omega) (by omega) s v

theorem wordOf_zero (j : Nat) : wordOf 0 j = 0 := by
  simp [wordOf]

/-- Settles O29: LDROM executes to the write of its entry to rd, and no check can fail. -/
theorem ldromLoadsTheEntry : Obligations.LdromLoadsTheEntry :=
  fun _ _ _ _ => exec_register rfl

/-- Settles O30: the table entry by entry; the bus reads a reserved entry as the 0 it holds, and its LDROM word does not decode. -/
theorem romHoldsTheParameters : Obligations.RomHoldsTheParameters := by
  refine ⟨rfl, fun s e j reserved => ?read, fun rd e reserved i h => ?illegal⟩
  case read => rw [memRead_romWord, rom_reserved e reserved, wordOf_zero]
  case illegal =>
    rw [decode_commandWord_ldrom, if_pos (by omega)] at h
    cases h

/-- Settles O31: each side is a closed number, and the two are the same number. -/
theorem romMontgomeryConstants : Obligations.RomMontgomeryConstants := by
  unfold Obligations.RomMontgomeryConstants
  decide

/-- Settles O32: the window's offsets are the ROM's words, which have no busy lock and ignore writes. -/
theorem romWindowIsReadOnlyAndUnlocked : Obligations.RomWindowIsReadOnlyAndUnlocked :=
  fun s e j v => ⟨memRead_romWord s e j, memWrite_romWord s e j v, rom_reserved e⟩

end Sys2Proof.Machine
end

section
/-! SUPPORT. The checks of a command as a list beside what the command executes to: the code an execution raises is that of the
first failing check in R184's order; and the engine's turn on a pending command (R186). -/

namespace Sys2Proof.Machine

open Claims

/-! Executing against a list of checks -/

section

variable {α β : Type} {l l' : List (Bool × ErrorCode)} {r : Except ErrorCode α}

/-- The code an execution raises; one that raises nothing leaves it to `code`. -/
def raisedOr (code : ErrorCode) : Except ErrorCode α → ErrorCode
  | .ok _ => code
  | .error e => e

/-- `r` is the outcome of the checks of `l`: it raises the code of the first one that fails, and answers only when none does, so
that the checks that follow decide. -/
def OutcomeOf (l : List (Bool × ErrorCode)) (r : Except ErrorCode α) : Prop :=
  ∀ rest, firstFailing (l ++ rest) = raisedOr (firstFailing rest) r

theorem outcomeOf_nil (a : α) : OutcomeOf [] (.ok a : Except ErrorCode α) := fun _ => rfl

/-- One check, and the checks that follow where it passes. -/
theorem outcomeOf_cons {b : Bool} {e : ErrorCode} {p : Prop} [Decidable p] (check : b = true ↔ p) (next : ¬ p → OutcomeOf l r) :
    OutcomeOf ((b, e) :: l) (if p then .error e else r) := by
  intro rest
  by_cases hp : p
  · rw [if_pos hp, check.mpr hp]
    rfl
  · rw [if_neg hp, eq_false_of_ne_true (mt check.mp hp)]
    exact next hp rest

/-- The checks of one execution, then those of what it goes on with. -/
theorem OutcomeOf.bind {f : α → Except ErrorCode β} (first : OutcomeOf l r) (next : ∀ a, r = .ok a → OutcomeOf l' (f a)) :
    OutcomeOf (l ++ l') (r >>= f) := by
  intro rest
  rw [List.append_assoc, first]
  cases r with
  | error e => rfl
  | ok a => exact next a rfl rest

/-- The first failing check of the whole list is what the execution raises. -/
theorem OutcomeOf.firstFailing_eq (h : OutcomeOf l r) : firstFailing l = raisedOr .none r := by
  rw [← List.append_nil l, h, firstFailing]

end

/-! The operand forms -/

theorem userModulusCheck_iff (s : State) :
    (s.umod.toNat % 2 == 0 || decide (s.umod.toNat < 3)) = true ↔ badModulus s.umod := by
  rw [badModulus_iff, userModulusOk, Bool.or_eq_true, beq_iff_eq, decide_eq_true_iff]
  omega

/-- Step 2 of R184 for a modular command. -/
theorem modulusOf_outcome (sel : ModSel) (s : State) :
    OutcomeOf (if sel = .u then userModulusChecks s else []) (modulusOf sel s) := by
  cases sel with
  | p => exact outcomeOf_nil _
  | n => exact outcomeOf_nil _
  | u => exact outcomeOf_cons (userModulusCheck_iff s) fun _ => outcomeOf_nil _

theorem eq_modulus_of_modulusOf {sel : ModSel} {s : State} {m : Nat} (h : modulusOf sel s = .ok m) : m = modulus sel s := by
  by_cases ok : modulusOk sel s
  · rw [modulusOf_eq_ok ok] at h
    exact (Except.ok.inj h).symm
  · rw [modulusOf_eq_error ok] at h
    cases h

theorem modular_eq_bind (sel : ModSel) (op : Nat → Nat → Nat → Nat) (rd ra rb : Reg) (s : State) :
    modular sel op rd ra rb s = modulusOf sel s >>= fun m =>
      if m ≤ (s.reg ra).toNat then .error .range
      else if m ≤ (s.reg rb).toNat then .error .range
      else .ok (.register rd (BitVec.ofNat 256 (op m (s.reg ra).toNat (s.reg rb).toNat))) := by
  unfold modular
  cases modulusOf sel s <;> rfl

/-- Steps 2 and 4 of R184 for a modular command. -/
theorem modular_outcome (sel : ModSel) (op : Nat → Nat → Nat → Nat) (rd ra rb : Reg) (s : State) :
    OutcomeOf (modularChecks sel ra rb s) (modular sel op rd ra rb s) := by
  rw [modular_eq_bind]
  refine (modulusOf_outcome sel s).bind fun m hm => ?_
  rw [← eq_modulus_of_modulusOf hm]
  exact outcomeOf_cons decide_eq_true_iff fun _ => outcomeOf_cons decide_eq_true_iff fun _ => outcomeOf_nil _

/-- Steps 2 and 3 of R184 for a point command. -/
theorem curveOf_outcome (sel : CurveSel) (s : State) : OutcomeOf (curveChecks sel s) (curveOf sel s) := by
  cases sel with
  | k => exact outcomeOf_nil _
  | u =>
    exact outcomeOf_cons (userModulusCheck_iff s) fun _ => outcomeOf_cons decide_eq_true_iff fun _ =>
      outcomeOf_cons decide_eq_true_iff fun _ => outcomeOf_nil _

/-- Step 4 of R184 for one pair. -/
theorem readPoint_outcome (c : Curve) (r : Reg) (s : State) : OutcomeOf (pairChecks c r s) (readPoint c (pairOf r) s) := by
  unfold pairChecks readPoint
  cases s.infFlag (pairOf r) with
  | true => exact outcomeOf_nil _
  | false =>
    refine outcomeOf_cons decide_eq_true_iff fun _ => outcomeOf_cons decide_eq_true_iff fun _ => ?_
    rw [← ite_not]
    exact outcomeOf_cons (by rw [decide_eq_true_iff, onCurve_iff]) fun _ => outcomeOf_nil _

theorem withPoint_eq_bind (sel : CurveSel) (r : Reg) (s : State) (next : Curve → Point → Writes) :
    withPoint sel r s next = curveOf sel s >>= fun c => readPoint c (pairOf r) s >>= fun q => .ok (next c q) := by
  unfold withPoint
  cases curveOf sel s with
  | error e => rfl
  | ok c => cases h : readPoint c (pairOf r) s <;> simp only [h, bind, Except.bind]

theorem withPoints_eq_bind (sel : CurveSel) (ra rb : Reg) (s : State) (next : Curve → Point → Point → Writes) :
    withPoints sel ra rb s next = curveOf sel s >>= fun c => readPoint c (pairOf ra) s >>= fun p =>
      readPoint c (pairOf rb) s >>= fun q => .ok (next c p q) := by
  unfold withPoints
  cases curveOf sel s with
  | error e => rfl
  | ok c =>
    cases hp : readPoint c (pairOf ra) s with
    | error e => simp only [hp, bind, Except.bind]
    | ok p => cases hq : readPoint c (pairOf rb) s <;> simp only [hp, hq, bind, Except.bind]

/-- Steps 2 to 4 of R184 for a command of one pair. -/
theorem withPoint_outcome (sel : CurveSel) (r : Reg) (s : State) (next : Curve → Point → Writes) :
    OutcomeOf (curveChecks sel s ++ pairChecks (curve sel s) r s) (withPoint sel r s next) := by
  rw [withPoint_eq_bind]
  refine (curveOf_outcome sel s).bind fun c hc => ?_
  obtain ⟨-, rfl⟩ := curveOf_eq_ok_iff.mp hc
  rw [← List.append_nil (pairChecks _ r s)]
  exact (readPoint_outcome _ r s).bind fun q _ => outcomeOf_nil _

/-- Steps 2 to 4 of R184 for a command of two pairs. -/
theorem withPoints_outcome (sel : CurveSel) (ra rb : Reg) (s : State) (next : Curve → Point → Point → Writes) :
    OutcomeOf (curveChecks sel s ++ pairChecks (curve sel s) ra s ++ pairChecks (curve sel s) rb s)
      (withPoints sel ra rb s next) := by
  rw [withPoints_eq_bind, List.append_assoc]
  refine (curveOf_outcome sel s).bind fun c hc => ?_
  obtain ⟨-, rfl⟩ := curveOf_eq_ok_iff.mp hc
  refine (readPoint_outcome _ ra s).bind fun p _ => ?_
  rw [← List.append_nil (pairChecks _ rb s)]
  exact (readPoint_outcome _ rb s).bind fun q _ => outcomeOf_nil _

/-! The commands -/

/-- What a command executes to is the outcome of its checks in the order of R184. -/
theorem execute_outcome (i : Instr) (s : State) : OutcomeOf (checks i s) (execute i s) := by
  unfold checks execute
  cases i with
  | modaddP rd ra rb | modaddN rd ra rb | modaddU rd ra rb | modsubP rd ra rb | modsubN rd ra rb | modsubU rd ra rb
  | montmulP rd ra rb | montmulN rd ra rb | montmulU rd ra rb => exact modular_outcome _ _ rd ra rb s
  | pchkK ra | pchkU ra | pdblK rd ra | pdblU rd ra => exact withPoint_outcome _ ra s _
  | smulK rd ra rb | smulU rd ra rb => exact withPoint_outcome _ rb s _
  | paddK rd ra rb | paddU rd ra rb => exact withPoints_outcome _ ra rb s _
  | ldrom rd idx => exact outcomeOf_nil _

/-- Decoding comes before every other check (R184, step 1). -/
theorem executePending_outcome (s : State) : OutcomeOf (wordChecks s.cmdLast s) (executePending s) := by
  unfold wordChecks executePending
  cases decode s.cmdLast with
  | ok i => exact execute_outcome i s
  | error e => exact fun _ => rfl

/-- No pending command raises the code of success (R181). -/
theorem executePending_error_ne_none {s : State} {e : ErrorCode} (h : executePending s = .error e) : e ≠ .none := by
  rcases executePending_error h with (rfl | rfl | rfl) | rfl <;> decide

/-! The engine's turn -/

/-- A completion does not move IE (R186). -/
theorem byCompletion_ie {s t : State} (h : byCompletion s t) : t.ie = s.ie := by
  obtain ⟨busy, ts, -, ht⟩ := h
  rw [engineTurn_completes (by exact busy)] at ht
  obtain rfl := Host.Outcome.next.inj ht
  exact complete_ie _ _

/-- The engine's turn on a pending command that decodes runs it (R186). -/
theorem engineTurn_eq_exec {s : State} {i : Instr} (busy : s.busy = true) (legal : decode s.cmdLast = .ok i) :
    engineTurn s = exec i s := by
  rw [engineTurn_busy busy, completePending, legal]

end Sys2Proof.Machine
end

section
/-! PROOF. The life cycle of a command: acceptance, the engine's turn, its outcomes and the precedence of its errors, and irq
(spec/60_exceptions.md R180–R191). -/

namespace Sys2Proof.Machine

open Claims

/-- Settles O33: a command executes to writes, which complete with success, or to an operand error, which `raise` reports. -/
theorem everyCommandEndsInOneOutcome : Obligations.EveryCommandEndsInOneOutcome := by
  intro i s
  refine ⟨_, exec_eq_complete i s, complete_busy _ _, complete_done _ _, ?_⟩
  cases h : execute i s with
  | ok w => exact .inl ⟨rfl, rfl⟩
  | error e =>
    have codes : e.code = 2 ∨ e.code = 5 ∨ e.code = 7 := by
      rcases execute_error h with rfl | rfl | rfl <;> decide
    exact .inr ⟨codes, rfl⟩

/-- Settles O34: what the pending command executes to is the outcome of its checks, and its completion reports that. -/
theorem firstFailingCheckIsReported : Obligations.FirstFailingCheckIsReported := by
  intro s busy
  refine ⟨_, engineTurn_completes busy, complete_done _ _, ?_⟩
  rw [(executePending_outcome s).firstFailing_eq]
  cases h : executePending s with
  | ok w => exact ⟨rfl, iff_of_false Bool.false_ne_true (not_not.mpr rfl)⟩
  | error e => exact ⟨rfl, iff_of_true rfl (executePending_error_ne_none h)⟩

/-- Settles O54: where DONE rises the step is a completion, which keeps IE; where DONE was 1, irq was 0 for IE = 0. -/
theorem irqRisesOnlyByCompletionOrEnable : Obligations.IrqRisesOnlyByCompletionOrEnable := by
  intro s t hstep low high
  obtain ⟨ie, done⟩ := Bool.and_eq_true_iff.mp high
  cases wasDone : s.done with
  | true =>
    have wasOff : s.ie = false := by rwa [State.irq, wasDone, Bool.and_true] at low
    exact .inr ⟨wasOff, ie, rfl, done⟩
  | false =>
    obtain ⟨-, -, -, doneRises, -⟩ := statusChangesOnlyAsSpecified s t hstep
    have completion := doneRises wasDone done
    obtain ⟨busy, idle, -⟩ := byCompletion_status completion
    exact .inl ⟨busy, idle, byCompletion_ie completion ▸ ie, ie⟩

/-- Settles O5: both turns are the engine's. -/
theorem stepRunsThePendingCommand : Obligations.StepRunsThePendingCommand := by
  intro s i busy legal
  refine ⟨fun ts scheduled => ?_, fun usedUp => ?_⟩
  · rw [step_scheduled scheduled]
    exact engineTurn_eq_exec busy legal
  · rw [step_default usedUp, State.defaultTurn, if_pos busy]
    exact engineTurn_eq_exec busy legal

/-- Settles O6: the word is accepted and the engine's turn is next, so it is a step of the pending command. -/
theorem fetchedWordRunsInTheNextStep : Obligations.FetchedWordRunsInTheNextStep := by
  intro s w i legal
  have word : BitVec.ofNat 32 (w.toNat % 2 ^ 32) = w := by rw [Nat.mod_eq_of_lt w.isLt, BitVec.ofNat_toNat, BitVec.setWidth_eq]
  rw [State.withFetchWord, word]
  obtain ⟨scheduled, -⟩ := stepRunsThePendingCommand
    { accept s w with rstIn := false, schedule := .engine :: s.schedule } i rfl legal
  exact scheduled s.schedule rfl

/-- Settles O49. -/
theorem acceptanceOfACommand : Obligations.AcceptanceOfACommand := by
  intro s w
  refine ⟨fun idle => ?_, fun busy => ?_⟩
  · rw [memWrite_cmd, if_neg (ne_true_of_eq_false idle)]
    rfl
  · rw [memWrite_cmd, if_pos busy]
    rfl

/-- Settles O50: the pending command's completion, whose ERR and ERRCODE agree. -/
theorem engineCompletesInOneStep : Obligations.EngineCompletesInOneStep := by
  refine fun s => ⟨fun busy => ?_, engineTurn_idle⟩
  refine ⟨_, engineTurn_completes busy, complete_busy _ _, complete_done _ _, ?_, complete_ie _ _, complete_ovr _ _,
    complete_cmdLast _ _⟩
  rcases complete_err_cases s with ⟨err, code⟩ | ⟨err, e, code, raised⟩
  · exact iff_of_true err code
  · have failed : e ≠ 0 := by rcases raised with rfl | rfl | rfl | rfl <;> decide
    exact iff_of_false (ne_false_of_eq_true err) (code ▸ failed)

end Sys2Proof.Machine
end

section
/-! PROOF. The reset: what it leaves, what it aborts, and that an idle block moves by host writes and resets only (R210–R213). -/

namespace Sys2Proof.Machine

open Claims

theorem reset_blockIsReset : State.reset.blockIsReset :=
  ⟨rfl, rfl, rfl, rfl, rfl, rfl, rfl, rfl, rfl, rfl, rfl, rfl⟩

/-- Settles O60: the invariant holds in every reset block. -/
theorem resetMeetsTheInvariant : Obligations.ResetMeetsTheInvariant :=
  inv_of_blockIsReset reset_blockIsReset

/-- While the reset input is asserted, the host's next access is refused, whichever it is (R213). -/
theorem hostTurn_asserted {s : State} {op : HostOp} {rest : List HostOp} (asserted : s.rstIn = true)
    (hp : s.program = op :: rest) : hostTurn s = .refused .accessDuringReset := by
  have refused (p : List HostOp) (a : BusAddr) (width : Nat) :
      admitAccess { s with program := p } a width = .refused .accessDuringReset := admitAccess_reset asserted a width
  rw [hostTurn, hp]
  cases op with
  | read a width | wait => simp only [hostOp, hostRead, refused]
  | write a width v | writeBack a keep set => simp only [hostOp, hostWrite, refused]

/-- Settles O52: both sources leave the reset block, which is idle, so the engine has nothing to complete. -/
theorem resetAbortsThePendingCommand : Obligations.ResetAbortsThePendingCommand := by
  refine fun s v op rest _ => ⟨⟨_, rfl, softReset_blockIsReset s, rfl, engineTurn_idle rfl, irq_eq_false_of_done rfl,
    hostTurn_asserted rfl, _, rfl, softReset_blockIsReset s, rfl⟩, fun srst => ?_⟩
  rw [memWrite_ctrl, if_pos srst]
  exact ⟨softReset_blockIsReset s, engineTurn_idle rfl, irq_eq_false_of_done rfl⟩

/-- Every field of R211 holds the same value in both states. -/
structure BlockKept (s t : State) : Prop where
  operands : OperandsKept s t
  status : StatusKept s t
  ie : t.ie = s.ie

/-- Moving the environment and the level of the reset input keeps the block. -/
theorem BlockKept.withEnvironment (s : State) (r : Bool) (p : List HostOp) (ts : List Turn) (l : List Word32) (d : Nat) :
    BlockKept s { s with rstIn := r, program := p, schedule := ts, reads := l, draws := d } :=
  ⟨⟨rfl, rfl, rfl, rfl, rfl, rfl⟩, ⟨rfl, rfl, rfl, rfl, rfl, rfl⟩, rfl⟩

/-- What can move the block: the host's next write, a completion or a reset. -/
theorem step_blockEvent {s t : State} (h : step s = .next t) :
    byHostWrite s t ∨ byCompletion s t ∨ byReset s t ∨ BlockKept s t := by
  obtain ⟨turn, ts, hturn, rfl | ⟨p, v, d, -, -, rfl⟩ | ⟨a, p, off, v, rfl, released, ha, aligned, hp, rfl⟩ | ⟨rfl, busy, rfl⟩ |
    ⟨rfl, rfl⟩ | ⟨-, rfl⟩⟩ := step_next h
  · exact .inr (.inr (.inr (.withEnvironment s ..)))
  · exact .inr (.inr (.inr (.withEnvironment s ..)))
  · exact .inl ⟨off, v, p, ts, ⟨hturn, released, aligned, a, offset_eq_some_iff.mp ha, hp⟩, rfl⟩
  · exact .inr (.inl ⟨busy, ts, hturn, engineTurn_completes busy⟩)
  · exact .inr (.inr (.inl ⟨softReset_blockIsReset s, .inr ⟨ts, hturn, rfl⟩⟩))
  · exact .inr (.inr (.inr (.withEnvironment s ..)))

theorem not_byCompletion_of_idle {s t : State} (idle : s.busy = false) : ¬ byCompletion s t :=
  fun ⟨busy, _⟩ => ne_false_of_eq_true busy idle

/-- An idle block that accepts no command stays idle, and DONE and ERR do not rise. -/
theorem step_idle_status {s t : State} (idle : s.busy = false) (h : step s = .next t) (notAccepted : ¬ byAcceptance s t) :
    t.busy = false ∧ (t.done = true → s.done = true) ∧ (t.err = true → s.err = true) := by
  obtain ⟨accepts, -, -, doneRises, -, errRises, -⟩ := statusChangesOnlyAsSpecified s t h
  refine ⟨?_, fun done => ?_, fun err => ?_⟩
  · by_contra busy
    exact notAccepted (accepts idle (eq_true_of_ne_false busy))
  · by_contra low
    exact not_byCompletion_of_idle idle (doneRises (eq_false_of_ne_true low) done)
  · by_contra low
    exact not_byCompletion_of_idle idle (errRises (eq_false_of_ne_true low) err)

/-- What changes an idle block is the host's next write or a reset. -/
theorem step_idle_blockEvent {s t : State} (idle : s.busy = false) (h : step s = .next t) (moved : ¬ BlockKept s t) :
    byHostWrite s t ∨ byReset s t := by
  rcases step_blockEvent h with write | completion | reset | kept
  · exact .inl write
  · exact absurd completion (not_byCompletion_of_idle idle)
  · exact .inr reset
  · exact absurd kept moved

/-- Settles O51: a reset writes every field and no ROM entry, and without a pending command nothing completes. -/
theorem resetClearsTheBlock : Obligations.ResetClearsTheBlock := by
  refine ⟨reset_blockIsReset, irq_eq_false_of_done rfl, fun s => ⟨softReset_blockIsReset s, irq_eq_false_of_done rfl,
    engineTurn_idle rfl, rfl, fun e j => by rw [memRead_romWord, memRead_romWord]⟩, fun s t idle h notAccepted => ?_⟩
  obtain ⟨stays, done, err⟩ := step_idle_status idle h notAccepted
  refine ⟨stays, done, err, fun changed => step_idle_blockEvent idle h fun kept => ?_⟩
  obtain ⟨⟨x, inf, umod, ua, ub, cmdLast⟩, ⟨-, done, err, ovr, errcode, -⟩, ie⟩ := kept
  simp only [x, inf, umod, ua, ub, ie, done, err, ovr, errcode, cmdLast, ne_eq, not_true_eq_false, or_self] at changed

end Sys2Proof.Machine
end

section
/-! PROOF. A host that polls STATUS sees the pending command's end, when the platform leaves the block alone (R103, R226). -/

namespace Sys2Proof.Machine

/-- The host's WAIT reads STATUS, and is over when the BUSY bit it read is 0 (R103). -/
theorem hostTurn_wait {s : State} {rest : List HostOp} (released : s.rstIn = false) (hp : s.program = .wait :: rest) :
    hostTurn s = .next { s with program := if s.busy then .wait :: rest else rest, reads := s.statusWord :: s.reads } := by
  have bit : s.statusWord.getLsbD 0 = s.busy := statusWord_getLsbD s 0
  rw [hostTurn, hp]
  simp only [hostOp, hostRead, bit, hp]
  rw [admitAccess_aperture (by exact released) (by decide) (by decide)]
  simp only [memRead_status]
  rfl

/-- The host is in WAIT, and the reset input is released and stays so. -/
structure Polling (rest : List HostOp) (s : State) : Prop where
  released : s.rstIn = false
  waits : s.program = .wait :: rest
  noReset : ∀ turn ∈ s.schedule, turn = .host ∨ turn = .engine

/-- At most `n` steps from `s` the block is idle with DONE = 1, and the host's WAIT is over. -/
def PollEnds (rest : List HostOp) (n : Nat) (s : State) : Prop :=
  ∃ m t, m ≤ n ∧ Sys2Proof.core.run m s = .next t ∧ t.busy = false ∧ t.done = true ∧ t.program = rest

section

variable {rest : List HostOp} {n : Nat} {s t : State}

theorem PollEnds.of_idle (idle : s.busy = false) (done : s.done = true) (ended : s.program = rest) : PollEnds rest 0 s :=
  ⟨0, s, le_rfl, rfl, idle, done, ended⟩

theorem PollEnds.of_step (h : step s = .next t) (ends : PollEnds rest n t) : PollEnds rest (n + 1) s := by
  obtain ⟨m, u, bound, run, result⟩ := ends
  exact ⟨m + 1, u, Nat.succ_le_succ bound, (run_next h).trans run, result⟩

theorem PollEnds.mono {k : Nat} (bound : n ≤ k) (ends : PollEnds rest n s) : PollEnds rest k s := by
  obtain ⟨m, u, within, result⟩ := ends
  exact ⟨m, u, within.trans bound, result⟩

/-- After the first scheduled turn the host still polls, with that turn taken from the schedule. -/
theorem Polling.tail (poll : Polling rest s) {turn : Turn} {ts : List Turn} (hs : s.schedule = turn :: ts) :
    Polling rest { s with schedule := ts } ∧ (turn = .host ∨ turn = .engine) :=
  ⟨⟨poll.released, poll.waits, fun u hu => poll.noReset u (hs ▸ List.mem_cons_of_mem turn hu)⟩,
    poll.noReset turn (hs ▸ List.mem_cons_self)⟩

/-- While BUSY = 1 the WAIT goes on. -/
theorem Polling.hostTurn_busy (poll : Polling rest s) (busy : s.busy = true) :
    hostTurn s = .next { s with reads := s.statusWord :: s.reads } := by
  rw [hostTurn_wait poll.released poll.waits, if_pos busy, ← poll.waits]

/-- With BUSY = 0 the WAIT ends. -/
theorem Polling.hostTurn_idle (poll : Polling rest s) (idle : s.busy = false) :
    hostTurn s = .next { s with program := rest, reads := s.statusWord :: s.reads } := by
  rw [hostTurn_wait poll.released poll.waits, if_neg (ne_true_of_eq_false idle)]

/-- After a completion the host's next turn, scheduled or by default, ends the WAIT; the engine's turns before it do nothing. -/
theorem Polling.ends_of_idle (poll : Polling rest s) (idle : s.busy = false) (done : s.done = true) :
    PollEnds rest (s.schedule.length + 1) s := by
  induction hs : s.schedule generalizing s with
  | nil =>
    have waited := (HostMovesAlone.step_eq_hostTurn ⟨poll.released, idle, hs⟩).trans (poll.hostTurn_idle idle)
    exact .of_step waited (.of_idle idle done rfl)
  | cons turn ts ih =>
    obtain ⟨poll, rfl | rfl⟩ := poll.tail hs
    · have waited := (step_scheduled hs).trans (poll.hostTurn_idle idle)
      have ends : PollEnds rest 1 s := .of_step waited (.of_idle idle done rfl)
      exact ends.mono (Nat.le_add_left 1 _)
    · have skipped := (step_scheduled hs).trans (engineTurn_idle idle)
      exact .of_step skipped (ih poll idle done rfl)

/-- A completion leaves the WAIT and the turns to come, so the WAIT ends as on any idle block with DONE = 1. -/
theorem Polling.ends_of_completion (poll : Polling rest s) (r : Except ErrorCode Writes) :
    PollEnds rest (s.schedule.length + 1) (complete s r) := by
  have polls : Polling rest (complete s r) :=
    ⟨by rw [complete_rstIn, poll.released], by rw [complete_program, poll.waits], by rw [complete_schedule]; exact poll.noReset⟩
  simpa using polls.ends_of_idle (complete_busy s r) (complete_done s r)

/-- While the command is pending a host's turn uses up one turn of the schedule, and the engine's turn completes the command. -/
theorem Polling.ends_of_busy (poll : Polling rest s) (busy : s.busy = true) : PollEnds rest (s.schedule.length + 2) s := by
  induction hs : s.schedule generalizing s with
  | nil =>
    have completed : step s = .next (complete s (executePending s)) := by
      rw [step_default hs, State.defaultTurn, if_pos busy]
      exact engineTurn_completes busy
    exact hs ▸ .of_step completed (poll.ends_of_completion _)
  | cons turn ts ih =>
    obtain ⟨poll, rfl | rfl⟩ := poll.tail hs
    · have waiting := (step_scheduled hs).trans (poll.hostTurn_busy busy)
      exact .of_step waiting (ih ⟨poll.released, poll.waits, poll.noReset⟩ busy rfl)
    · have completed := (step_scheduled hs).trans (engineTurn_completes busy)
      have ends : PollEnds rest (ts.length + 2) s := .of_step completed (poll.ends_of_completion _)
      exact ends.mono (Nat.le_succ _)

end

/-- Settles O58, by induction on the schedule: a host's turn leaves the command pending and the WAIT in place, and after the engine's
the next host's turn ends the WAIT. -/
theorem pollingHostSeesCompletion : Obligations.PollingHostSeesCompletion :=
  fun _ _ busy released waits noReset => Polling.ends_of_busy ⟨released, waits, noReset⟩ busy

end Sys2Proof.Machine
end
